-- ==== Sys2Proof/Word.lean ====
section
/-! DEFINITION. The word types of the block: bytes (field elements and data bytes, spec/00_scope R6), 32-bit bus
words, the 10-bit words and the 30-bit accumulator of RS1024 (spec/41_rs1024 R110). -/

namespace Sys2Proof

/-- A byte: a field element of GF(256) or a data byte (R90, R26). -/
abbrev Byte := BitVec 8

/-- A 32-bit bus word: what a register access carries (R25, R52). -/
abbrev Word := BitVec 32

/-- A word of the RS1024 code, 0 to 1023 (R110, R36). -/
abbrev RsWord := BitVec 10

/-- The 30-bit RS1024 accumulator (R110, R31). -/
abbrev Acc := BitVec 30

end Sys2Proof
end

