-- ==== Sys2Proof/Machine/Access.lean ====
section
/-! DEFINITION. What the host can do to the block in one step: a bus access to the window (spec/20_memory R50, R52) or a
reset (spec/70_reset_and_hazards R220). -/

namespace Sys2Proof.Machine

/-- The access widths `n` of MemRead and MemWrite, 1, 2 or 4 bytes (spec/00_scope R7). -/
inductive Width where
  | byte
  | half
  | word
  deriving DecidableEq, Repr

/-- The number of bytes of an access (R7). -/
def Width.bytes : Width → Nat
  | .byte => 1
  | .half => 2
  | .word => 4

/-- One step of the host (R62, R229). -/
inductive HostStep where
  /-- MemRead(addr, n): a read of the window at byte offset `addr`. -/
  | read (addr : Nat) (width : Width)
  /-- MemWrite(addr, n, v): a write of the n-byte value `v` at byte offset `addr`. -/
  | write (addr : Nat) (width : Width) (v : Word)
  /-- The reset input (R220). -/
  | reset
  deriving DecidableEq, Repr

end Sys2Proof.Machine
end

