-- ==== Sys2Proof/Syntax.lean ====
section
/-! DEFINITION. The instruction set: the eleven commands of spec/30_encoding R72, one constructor per row of
spec/opcode_table.json. No command has an operand in its word (R73), so no constructor has a field. -/

namespace Sys2Proof

/-- The eleven commands (R72). -/
inductive Instr where
  /-- U1, multiply two field elements (R93). -/
  | gfmul
  /-- U1, divide one field element by another (R95). -/
  | gfdiv
  /-- U1, table self-test (R98). -/
  | gftest
  /-- U2, raw polymod of the word buffer (R113). -/
  | rspoly
  /-- U2, compute and append a checksum (R115). -/
  | rscreate
  /-- U2, verify a checksum (R117). -/
  | rsverify
  /-- U3, Feistel encrypt (R137). -/
  | fenc
  /-- U3, Feistel decrypt (R138). -/
  | fdec
  /-- U4, split a secret into shares (R158). -/
  | split
  /-- U5, recover a secret from shares (R173). -/
  | recover
  /-- U5, evaluate the interpolating polynomial (R175). -/
  | interp
  deriving DecidableEq, Repr

end Sys2Proof
end

