-- ==== Sys2Proof/WellFormed.lean ====
section
/-! DEFINITION. Well-formed terms. A command has no field (spec/30_encoding R73), so every command is well-formed; a
host access is well-formed when it lies in the window and carries a value of its own width (spec/20_memory R50,
spec/00_scope R7). -/

namespace Sys2Proof

/-- Every command of R72 is well-formed: none has an operand that could be out of range (R73). -/
def Instr.wellFormed : Instr → Bool
  | .gfmul => true
  | .gfdiv => true
  | .gftest => true
  | .rspoly => true
  | .rscreate => true
  | .rsverify => true
  | .fenc => true
  | .fdec => true
  | .split => true
  | .recover => true
  | .interp => true

namespace Machine

/-- The size of the window in bytes, offsets 0x0000 to 0x1FFF (R50). -/
def windowSize : Nat := 8192

/-- An access lies in the window (R50) and a write's value fits its width (R7). Which of these accesses are LEGAL is the
window map's business (R52, R53: Machine/Window.lean). -/
def HostStep.wellFormed : HostStep → Bool
  | .read addr width => addr + width.bytes ≤ windowSize
  | .write addr width v => addr + width.bytes ≤ windowSize && v.toNat < 2 ^ (8 * width.bytes)
  | .reset => true

end Machine

end Sys2Proof
end

