-- ==== Sys2Proof/Decode.lean ====
section
/-! DEFINITION. The command word decoder and, after it, the encoder (spec/30_encoding R70 to R75). -/

namespace Sys2Proof

/-- Why a CMD word is none of the eleven commands (R74). Both end the command with error IllegalCommand. -/
inductive DecodeError where
  /-- Bits 31:8 (the field ZERO) are not 0 (R70, R74). -/
  | zeroFieldNotZero
  /-- ZERO is 0 and bits 7:0 are none of the eleven opcodes (R72, R74). -/
  | unassignedOpcode
  deriving DecidableEq, Repr

/-- The field ZERO, bits 31:8 (R70). -/
def zeroField (w : Word) : BitVec 24 := w.extractLsb' 8 24

/-- The field OPC, bits 7:0 (R70). -/
def opcField (w : Word) : BitVec 8 := w.extractLsb' 0 8

/-- The opcode map of R72, row by row: (OPC, command). -/
def opcodeMap : List (BitVec 8 × Instr) :=
  [(0x01, .gfmul), (0x02, .gfdiv), (0x03, .gftest),
   (0x10, .rspoly), (0x11, .rscreate), (0x12, .rsverify),
   (0x20, .fenc), (0x21, .fdec),
   (0x30, .split), (0x31, .recover), (0x32, .interp)]

/-- R71: decoding is total, and depends on nothing but the word. -/
def decode (w : Word) : Except DecodeError Instr :=
  if zeroField w ≠ 0 then .error .zeroFieldNotZero
  else
    match opcodeMap.find? (fun row => row.1 == opcField w) with
    | some row => .ok row.2
    | none => .error .unassignedOpcode

/-- The CMD word of a command, column "CMD word" of R72. -/
def encode : Instr → Word
  | .gfmul => 0x00000001
  | .gfdiv => 0x00000002
  | .gftest => 0x00000003
  | .rspoly => 0x00000010
  | .rscreate => 0x00000011
  | .rsverify => 0x00000012
  | .fenc => 0x00000020
  | .fdec => 0x00000021
  | .split => 0x00000030
  | .recover => 0x00000031
  | .interp => 0x00000032

/-- The CMD word made of the low `nbits` bits of `w`, all bits above them 0. -/
def commandWord (nbits w : Nat) : Word := BitVec.ofNat 32 (w % 2 ^ nbits)

/-- What the decoder reads from an instruction given as the opcode table numbers its bits. A command is ONE 32-bit bus
word (R70), the data of a CMD write, so there is no byte order to choose (R55). -/
def decodeTableWord (nbits w : Nat) : Option Instr := (decode (commandWord nbits w)).toOption

end Sys2Proof
end

