-- ==== Sys2Proof/Config.lean ====
section
/-! DEFINITION. What an implementation fixes, and the free values: the size parameters and configuration tables
(spec/00_scope R5, spec/92_eei_decisions OPEN parameters), the hash configuration (spec/45_hash_primitives R190) and the
random source (spec/10_state R40). -/

namespace Sys2Proof

/-- The hash configuration (R190): two total functions of their arguments, with the output lengths R190 gives as their
types. The machine assumes nothing else of them. -/
structure HashConfig where
  /-- HMAC_SHA256 key message: 32 bytes. -/
  hmac : List Byte → List Byte → Vector Byte 32
  /-- PBKDF2_HMAC_SHA256 password salt c dkLen: dkLen bytes. -/
  pbkdf2 : List Byte → List Byte → Nat → (dkLen : Nat) → Vector Byte dkLen
  deriving Inhabited

/-- Which hash configuration a block has, as plain data (log 11): the reference instance of R191 to R193, or one of the
uninterpreted pairs `otherHash n`. -/
inductive HashChoice where
  | reference
  | other (n : Nat)
  deriving DecidableEq, Repr

/-- DESIGN CHOICE (log 11). UNINTERPRETED: hash pairs of which nothing but their type is known. They have no body, so a
claim about a block with one of them holds whatever the pair is (R190). -/
opaque otherHash : Nat → HashConfig

/-- The parameters of a block: the three capacities of R5, the two RS1024 configuration tables of R23 and the hash
configuration (R20, R190). Each capacity is held as a code, so that every value of this type is a configuration R5 allows
and no other can be written down. -/
structure Params where
  /-- LMAX = 16 + 2 · lmaxCode, so LMAX is even and 16 ≤ LMAX ≤ 256 (R5). -/
  lmaxCode : Fin 121
  /-- PMAX, 0 ≤ PMAX ≤ 256 (R5). -/
  pmaxCode : Fin 257
  /-- WMAX = 3 + wmaxCode, so 3 ≤ WMAX ≤ 512 (R5). -/
  wmaxCode : Fin 510
  /-- GEN[0..9], ten 30-bit constants (R23, 92 D21). -/
  gen : Vector Acc 10
  /-- CUST, six 10-bit words (R23, 92 D21). -/
  cust : Vector RsWord 6
  /-- The hash configuration (R20, R190). -/
  hash : HashChoice
  deriving DecidableEq, Repr

/-- Capacity in bytes of SECRET and of each SHV[i] (R5). -/
def Params.lmax (p : Params) : Nat := 16 + 2 * p.lmaxCode.val

/-- Capacity in bytes of PASS (R5). -/
def Params.pmax (p : Params) : Nat := p.pmaxCode.val

/-- Capacity in words of WBUF (R5). -/
def Params.wmax (p : Params) : Nat := 3 + p.wmaxCode.val

/-- DESIGN CHOICE (log 6). A FREE VALUE: the byte the random source answers as its n-th one when nothing in the state
has fixed it. It has no body, so nothing can be proved of it (R40: every byte string is a possible answer). -/
opaque randomByte : Nat → Byte

end Sys2Proof
end

