-- ==== Sys2Proof/Machine/State.lean ====
section
/-! DEFINITION. The state of the block (spec/10_state R20) as plain data, the host and the random source beside it, the
reasons a step can stop, and the state after reset (R42). -/

namespace Sys2Proof.Machine

/-- A memory of `w`-bit elements: (key, value) pairs in one canonical form (`Sparse.wf`, Machine/Ops.lean): keys strictly
rising, and no value equal to what an unlisted key reads as. -/
abbrev Sparse (w : Nat) := List (Nat × BitVec w)

/-- The byte buffers SECRET, PASS, SHV[0..15] (R35, R37, R38): a list of `Host.Cell`s, each keyed by its byte's offset
in the window (spec/20_memory R51). -/
abbrev Memory := List Host.Cell

/-- The host: its accesses still to come, oldest first, and what its reads have returned, newest first (log 1, log 4).
Neither is state of the block. -/
structure HostPort where
  pending : List HostStep
  returned : List Word
  deriving DecidableEq, Repr

/-- The random source, an input port (R40, log 6): the bytes it is already known to answer next (a `DRAWS` line of
spec/30_encoding R76; empty when nothing is known), and how many bytes it has answered. -/
structure RandomSource where
  answers : List Byte
  drawn : Nat
  deriving DecidableEq, Repr

/-- The state (R20). CMD holds nothing (R33) and EXP, LOG are constants (R42), so they are no fields. -/
structure State where
  /-- The parameters of the block, fixed while it runs (R5, R20, R23, R190; log 8, log 11). -/
  cfg : Params
  /-- STATUS: ERR 7:0, RES 8, TOK 9, STICKY 10 (R34). -/
  status : BitVec 11
  /-- GFA, operand a of GFMUL and GFDIV (R26). -/
  gfa : Byte
  /-- GFB, operand b of GFMUL and GFDIV (R26). -/
  gfb : Byte
  /-- GFR, result of GFMUL and GFDIV (R26). -/
  gfr : Byte
  /-- LEN, the length L (R27). -/
  len : BitVec 9
  /-- THR, the threshold T (R28). -/
  thr : BitVec 5
  /-- CNT, the share count N (R28). -/
  cnt : BitVec 5
  /-- SCNT, the number K of valid share table entries (R28). -/
  scnt : BitVec 5
  /-- XSEL, where INTERP evaluates (R28). -/
  xsel : Byte
  /-- IDENT, the identifier (R29). -/
  ident : BitVec 15
  /-- ITEXP, the iteration exponent (R29). -/
  itexp : BitVec 5
  /-- PLEN, the passphrase length (R30). -/
  plen : BitVec 9
  /-- WLEN, the number of valid words of WBUF (R30). -/
  wlen : BitVec 10
  /-- CHK, the last polymod (R31). -/
  chk : Acc
  /-- SHX[0..15], the x-coordinates of the share table (R32). -/
  shx : Vector Byte 16
  /-- SECRET, PASS and SHV[0..15] (R35, R37, R38). -/
  mem : Memory
  /-- WBUF, keyed by index (R36, log 14). -/
  wbuf : Sparse 10
  /-- The host (R9). -/
  host : HostPort
  /-- The random source (R9, R40). -/
  random : RandomSource
  deriving DecidableEq, Repr

/-- The ways a command can stop the machine for good: none. Every command completes or reports an error in STATUS
(spec/00_scope R8, spec/60_exceptions R208), so this type has no constructor and no step answers a fault (safe). -/
inductive Fault where
  deriving DecidableEq, Repr

/-- The steps the model refuses. -/
inductive Refusal where
  /-- Raised by `exec` for a command that has no meaning yet, by its mnemonic; no arm raises it now. Safe: it stops. -/
  | notModelled (mnemonic : String)
  /-- Raised by a host access that is unmapped, misaligned, of the wrong width or crossing an element: a bus error,
  which spec/20_memory R53 makes a refused host step (log 5). Safe: it stops where the bus would report an error. -/
  | busError
  deriving DecidableEq, Repr

/-- The state right after reset of a block with parameters `p` (R42): every register and every buffer element zero.
The host's and the random source's fields, which are the model's own, hold nothing (log 1, log 4, log 6). -/
def State.resetOf (p : Params) : State :=
  { cfg := p, status := 0, gfa := 0, gfb := 0, gfr := 0, len := 0, thr := 0, cnt := 0, scnt := 0, xsel := 0,
    ident := 0, itexp := 0, plen := 0, wlen := 0, chk := 0, shx := Vector.replicate 16 0, mem := [], wbuf := [],
    host := { pending := [], returned := [] }, random := { answers := [], drawn := 0 } }

/-- The state right after reset (R42, spec/70_reset_and_hazards R220), in the reference configuration (R5; log 8). -/
def State.reset : State := State.resetOf referenceParams

end Sys2Proof.Machine
end

