-- ==== Sys2Proof/Machine/Flags.lean ====
section
/-! DEFINITION. STATUS, the block's only flag and status register (spec/10_state R34), and the error codes
(spec/60_exceptions R200). -/

namespace Sys2Proof.Machine

/-- The errors a command can end with (R200). The codes R200 only reserves are never raised (R210) and are no
constructors (log 22). -/
inductive CmdError where
  | invalidSecretLength
  | invalidSecretParity
  | invalidPassphraseCharset
  | invalidShareCount
  | inconsistentMnemonicSet
  | invalidDigest
  | illegalCommand
  | divideByZero
  | bufferRange
  | invalidShareSet
  deriving DecidableEq, Repr

/-- The code of an error, column "Code" of R200. -/
def CmdError.code : CmdError → BitVec 8
  | .invalidSecretLength => 0x01
  | .invalidSecretParity => 0x02
  | .invalidPassphraseCharset => 0x03
  | .invalidShareCount => 0x06
  | .inconsistentMnemonicSet => 0x0B
  | .invalidDigest => 0x0C
  | .illegalCommand => 0x10
  | .divideByZero => 0x11
  | .bufferRange => 0x12
  | .invalidShareSet => 0x13

/-- The STATUS word with the given fields: STICKY 10, TOK 9, RES 8, ERR 7:0 (R34). -/
def packStatus (err : BitVec 8) (res tok sticky : Bool) : BitVec 11 :=
  BitVec.ofBool sticky ++ BitVec.ofBool tok ++ BitVec.ofBool res ++ err

/-- STATUS.ERR (R34). -/
def State.err (s : State) : BitVec 8 := s.status.extractLsb' 0 8

/-- STATUS.RES (R34). -/
def State.res (s : State) : Bool := s.status.getLsbD 8

/-- STATUS.TOK (R34). -/
def State.tok (s : State) : Bool := s.status.getLsbD 9

/-- STATUS.STICKY (R34). -/
def State.sticky (s : State) : Bool := s.status.getLsbD 10

/-- STATUS when a command begins, and so when it completes without writing RES or TOK: ERR and RES cleared, TOK and
STICKY unchanged (R34, R203). -/
def clearedStatus (s : State) : BitVec 11 := packStatus 0 false s.tok s.sticky

/-- STATUS after a command that ends in error `e`: ERR the code, STICKY set, RES cleared, TOK unchanged (R201). -/
def errorStatus (e : CmdError) (s : State) : BitVec 11 := packStatus e.code false s.tok true

/-- STATUS after a completed GFTEST: TOK as computed (R98). -/
def testedStatus (ok : Bool) (s : State) : BitVec 11 := packStatus 0 false ok s.sticky

/-- STATUS after a completed RSVERIFY: RES as computed (R117). -/
def verifiedStatus (valid : Bool) (s : State) : BitVec 11 := packStatus 0 valid s.tok s.sticky

end Sys2Proof.Machine
end

