-- ==== Sys2Proof/Machine/Ops.lean ====
section
/-! DEFINITION. The named operations over memory, registers and the random source; ending a command in error, which is the
block's one exception mechanism (spec/60_exceptions R201); and the frame every command shares (R203). -/

namespace Sys2Proof.Machine

/-- What an unlisted key of a memory reads as: 0, the reset contents of every buffer (spec/10_state R42, log 13). -/
def unlisted (w : Nat) : BitVec w := 0#w

/-- The element at a key. -/
def Sparse.read {w : Nat} : Sparse w → Nat → BitVec w
  | [], _ => unlisted w
  | (k, v) :: rest, a => if k = a then v else Sparse.read rest a

/-- `(k, v)` in front of `rest`, left out when `v` is what an unlisted key reads as. -/
def Sparse.cell {w : Nat} (k : Nat) (v : BitVec w) (rest : Sparse w) : Sparse w :=
  if v = unlisted w then rest else (k, v) :: rest

/-- Store an element at a key, in canonical form. -/
def Sparse.write {w : Nat} : Sparse w → Nat → BitVec w → Sparse w
  | [], a, v => Sparse.cell a v []
  | (k, u) :: rest, a, v =>
    if a < k then Sparse.cell a v ((k, u) :: rest)
    else if a = k then Sparse.cell a v rest
    else (k, u) :: Sparse.write rest a v

/-- The canonical form, from the key `lo` up: keys strictly rising, no value an unlisted key reads as. -/
def Sparse.wfFrom {w : Nat} : Nat → Sparse w → Bool
  | _, [] => true
  | lo, (k, v) :: rest => lo ≤ k && v != unlisted w && Sparse.wfFrom (k + 1) rest

/-- The canonical form of a memory. -/
def Sparse.wf {w : Nat} (m : Sparse w) : Bool := Sparse.wfFrom 0 m

/-- The canonical form of the byte memory. -/
def Memory.wf (m : Memory) : Bool := Sparse.wf (w := 8) m

/-- The byte at a window offset. -/
def Memory.read (m : Memory) (a : Nat) : Byte := Sparse.read (w := 8) m a

/-- Store a byte at a window offset. -/
def Memory.write (m : Memory) (a : Nat) (v : Byte) : Memory := Sparse.write (w := 8) m a v

/-- The `n` bytes from `a` up, first byte first (spec/20_memory R56 (a)). -/
def Memory.readBytes (m : Memory) (a n : Nat) : List Byte := (List.range n).map (fun k => m.read (a + k))

/-- Store a byte string from `a` up, first byte first (R56 (a)). -/
def Memory.writeBytes (m : Memory) (a : Nat) : List Byte → Memory
  | [] => m
  | b :: bs => Memory.writeBytes (m.write a b) (a + 1) bs

/-- The words WBUF[k], .., WBUF[k+n-1] (R36). -/
def readWords (m : Sparse 10) (k n : Nat) : List RsWord := (List.range n).map (fun i => m.read (k + i))

/-- Store words from WBUF[k] up (R36). -/
def writeWords (m : Sparse 10) (k : Nat) : List RsWord → Sparse 10
  | [] => m
  | w :: ws => writeWords (m.write k w) (k + 1) ws

/-- The offset of SECRET[0] (spec/20_memory R51). -/
def secretBase : Nat := 0x0100

/-- The offset of PASS[0] (R51). -/
def passBase : Nat := 0x0200

/-- The offset of SHV[i][0] (R51). -/
def shvBase (i : Nat) : Nat := 0x1000 + 0x100 * i

/-- SHX[i], i = 0..15 (spec/10_state R32). -/
def State.shxAt (s : State) (i : Nat) : Byte := (s.shx[i]?).getD 0

/-- SECRET[0..] <- bytes (R35). -/
def State.setSecret (bytes : List Byte) (s : State) : State :=
  { s with mem := s.mem.writeBytes secretBase bytes }

/-- Share table entry i <- (x, value): SHX[i] <- x, SHV[i][0..] <- value (R32, R38). -/
def State.setShare (i : Nat) (x : Byte) (value : List Byte) (s : State) : State :=
  { s with shx := s.shx.setIfInBounds i x, mem := s.mem.writeBytes (shvBase i) value }

/-- A step that goes on. -/
abbrev Result := Host.Outcome State Fault Refusal

/-- The k-th next byte of the random source: the one already fixed, else a free value (R40, log 6). -/
def RandomSource.byteAt (r : RandomSource) (k : Nat) : Byte := (r.answers[k]?).getD (randomByte (r.drawn + k))

/-- draw(n): n bytes from the random source (spec/00_scope R7, R40). -/
def draw (n : Nat) (r : RandomSource) : List Byte × RandomSource :=
  ((List.range n).map r.byteAt, { answers := r.answers.drop n, drawn := r.drawn + n })

/-- `count` draws of `n` bytes each, in order. -/
def drawMany : Nat → Nat → RandomSource → List (List Byte) × RandomSource
  | 0, _, r => ([], r)
  | count + 1, n, r =>
    let first := draw n r
    let others := drawMany count n first.2
    (first.1 :: others.1, others.2)

/-- ERROR ENTRY, the one exception mechanism (R201): STATUS records the error; nothing else changes, nothing is drawn. There
is no return from an error (R207): the next command begins by clearing ERR (`State.beginCommand`). -/
def State.takeError (e : CmdError) (s : State) : State := { s with status := errorStatus e s }

/-- What every command does first: ERR <- 0, RES <- 0 (R34, R203 step 1). -/
def State.beginCommand (s : State) : State := { s with status := clearedStatus s }

/-- The first check that fails, in the order listed (R203 step 3, R206). -/
def firstError : List (Bool × CmdError) → Option CmdError
  | [] => none
  | (failed, e) :: rest => if failed then some e else firstError rest

/-- A command whose checks are `checks` and whose computation, on the state after ERR and RES are cleared, is `body` (R203):
the first failing check ends it in error; so does an error `body` reports; else it completes. Nothing is written before
the last error that is possible, so an error finds the state as it was (R201). -/
def command (checks : List (Bool × CmdError)) (body : State → Except CmdError State) (s : State) : Result :=
  match firstError checks with
  | some e => .next (s.takeError e)
  | none =>
    match body s.beginCommand with
    | .error e => .next (s.takeError e)
    | .ok s' => .next s'

/-- The block's state at its reset values (R42, R220). Its parameters stand, and the host and the random source are not
the block (log 18). -/
def State.resetBlock (s : State) : State :=
  { State.resetOf s.cfg with host := s.host, random := s.random }

end Sys2Proof.Machine
end

