-- ==== Sys2Proof/Machine/Operands.lean ====
section
/-! DEFINITION. The operand forms: what a command reads by index from the registers and buffers (spec/10_state R35 to R39,
spec/44_shamir_recover R170), and the operand checks commands share (spec/60_exceptions R204, R205). -/

namespace Sys2Proof.Machine

/-- s XOR t, bytewise (spec/00_scope R7). DESIGN CHOICE (log 24): of byte strings of unequal lengths, which R7 leaves out,
the longer is cut to the shorter. -/
def xorBytes (s t : List Byte) : List Byte := List.zipWith (fun a b => a ^^^ b) s t

/-- SECRET[0..L-1], L = LEN (R35). -/
def State.secret (s : State) : List Byte := s.mem.readBytes secretBase s.len.toNat

/-- PASS[0..PLEN-1] (R37). -/
def State.passphrase (s : State) : List Byte := s.mem.readBytes passBase s.plen.toNat

/-- WBUF[0..WLEN-1] (R36). -/
def State.words (s : State) : List RsWord := readWords s.wbuf 0 s.wlen.toNat

/-- A point (x, y): an x-coordinate and a value (spec/43_shamir_split R150). -/
structure Point where
  x : Byte
  y : List Byte
  deriving DecidableEq, Repr

/-- Entry i of the share table, (SHX[i], SHV[i][0..L-1]) (R170). -/
def State.point (s : State) (i : Nat) : Point := { x := s.shxAt i, y := s.mem.readBytes (shvBase i) s.len.toNat }

/-- The first SCNT entries of the share table (R170). -/
def State.points (s : State) : List Point := (List.range s.scnt.toNat).map s.point

/-- The x-coordinates SHX[0..SCNT-1] (R170). -/
def State.xs (s : State) : List Byte := (List.range s.scnt.toNat).map s.shxAt

/-- The length check (R204): InvalidSecretLength, then InvalidSecretParity. -/
def lengthChecks (s : State) : List (Bool × CmdError) :=
  [(s.len.toNat < 16 || s.cfg.lmax < s.len.toNat, .invalidSecretLength),
   (s.len.toNat % 2 == 1, .invalidSecretParity)]

/-- The operand checks of FENC and FDEC, in order (spec/42_feistel R136). -/
def cipherChecks (s : State) : List (Bool × CmdError) :=
  lengthChecks s ++
  [(decide (s.cfg.pmax < s.plen.toNat), CmdError.bufferRange),
   (s.passphrase.any (fun c => c.toNat < 32 || 126 < c.toNat), .invalidPassphraseCharset)]

/-- The checks of SPLIT, in order (R158, R205). -/
def splitChecks (s : State) : List (Bool × CmdError) :=
  (!(1 ≤ s.thr.toNat && s.thr.toNat ≤ s.cnt.toNat && s.cnt.toNat ≤ 16), .invalidShareCount) :: lengthChecks s

/-- The checks of RECOVER before it computes, in order (R173, R205). -/
def recoverChecks (s : State) : List (Bool × CmdError) :=
  (s.thr.toNat < 1 || 16 < s.thr.toNat, .invalidShareCount) :: lengthChecks s ++
  [(s.scnt != s.thr, CmdError.inconsistentMnemonicSet),
   (s.xs.any (fun x => 15 < x.toNat) || !decide s.xs.Nodup, .invalidShareSet)]

/-- The checks of INTERP, in order (R175, R205). -/
def interpChecks (s : State) : List (Bool × CmdError) :=
  (s.scnt.toNat < 1 || 16 < s.scnt.toNat, .invalidShareCount) :: lengthChecks s ++
  [(!decide s.xs.Nodup, CmdError.invalidShareSet)]

end Sys2Proof.Machine
end

