-- ==== Sys2Proof/Machine/Checksum.lean ====
section
/-! DEFINITION. Unit U2, the RS1024 checksum encoder/decoder (spec/41_rs1024): RSPOLY, RSCREATE, RSVERIFY. GEN and CUST are
configuration tables, taken from the block's parameters (R23). -/

namespace Sys2Proof.Machine

/-- The XOR of the constants GEN[i] whose selector bit b[i] is set, onto `c` (R111). -/
def xorSelected (gen : Vector Acc 10) (b c : Acc) : Acc :=
  gen.toList.zipIdx.foldl (fun c g => if b.getLsbD g.2 then c ^^^ g.1 else c) c

/-- One step of polymod (R111): the selector is the top ten bits c[29:20], taken before the shift. -/
def polymodStep (gen : Vector Acc 10) (c : Acc) (w : RsWord) : Acc :=
  xorSelected gen (c >>> 20) (((c &&& 0xFFFFF) <<< 10) ^^^ w.setWidth 30)

/-- polymod (R112), from the start value 1. -/
def polymod (gen : Vector Acc 10) (v : List RsWord) : Acc := v.foldl (polymodStep gen) 1

/-- The three 10-bit groups of a 30-bit value, most significant first (R114, spec/20_memory R56 (b)). -/
def splitWords (p : Acc) : List RsWord := [p.extractLsb' 20 10, p.extractLsb' 10 10, p.extractLsb' 0 10]

/-- The polymod that create_checksum takes: customization, data, three placeholder words (R114). -/
def checksumPolymod (p : Params) (data : List RsWord) : Acc :=
  polymod p.gen (p.cust.toList ++ data ++ [0, 0, 0])

/-- create_checksum (R114). -/
def createChecksum (p : Params) (data : List RsWord) : List RsWord := splitWords (checksumPolymod p data ^^^ 1)

/-- The polymod that verify_checksum compares with 1 (R116). -/
def verifyPolymod (p : Params) (data : List RsWord) : Acc := polymod p.gen (p.cust.toList ++ data)

/-- verify_checksum (R116). -/
def verifyChecksum (p : Params) (data : List RsWord) : Bool := verifyPolymod p data == 1

/-- RSPOLY (R113): CHK <- polymod(WBUF[0..WLEN-1]). -/
def execRspoly (s : State) : Result :=
  command [(decide (s.cfg.wmax < s.wlen.toNat), .bufferRange)]
    (fun s => .ok { s with chk := polymod s.cfg.gen s.words }) s

/-- RSCREATE (R115): the three checksum words go behind the data, WLEN <- WLEN + 3, CHK <- the raw polymod. -/
def execRscreate (s : State) : Result :=
  command [(decide (s.cfg.wmax < s.wlen.toNat + 3), .bufferRange)]
    (fun s => .ok { s with
      wbuf := writeWords s.wbuf s.wlen.toNat (createChecksum s.cfg s.words)
      chk := checksumPolymod s.cfg s.words
      wlen := s.wlen + 3 }) s

/-- RSVERIFY (R117): CHK <- polymod(CUST ++ WBUF[0..WLEN-1]), STATUS.RES <- whether it is 1. -/
def execRsverify (s : State) : Result :=
  command [(decide (s.cfg.wmax < s.wlen.toNat), .bufferRange)]
    (fun s => .ok { s with
      chk := verifyPolymod s.cfg s.words
      status := verifiedStatus (verifyChecksum s.cfg s.words) s }) s

end Sys2Proof.Machine
end

