-- ==== Sys2Proof/Machine/Hash.lean ====
section
/-! DEFINITION. The hash configuration of a block (spec/45_hash_primitives R190) and its reference instance: SHA-256 (R191),
HMAC-SHA256 (R192), PBKDF2-HMAC-SHA256 (R193). UNVERIFIED (log 11): the spec supplies all three from general knowledge (93 G3). -/

namespace Sys2Proof.Machine

/-- The constants K[0..63] of R191. -/
def shaK : List Word :=
  [0x428a2f98, 0x71374491, 0xb5c0fbcf, 0xe9b5dba5, 0x3956c25b, 0x59f111f1, 0x923f82a4, 0xab1c5ed5] ++
  [0xd807aa98, 0x12835b01, 0x243185be, 0x550c7dc3, 0x72be5d74, 0x80deb1fe, 0x9bdc06a7, 0xc19bf174] ++
  [0xe49b69c1, 0xefbe4786, 0x0fc19dc6, 0x240ca1cc, 0x2de92c6f, 0x4a7484aa, 0x5cb0a9dc, 0x76f988da] ++
  [0x983e5152, 0xa831c66d, 0xb00327c8, 0xbf597fc7, 0xc6e00bf3, 0xd5a79147, 0x06ca6351, 0x14292967] ++
  [0x27b70a85, 0x2e1b2138, 0x4d2c6dfc, 0x53380d13, 0x650a7354, 0x766a0abb, 0x81c2c92e, 0x92722c85] ++
  [0xa2bfe8a1, 0xa81a664b, 0xc24b8b70, 0xc76c51a3, 0xd192e819, 0xd6990624, 0xf40e3585, 0x106aa070] ++
  [0x19a4c116, 0x1e376c08, 0x2748774c, 0x34b0bcb5, 0x391c0cb3, 0x4ed8aa4a, 0x5b9cca4f, 0x682e6ff3] ++
  [0x748f82ee, 0x78a5636f, 0x84c87814, 0x8cc70208, 0x90befffa, 0xa4506ceb, 0xbef9a3f7, 0xc67178f2]

/-- Eight 32-bit words: the hash value H[0..7], or the working variables a..h (R191). -/
structure ShaWords where
  a : Word
  b : Word
  c : Word
  d : Word
  e : Word
  f : Word
  g : Word
  h : Word
  deriving DecidableEq, Repr

/-- The initial hash value H[0..7] (R191). -/
def shaInit : ShaWords :=
  { a := 0x6a09e667, b := 0xbb67ae85, c := 0x3c6ef372, d := 0xa54ff53a,
    e := 0x510e527f, f := 0x9b05688c, g := 0x1f83d9ab, h := 0x5be0cd19 }

/-- s0 of the message schedule (R191). -/
def shaSmall0 (x : Word) : Word := x.rotateRight 7 ^^^ x.rotateRight 18 ^^^ (x >>> 3)

/-- s1 of the message schedule (R191). -/
def shaSmall1 (x : Word) : Word := x.rotateRight 17 ^^^ x.rotateRight 19 ^^^ (x >>> 10)

/-- S0 (R191). -/
def shaBig0 (x : Word) : Word := x.rotateRight 2 ^^^ x.rotateRight 13 ^^^ x.rotateRight 22

/-- S1 (R191). -/
def shaBig1 (x : Word) : Word := x.rotateRight 6 ^^^ x.rotateRight 11 ^^^ x.rotateRight 25

/-- Ch (R191). -/
def shaCh (x y z : Word) : Word := (x &&& y) ^^^ (~~~x &&& z)

/-- Maj (R191). -/
def shaMaj (x y z : Word) : Word := (x &&& y) ^^^ (x &&& z) ^^^ (y &&& z)

/-- A 32-bit word as 4 big-endian bytes (R191). -/
def be32 (w : Word) : List Byte :=
  [w.extractLsb' 24 8, w.extractLsb' 16 8, w.extractLsb' 8 8, w.extractLsb' 0 8]

/-- The `t`-th big-endian 32-bit word of a block (R191). -/
def blockWord (block : List Byte) (t : Nat) : Word :=
  block.getD (4 * t) 0 ++ block.getD (4 * t + 1) 0 ++ block.getD (4 * t + 2) 0 ++ block.getD (4 * t + 3) 0

/-- The next `n` words of the message schedule, `win` being the last sixteen, W[t-16] first:
W[t] = s1(W[t-2]) + W[t-7] + s0(W[t-15]) + W[t-16] (R191). -/
def shaExtend : Nat → List Word → List Word
  | 0, _ => []
  | n + 1, win =>
    let w := shaSmall1 (win.getD 14 0) + win.getD 9 0 + shaSmall0 (win.getD 1 0) + win.getD 0 0
    w :: shaExtend n (win.drop 1 ++ [w])

/-- The message schedule W[0..63] of a block (R191). -/
def shaSchedule (block : List Byte) : List Word :=
  let first := (List.range 16).map (blockWord block)
  first ++ shaExtend 48 first

/-- One round on the working variables, with kw = (K[t], W[t]) (R191). -/
def shaRound (v : ShaWords) (kw : Word × Word) : ShaWords :=
  let t1 := v.h + shaBig1 v.e + shaCh v.e v.f v.g + kw.1 + kw.2
  let t2 := shaBig0 v.a + shaMaj v.a v.b v.c
  { a := t1 + t2, b := v.a, c := v.b, d := v.c, e := v.d + t1, f := v.e, g := v.f, h := v.g }

/-- One block: 64 rounds, then the addition to the hash value (R191). -/
def shaCompress (v : ShaWords) (block : List Byte) : ShaWords :=
  let r := (shaK.zip (shaSchedule block)).foldl shaRound v
  { a := v.a + r.a, b := v.b + r.b, c := v.c + r.c, d := v.d + r.d,
    e := v.e + r.e, f := v.f + r.f, g := v.g + r.g, h := v.h + r.h }

/-- The padded message M' (R191): 0x80, the least number of zero bytes, the bit length as 8 big-endian bytes.
DESIGN CHOICE (log 23): for a message of 2^61 bytes or more, which R191 leaves out, the bit length is taken modulo 2^64. -/
def shaPad (m : List Byte) : List Byte :=
  let bits : BitVec 64 := BitVec.ofNat 64 (8 * m.length)
  m ++ [0x80] ++ List.replicate ((119 - m.length % 64) % 64) 0 ++
    be32 (bits.extractLsb' 32 32) ++ be32 (bits.extractLsb' 0 32)

/-- The first `n` 64-byte blocks of a byte string. -/
def shaBlocks : Nat → List Byte → List (List Byte)
  | 0, _ => []
  | n + 1, m => m.take 64 :: shaBlocks n (m.drop 64)

/-- H[0] ++ .. ++ H[7], each as 4 big-endian bytes (R191). -/
def ShaWords.bytes (v : ShaWords) : Vector Byte 32 :=
  ⟨(be32 v.a ++ be32 v.b ++ be32 v.c ++ be32 v.d ++ be32 v.e ++ be32 v.f ++ be32 v.g ++ be32 v.h).toArray, rfl⟩

/-- SHA256(M) (R191). -/
def sha256 (m : List Byte) : Vector Byte 32 :=
  let padded := shaPad m
  ((shaBlocks (padded.length / 64) padded).foldl shaCompress shaInit).bytes

/-- K0 of HMAC: the key, hashed when longer than 64 bytes, padded with zero bytes to 64 (R192). -/
def hmacKey (key : List Byte) : List Byte :=
  let k := if 64 < key.length then (sha256 key).toList else key
  k ++ List.replicate (64 - k.length) 0

/-- HMAC_SHA256(key, msg) (R192). -/
def hmacSha256 (key msg : List Byte) : Vector Byte 32 :=
  let k0 := hmacKey key
  let ipad := k0.map (fun b => b ^^^ 0x36)
  let opad := k0.map (fun b => b ^^^ 0x5C)
  sha256 (opad ++ (sha256 (ipad ++ msg)).toList)

/-- The remaining `n` iterations of a block of PBKDF2, from U_k = `u` and the XOR so far `t` (R193). -/
def pbkdf2Loop (password : List Byte) : Nat → Vector Byte 32 → Vector Byte 32 → Vector Byte 32
  | 0, _, t => t
  | n + 1, u, t =>
    let next := hmacSha256 password u.toList
    pbkdf2Loop password n next (Vector.zipWith (fun a b => a ^^^ b) t next)

/-- T_i = U_1 XOR .. XOR U_c, U_1 = HMAC_SHA256(P, S ++ INT(i)) (R193). DESIGN CHOICE (log 23): an i of 2^32 or more, for
which R193's four bytes of INT(i) do not suffice, is taken modulo 2^32. -/
def pbkdf2Block (password salt : List Byte) (c i : Nat) : Vector Byte 32 :=
  let u1 := hmacSha256 password (salt ++ be32 (BitVec.ofNat 32 i))
  pbkdf2Loop password (c - 1) u1 u1

/-- T_i ++ .. ++ T_(i+n-1) (R193). -/
def pbkdf2Stream (password salt : List Byte) (c : Nat) : (n i : Nat) → Vector Byte (n * 32)
  | 0, _ => (#v[] : Vector Byte 0).cast (by simp)
  | n + 1, i =>
    (pbkdf2Block password salt c i ++ pbkdf2Stream password salt c n (i + 1)).cast (by omega)

/-- PBKDF2_HMAC_SHA256(P, S, c, dkLen) = (T_1 ++ .. ++ T_n)[0:dkLen], n = ceil(dkLen / 32) (R193). -/
def pbkdf2HmacSha256 (password salt : List Byte) (c dkLen : Nat) : Vector Byte dkLen :=
  ((pbkdf2Stream password salt c ((dkLen + 31) / 32) 1).take dkLen).cast (by omega)

/-- The reference instance of the hash configuration (R190). -/
def referenceHash : HashConfig := { hmac := hmacSha256, pbkdf2 := pbkdf2HmacSha256 }

/-- The hash pair a choice stands for (R190, log 11). -/
def hashPair : HashChoice → HashConfig
  | .reference => referenceHash
  | .other n => otherHash n

/-- The hash pair of the block, a parameter of its step (R20, R190). -/
def State.hash (s : State) : HashConfig := hashPair s.cfg.hash

end Sys2Proof.Machine
end

