-- ==== Sys2Proof/Machine/Cipher.lean ====
section
/-! DEFINITION. Unit U3, the Feistel cipher (spec/42_feistel): FENC, FDEC. -/

namespace Sys2Proof.Machine

/-- iters(E) = (10000 << E) / 4, an exact integer (R132). -/
def iters (e : Nat) : Nat := (10000 <<< e) / 4

/-- "shamir" as six bytes (R134). -/
def shamirBytes : List Byte := [0x73, 0x68, 0x61, 0x6D, 0x69, 0x72]

/-- UNVERIFIED (log 12). idbytes(ID): two bytes, most significant first, the top bit 0 (R134, spec/20_memory R56 (c)). -/
def idBytes (ident : BitVec 15) : List Byte := [(ident >>> 8).setWidth 8, ident.setWidth 8]

/-- F(i, R) (R134): the round function of index i on a half R, for a hash instance, a passphrase, an exponent and an
identifier. DESIGN CHOICE (log 24): an index above 3, which R134 leaves out, enters as its low 8 bits. -/
def roundFunction (hash : HashConfig) (pass : List Byte) (e : BitVec 5) (ident : BitVec 15)
    (i : Nat) (r : List Byte) : List Byte :=
  (hash.pbkdf2 (BitVec.ofNat 8 i :: pass) (shamirBytes ++ idBytes ident ++ r) (iters e.toNat) r.length).toList

/-- round_i(IL, IR) = (IR, IL XOR F(i, IR)) (R133). F's answer has the length of IL in every
command; other lengths are the model's choice (`xorBytes`, log 24). -/
def feistelRound (f : Nat → List Byte → List Byte) (halves : List Byte × List Byte) (i : Nat) :
    List Byte × List Byte :=
  (halves.2, xorBytes halves.1 (f i halves.2))

/-- The rounds of the indices `order` on the halves of S, and the output IR ++ IL (R131, R135).
DESIGN CHOICE (log 24): for an S of odd length, which R130 leaves out, the first half is the shorter one. -/
def feistel (f : Nat → List Byte → List Byte) (order : List Nat) (secret : List Byte) : List Byte :=
  let h := secret.length / 2
  let last := order.foldl (feistelRound f) (secret.take h, secret.drop h)
  last.2 ++ last.1

/-- encrypt, for any round function: rounds 0, 1, 2, 3 (R135). -/
def feistelEncrypt (f : Nat → List Byte → List Byte) (secret : List Byte) : List Byte := feistel f [0, 1, 2, 3] secret

/-- decrypt, for any round function: rounds 3, 2, 1, 0 (R135). -/
def feistelDecrypt (f : Nat → List Byte → List Byte) (secret : List Byte) : List Byte := feistel f [3, 2, 1, 0] secret

/-- The round function of the block's operands P = PASS[0..PLEN-1], E = ITEXP, ID = IDENT (R130), for a hash pair. -/
def State.roundFunction (hash : HashConfig) (s : State) : Nat → List Byte → List Byte :=
  Machine.roundFunction hash s.passphrase s.itexp s.ident

/-- FENC under a hash pair (R137, R190): SECRET[0..L-1] <- encrypt(..). -/
def fencWith (hash : HashConfig) (s : State) : Result :=
  command (cipherChecks s) (fun s => .ok (s.setSecret (feistelEncrypt (s.roundFunction hash) s.secret))) s

/-- FDEC under a hash pair (R138, R190): SECRET[0..L-1] <- decrypt(..). A wrong passphrase, exponent or identifier is no
error (R139 (b)). -/
def fdecWith (hash : HashConfig) (s : State) : Result :=
  command (cipherChecks s) (fun s => .ok (s.setSecret (feistelDecrypt (s.roundFunction hash) s.secret))) s

/-- FENC (R137), under the block's hash pair. -/
def execFenc (s : State) : Result := fencWith s.hash s

/-- FDEC (R138), under the block's hash pair. -/
def execFdec (s : State) : Result := fdecWith s.hash s

end Sys2Proof.Machine
end

