-- ==== Sys2Proof/Machine/GaloisField.lean ====
section
/-! DEFINITION. Unit U1, the GF(256) multiplier and divider via EXP/LOG tables (spec/40_gf256): GFMUL, GFDIV, GFTEST. -/

namespace Sys2Proof.Machine

/-- multiply(a, b) (R92). -/
def gfMul (a b : Byte) : Byte :=
  if a = 0 ∨ b = 0 then 0 else expAt ((logAt a + logAt b) % 255)

/-- An integer, possibly negative, reduced to 0..254 by the normalised modulus (R96). -/
def mod255 (v : Int) : Nat := (v % 255).toNat

/-- divide(a, b), for b ≠ 0 (R94). It has no value for b = 0, where no rule calls it (log 21). -/
def gfDiv (a b : Byte) : Byte :=
  if a = 0 then 0 else expAt (mod255 ((logAt a : Int) - (logAt b : Int)))

/-- v times the generator x+1, reduced modulo x^8+x^4+x^3+x+1 (R21, R98): t = (v << 1) XOR v, a 9-bit value. -/
def timesGenerator (v : Byte) : Byte :=
  let t : BitVec 9 := (v.setWidth 9 <<< 1) ^^^ v.setWidth 9
  if t.getLsbD 8 then (t ^^^ 0x11B).setWidth 8 else t.setWidth 8

/-- One turn of GFTEST's loop (R98): (ok, v) and index i. -/
def selfTestStep (acc : Bool × Byte) (i : Nat) : Bool × Byte :=
  (acc.1 && expAt i == acc.2 && logAt acc.2 == i, timesGenerator acc.2)

/-- GFTEST's verdict on the tables (R98). -/
def tablesOk : Bool :=
  let last := (List.range 255).foldl selfTestStep (true, 0x01)
  last.1 && last.2 == 0x01

/-- GFMUL (R93): GFR <- multiply(GFA, GFB). -/
def execGfmul (s : State) : Result :=
  command [] (fun s => .ok { s with gfr := gfMul s.gfa s.gfb }) s

/-- GFDIV (R95): DivideByZero when GFB = 0, else GFR <- divide(GFA, GFB). -/
def execGfdiv (s : State) : Result :=
  command [(s.gfb == 0, .divideByZero)] (fun s => .ok { s with gfr := gfDiv s.gfa s.gfb }) s

/-- GFTEST (R98): STATUS.TOK <- whether the tables are good. -/
def execGftest (s : State) : Result :=
  command [] (fun s => .ok { s with status := testedStatus tablesOk s }) s

end Sys2Proof.Machine
end

