-- ==== Sys2Proof/Machine/Interpolation.lean ====
section
/-! DEFINITION. `interpolate`, shared by units U4 and U5 (spec/43_shamir_split R150 to R153): the log-domain algorithm,
which is normative for the intermediate arithmetic. -/

namespace Sys2Proof.Machine

/-- logProd: the sum over all points of LOG[x_i ⊕ x], an integer, not reduced (R152 line 2). -/
def logProd (points : List Point) (x : Byte) : Nat := (points.map (fun p => logAt (p.x ^^^ x))).sum

/-- sum_i: the sum over the other points of LOG[x_i ⊕ x_j], an integer, not reduced (R152 line 3). The x-coordinates of a
point set are distinct (R150), so the other points are those with another x-coordinate (log 17). -/
def logSum (points : List Point) (xi : Byte) : Nat :=
  ((points.filter (fun p => p.x != xi)).map (fun p => logAt (xi ^^^ p.x))).sum

/-- e_i = (logProd - LOG[x_i ⊕ x] - sum_i) mod 255, normalised (R152 line 4, R96). -/
def basisLog (points : List Point) (x xi : Byte) : Nat :=
  mod255 ((logProd points x : Int) - (logAt (xi ^^^ x) : Int) - (logSum points xi : Int))

/-- What one value byte contributes: EXP[(LOG[y] + e) mod 255], nothing when y = 0 (R152 line 5). -/
def logTerm (y : Byte) (e : Nat) : Byte := if y = 0 then 0 else expAt ((logAt y + e) % 255)

/-- Byte b of the result at an x that is no given x-coordinate (R152 lines 2 to 5). -/
def interpolateByte (points : List Point) (x : Byte) (b : Nat) : Byte :=
  points.foldl (fun r p => r ^^^ logTerm (p.y.getD b 0) (basisLog points x p.x)) 0

/-- interpolate(points, x), for values of `len` bytes (R152); line 1 first: a given point's value stands. On a
list that is no point set (R150) its value is the model's choice (log 16). -/
def interpolate (len : Nat) (points : List Point) (x : Byte) : List Byte :=
  match points.find? (fun p => p.x == x) with
  | some p => p.y
  | none => (List.range len).map (interpolateByte points x)

end Sys2Proof.Machine
end

