-- ==== Sys2Proof/Machine/Splitter.lean ====
section
/-! DEFINITION. Unit U4, the Shamir secret splitter (spec/43_shamir_split): `digest`, `split_secret`, SPLIT. -/

namespace Sys2Proof.Machine

/-- digest(pad, secret): the first 4 bytes of HMAC_SHA256(key = pad, message = secret) (R155).
A pad that is not 4 bytes shorter than the secret is outside R155 (log 16). -/
def digest (hash : HashConfig) (pad secret : List Byte) : List Byte := (hash.hmac pad secret).toList.take 4

/-- digest_share(pad, secret) = digest(pad, secret) ++ pad (R155). -/
def digestShare (hash : HashConfig) (pad secret : List Byte) : List Byte := digest hash pad secret ++ pad

/-- The x-coordinate of the digest share (spec/00_scope R6, R157). -/
def digestX : Byte := 254

/-- The x-coordinate of the secret (R6, R157). -/
def secretX : Byte := 255

/-- The base points of a split with T ≥ 2: (i, R_i) for i = 0..T-3, the digest share at 254, the secret at 255 (R157). -/
def basePoints (hash : HashConfig) (t : Nat) (secret : List Byte) (rs : List (List Byte)) (pad : List Byte) :
    List Point :=
  (List.range (t - 2)).map (fun i => { x := BitVec.ofNat 8 i, y := rs.getD i [] }) ++
  [{ x := digestX, y := digestShare hash pad secret }, { x := secretX, y := secret }]

/-- The value of share i (R157): the secret itself when T = 1, R_i for i = 0..T-3, else an evaluation at x = i. -/
def shareValue (hash : HashConfig) (t : Nat) (secret : List Byte) (rs : List (List Byte)) (pad : List Byte) (i : Nat) :
    List Byte :=
  if t = 1 then secret
  else if i + 2 < t then rs.getD i []
  else interpolate secret.length (basePoints hash t secret rs pad) (BitVec.ofNat 8 i)

/-- split_secret(T, N, secret; R_0..R_(T-3), Pd): N points with x-coordinates 0..N-1 (R157).
Its value where R157's precondition fails is the model's choice (log 16). -/
def splitSecret (hash : HashConfig) (t n : Nat) (secret : List Byte) (rs : List (List Byte)) (pad : List Byte) :
    List Point :=
  (List.range n).map (fun i => { x := BitVec.ofNat 8 i, y := shareValue hash t secret rs pad i })

/-- The draws of a split (R156): for T ≥ 2, R_0..R_(T-3) of L bytes each, then Pd of L - 4 bytes; for T = 1, none. -/
def splitDraws (t l : Nat) (r : RandomSource) : (List (List Byte) × List Byte) × RandomSource :=
  if t < 2 then (([], []), r)
  else
    let rs := drawMany (t - 2) l r
    let pd := draw (l - 4) rs.2
    ((rs.1, pd.1), pd.2)

/-- Put points into the share table from entry i up (R158 line 6). -/
def State.setShares (i : Nat) : List Point → State → State
  | [], s => s
  | p :: ps, s => State.setShares (i + 1) ps (s.setShare i p.x p.y)

/-- SPLIT under a hash pair (R158, R190): N shares of SECRET[0..L-1] with threshold T go to the share table; SCNT <- CNT. -/
def splitWith (hash : HashConfig) (s : State) : Result :=
  command (splitChecks s) (fun s =>
    let draws := splitDraws s.thr.toNat s.len.toNat s.random
    let shares := splitSecret hash s.thr.toNat s.cnt.toNat s.secret draws.1.1 draws.1.2
    .ok { (s.setShares 0 shares) with scnt := s.cnt, random := draws.2 }) s

/-- SPLIT (R158), under the block's hash pair. -/
def execSplit (s : State) : Result := splitWith s.hash s

end Sys2Proof.Machine
end

