-- ==== Sys2Proof/Machine/Recoverer.lean ====
section
/-! DEFINITION. Unit U5, the Shamir secret recoverer (spec/44_shamir_recover): `recover_secret`, RECOVER, INTERP. -/

namespace Sys2Proof.Machine

/-- recover_secret(T, shares), for values of `len` bytes (R172, R174; log 16 where there are not T points): the single share verbatim when T = 1; else the
interpolated secret, if the interpolated digest share's first 4 bytes are the digest of the rest and the secret. -/
def recoverSecret (hash : HashConfig) (len t : Nat) (shares : List Point) : Except CmdError (List Byte) :=
  if t = 1 then .ok ((shares.map (fun p => p.y)).headD [])
  else
    let secret := interpolate len shares secretX
    let dshare := interpolate len shares digestX
    if digest hash (dshare.drop 4) secret = dshare.take 4 then .ok secret else .error .invalidDigest

/-- RECOVER under a hash pair (R173, R190): SECRET[0..L-1] <- the secret recovered from the share table; InvalidDigest
leaves SECRET alone. -/
def recoverWith (hash : HashConfig) (s : State) : Result :=
  command (recoverChecks s) (fun s =>
    (recoverSecret hash s.len.toNat s.thr.toNat s.points).map (fun secret => s.setSecret secret)) s

/-- RECOVER (R173), under the block's hash pair. -/
def execRecover (s : State) : Result := recoverWith s.hash s

/-- INTERP (R175): SECRET[0..L-1] <- the polynomial of the share table's points at XSEL. -/
def execInterp (s : State) : Result :=
  command (interpChecks s) (fun s => .ok (s.setSecret (interpolate s.len.toNat s.points s.xsel))) s

end Sys2Proof.Machine
end

