-- ==== Sys2Proof/Machine/Dispatch.lean ====
section
/-! DEFINITION. The dispatch: one arm per command (spec/30_encoding R72). -/

namespace Sys2Proof.Machine

def exec (i : Instr) (s : State) : Host.Outcome State Fault Refusal :=
  match i with
  -- U1, GF(256)
  | .gfmul => Sys2Proof.Machine.execGfmul s
  | .gfdiv => Sys2Proof.Machine.execGfdiv s
  | .gftest => Sys2Proof.Machine.execGftest s
  -- U2, RS1024
  | .rspoly => Sys2Proof.Machine.execRspoly s
  | .rscreate => Sys2Proof.Machine.execRscreate s
  | .rsverify => Sys2Proof.Machine.execRsverify s
  -- U3, Feistel
  | .fenc => Sys2Proof.Machine.execFenc s
  | .fdec => Sys2Proof.Machine.execFdec s
  -- U4, U5, Shamir
  | .split => Sys2Proof.Machine.execSplit s
  | .recover => Sys2Proof.Machine.execRecover s
  | .interp => Sys2Proof.Machine.execInterp s

end Sys2Proof.Machine
end

