-- ==== Sys2Proof/Machine/Window.lean ====
section
/-! DEFINITION. The host window (spec/20_memory): the map R51, which accesses are legal (R52, R53), and what reading and
writing an element does (R25, R36, R52). -/

namespace Sys2Proof.Machine

/-- The elements of the window (R51). -/
inductive Element where
  | cmd
  | status
  | gfa
  | gfb
  | gfr
  | len
  | thr
  | cnt
  | scnt
  | xsel
  | ident
  | itexp
  | plen
  | wlen
  | chk
  | shx (i : Nat)
  | secret (k : Nat)
  | pass (k : Nat)
  | wbuf (k : Nat)
  | shv (i k : Nat)
  deriving DecidableEq, Repr

/-- The offset of an element, column "Offset" of R51. -/
def Element.offset : Element → Nat
  | .cmd => 0x0000
  | .status => 0x0004
  | .gfa => 0x0008
  | .gfb => 0x000C
  | .gfr => 0x0010
  | .len => 0x0014
  | .thr => 0x0018
  | .cnt => 0x001C
  | .scnt => 0x0020
  | .xsel => 0x0024
  | .ident => 0x0028
  | .itexp => 0x002C
  | .plen => 0x0030
  | .wlen => 0x0034
  | .chk => 0x0038
  | .shx i => 0x0040 + 4 * i
  | .secret k => secretBase + k
  | .pass k => passBase + k
  | .wbuf k => 0x0400 + 2 * k
  | .shv i k => shvBase i + k

/-- The one access width an element takes, column "Unit" of R51 (R52). -/
def Element.width : Element → Width
  | .secret _ => .byte
  | .pass _ => .byte
  | .shv _ _ => .byte
  | .wbuf _ => .half
  | _ => .word

/-- The register at a word offset (R51). -/
def registerAt : Nat → Option Element
  | 0x0000 => some .cmd
  | 0x0004 => some .status
  | 0x0008 => some .gfa
  | 0x000C => some .gfb
  | 0x0010 => some .gfr
  | 0x0014 => some .len
  | 0x0018 => some .thr
  | 0x001C => some .cnt
  | 0x0020 => some .scnt
  | 0x0024 => some .xsel
  | 0x0028 => some .ident
  | 0x002C => some .itexp
  | 0x0030 => some .plen
  | 0x0034 => some .wlen
  | 0x0038 => some .chk
  | a => if 0x0040 ≤ a ∧ a < 0x0080 ∧ a % 4 = 0 then some (.shx ((a - 0x0040) / 4)) else none

/-- The buffer byte at an offset, within the capacities of `p` (R51). -/
def byteAt (p : Params) (a : Nat) : Option Element :=
  if secretBase ≤ a ∧ a < secretBase + p.lmax then some (.secret (a - secretBase))
  else if passBase ≤ a ∧ a < passBase + p.pmax then some (.pass (a - passBase))
  else if 0x1000 ≤ a ∧ a < 0x2000 ∧ a % 0x100 < p.lmax then some (.shv (a / 0x100 - 0x10) (a % 0x100))
  else none

/-- The WBUF word at an offset, within the capacity of `p` (R51). -/
def halfAt (p : Params) (a : Nat) : Option Element :=
  if 0x0400 ≤ a ∧ a < 0x0400 + 2 * p.wmax ∧ a % 2 = 0 then some (.wbuf ((a - 0x0400) / 2)) else none

/-- The element an access reaches whole, none when the access is a bus error (R52, R53). -/
def elementAt (p : Params) (a : Nat) : Width → Option Element
  | .word => registerAt a
  | .half => halfAt p a
  | .byte => byteAt p a

/-- MemRead of an element: its value, zero-extended (R25, R52, log 20); CMD reads 0 (R33). -/
def readElement (s : State) : Element → Word
  | .cmd => 0
  | .status => s.status.setWidth 32
  | .gfa => s.gfa.setWidth 32
  | .gfb => s.gfb.setWidth 32
  | .gfr => s.gfr.setWidth 32
  | .len => s.len.setWidth 32
  | .thr => s.thr.setWidth 32
  | .cnt => s.cnt.setWidth 32
  | .scnt => s.scnt.setWidth 32
  | .xsel => s.xsel.setWidth 32
  | .ident => s.ident.setWidth 32
  | .itexp => s.itexp.setWidth 32
  | .plen => s.plen.setWidth 32
  | .wlen => s.wlen.setWidth 32
  | .chk => s.chk.setWidth 32
  | .shx i => (s.shxAt i).setWidth 32
  | .secret k => (s.mem.read (secretBase + k)).setWidth 32
  | .pass k => (s.mem.read (passBase + k)).setWidth 32
  | .wbuf k => (s.wbuf.read k).setWidth 32
  | .shv i k => (s.mem.read (shvBase i + k)).setWidth 32

/-- MemWrite of an element other than CMD: the low bits are kept, the upper bits discarded (R25, R36, log 7); a write of a
read-only register is ignored (R25). A write of CMD runs a command (Machine/Bus.lean) and never comes here (log 16). -/
def writeElement (v : Word) (s : State) : Element → State
  | .cmd => s
  | .status => s
  | .gfa => { s with gfa := v.setWidth 8 }
  | .gfb => { s with gfb := v.setWidth 8 }
  | .gfr => s
  | .len => { s with len := v.setWidth 9 }
  | .thr => { s with thr := v.setWidth 5 }
  | .cnt => { s with cnt := v.setWidth 5 }
  | .scnt => { s with scnt := v.setWidth 5 }
  | .xsel => { s with xsel := v.setWidth 8 }
  | .ident => { s with ident := v.setWidth 15 }
  | .itexp => { s with itexp := v.setWidth 5 }
  | .plen => { s with plen := v.setWidth 9 }
  | .wlen => { s with wlen := v.setWidth 10 }
  | .chk => s
  | .shx i => { s with shx := s.shx.setIfInBounds i (v.setWidth 8) }
  | .secret k => { s with mem := s.mem.write (secretBase + k) (v.setWidth 8) }
  | .pass k => { s with mem := s.mem.write (passBase + k) (v.setWidth 8) }
  | .wbuf k => { s with wbuf := s.wbuf.write k (v.setWidth 10) }
  | .shv i k => { s with mem := s.mem.write (shvBase i + k) (v.setWidth 8) }

end Sys2Proof.Machine
end

