-- ==== Sys2Proof/Machine/Bus.lean ====
section
/-! DEFINITION. One host step (spec/20_memory R52 to R54, R57; spec/70_reset_and_hazards R220): a read, a write, a command,
a reset. -/

namespace Sys2Proof.Machine

/-- A write of the word `c` to CMD (spec/10_state R33, spec/60_exceptions R203): the command it encodes, whole, or
IllegalCommand (spec/30_encoding R74). `run` executes a command. -/
def runCommand (run : Instr → State → Result) (c : Word) (s : State) : Result :=
  match decode c with
  | .error _ => .next (s.takeError .illegalCommand)
  | .ok i => run i s

/-- A read returns its value to the host and changes nothing of the block (R54). -/
def State.returnToHost (v : Word) (s : State) : State :=
  { s with host := { s.host with returned := v :: s.host.returned } }

/-- What one step of the host does to the block. An access that reaches no element is a bus error, a refused host step
(R53, log 5). -/
def hostStep (run : Instr → State → Result) (h : HostStep) (s : State) : Result :=
  match h with
  | .reset => .next s.resetBlock
  | .read addr width =>
    match elementAt s.cfg addr width with
    | none => .refused .busError
    | some e => .next (s.returnToHost (readElement s e))
  | .write addr width v =>
    match elementAt s.cfg addr width with
    | none => .refused .busError
    | some .cmd => runCommand run v s
    | some e => .next (writeElement v s e)

/-- Take the host's oldest pending step; with none pending the block stands still: it acts only when the host does (R9,
R57, R229; log 2). -/
def runPending (run : Instr → State → Result) (s : State) : Result :=
  match s.host.pending with
  | [] => .next s
  | h :: rest => hostStep run h { s with host := { s.host with pending := rest } }

/-- `s` with a write of the word `c` to CMD as the host's next step (log 3). -/
def State.pendCommand (c : Word) (s : State) : State :=
  { s with host := { s.host with pending := .write Element.cmd.offset .word c :: s.host.pending } }

end Sys2Proof.Machine
end

