-- ==== Sys2Proof/Machine/Step.lean ====
section
/-! DEFINITION. One step of the machine: the host's next access and, when it is a write of CMD, the whole command
(spec/20_memory R57). -/

namespace Sys2Proof.Machine

/-- One step (R57, R229). -/
def step (s : State) : Host.Outcome State Fault Refusal := runPending exec s

/-- `s` with the command whose bits are `w`, numbered as the opcode table numbers them, as the host's next access: a write
of that word to CMD, before the accesses already pending (log 3). -/
def State.withFetchWord (s : State) (nbits w : Nat) : State := s.pendCommand (commandWord nbits w)

end Sys2Proof.Machine
end

