-- ==== Sys2Proof/Machine/AnyHash.lean ====
section
/-! DEFINITION. The hash configuration as a parameter of the step (spec/10_state R20, spec/45_hash_primitives R190): executing a
command, and one step, under any hash pair whatever the block's own. `exec` and `step` are these under `State.hash`. -/

namespace Sys2Proof.Machine

/-- Execute a command under a hash pair. Only FENC, FDEC, SPLIT and RECOVER call a hash. -/
def execWith (hash : HashConfig) (i : Instr) (s : State) : Result :=
  match i with
  | .gfmul => execGfmul s
  | .gfdiv => execGfdiv s
  | .gftest => execGftest s
  | .rspoly => execRspoly s
  | .rscreate => execRscreate s
  | .rsverify => execRsverify s
  | .fenc => fencWith hash s
  | .fdec => fdecWith hash s
  | .split => splitWith hash s
  | .recover => recoverWith hash s
  | .interp => execInterp s

/-- One step under a hash pair (R20). -/
def stepWith (hash : HashConfig) (s : State) : Result := runPending (execWith hash) s

end Sys2Proof.Machine
end

