-- ==== Sys2Proof/Machine/Script.lean ====
section
/-! DEFINITION. The host script statements and pseudo-operations of spec/30_encoding R76, each as the host accesses it
stands for. They add nothing to the block: they only write down what a host does. -/

namespace Sys2Proof.Machine

/-- `WR reg, v`, `WRB buf[k], v`, `WRH WBUF[k], v`: a write of an element at its own width (R76). -/
def scriptWrite (e : Element) (v : Word) : HostStep := .write e.offset e.width v

/-- `RD reg`, `RDB buf[k]`, `RDH WBUF[k]`: a read of an element at its own width (R76). -/
def scriptRead (e : Element) : HostStep := .read e.offset e.width

/-- `CMD mnemonic`: `WR CMD, word` with the command's word (R76). -/
def scriptCommand (i : Instr) : HostStep := scriptWrite .cmd (encode i)

/-- Byte k of `bytes` to the element `at k`, for every k. -/
def scriptWriteBytes (place : Nat → Element) (bytes : List Byte) : List HostStep :=
  bytes.zipIdx.map (fun b => scriptWrite (place b.2) (b.1.setWidth 32))

/-- `SETSECRET h` (R76). -/
def scriptSetSecret (h : List Byte) : List HostStep :=
  scriptWriteBytes .secret h ++ [scriptWrite .len (BitVec.ofNat 32 h.length)]

/-- `SETPASS s`, the code of each character of s (R76). -/
def scriptSetPass (codes : List Byte) : List HostStep :=
  scriptWriteBytes .pass codes ++ [scriptWrite .plen (BitVec.ofNat 32 codes.length)]

/-- `SETWORDS (w0, .., w(n-1))` (R76). -/
def scriptSetWords (ws : List RsWord) : List HostStep :=
  ws.zipIdx.map (fun w => scriptWrite (.wbuf w.2) (w.1.setWidth 32)) ++
  [scriptWrite .wlen (BitVec.ofNat 32 ws.length)]

/-- `SETSHARE i, x, h`; LEN is not written (R76). -/
def scriptSetShare (i : Nat) (x : Byte) (h : List Byte) : List HostStep :=
  scriptWrite (.shx i) (x.setWidth 32) :: scriptWriteBytes (.shv i) h

/-- `COPYSHARE i` at the state `s`: read SHV[i][k], write that value to SECRET[k], for k = 0..LEN-1 (R76). -/
def scriptCopyShare (i : Nat) (s : State) : List HostStep :=
  (List.range s.len.toNat).flatMap (fun k =>
    [scriptRead (.shv i k), scriptWrite (.secret k) (readElement s (.shv i k))])

/-- `GETSECRET` at the state `s`: read SECRET[k], k = 0..LEN-1 (R76). -/
def scriptGetSecret (s : State) : List HostStep :=
  (List.range s.len.toNat).map (fun k => scriptRead (.secret k))

/-- `GETSHARE i` at the state `s`: read SHX[i], then SHV[i][k], k = 0..LEN-1 (R76). -/
def scriptGetShare (i : Nat) (s : State) : List HostStep :=
  scriptRead (.shx i) :: (List.range s.len.toNat).map (fun k => scriptRead (.shv i k))

/-- `DRAWS h1, h2, ..`, the answers joined: no host access; it states what the random source answers next (R76, R40). -/
def State.withDraws (answers : List Byte) (s : State) : State :=
  { s with random := { s.random with answers := answers } }

/-- `s` with the accesses of a script as the host's pending steps, after those already pending. -/
def State.withScript (script : List HostStep) (s : State) : State :=
  { s with host := { s.host with pending := s.host.pending ++ script } }

end Sys2Proof.Machine
end

