-- ==== Sys2Proof/Safety.lean ====
section
/-! DEFINITION. The terms claims about the block are made in: what a good state and a good run are, when a command's operands
are legal, how a command can end, and the mathematics the tables and algorithms are measured against. -/

namespace Sys2Proof.Machine

/-! ### How a command ends (spec/00_scope R8) -/

/-- STATUS after a command that completed without writing RES or TOK (R34). -/
def ClearedFlags (s t : State) : Prop :=
  t.err = 0 ∧ t.res = false ∧ t.tok = s.tok ∧ t.sticky = s.sticky

/-- Nothing but STATUS differs. -/
def OnlyStatusDiffers (s t : State) : Prop := { t with status := s.status } = s

/-- Command `i` on `s` ends with error `e`, as error entry says (spec/60_exceptions R201): the code, STICKY set, RES clear,
TOK as before, and nothing else changed, the random source included. -/
def EndsInError (e : CmdError) (i : Instr) (s : State) : Prop :=
  ∃ t, exec i s = .next t ∧ t.err = e.code ∧ t.res = false ∧ t.sticky = true ∧ t.tok = s.tok ∧ OnlyStatusDiffers s t

/-- Command `i` on `s` completes, RES and TOK not written, in a state of which `P` holds. -/
def Completes (i : Instr) (s : State) (P : State → Prop) : Prop :=
  ∃ t, exec i s = .next t ∧ ClearedFlags s t ∧ P t

/-- No error has been recorded since reset: the no-fault premise R208 names. -/
def State.NoErrorRecorded (s : State) : Prop := s.sticky = false

/-- The errors a command can end with, column "Raised by" of R200. -/
def raisedBy : Instr → List CmdError
  | .gfmul => []
  | .gfdiv => [.divideByZero]
  | .gftest => []
  | .rspoly => [.bufferRange]
  | .rscreate => [.bufferRange]
  | .rsverify => [.bufferRange]
  | .fenc => [.invalidSecretLength, .invalidSecretParity, .invalidPassphraseCharset, .bufferRange]
  | .fdec => [.invalidSecretLength, .invalidSecretParity, .invalidPassphraseCharset, .bufferRange]
  | .split => [.invalidSecretLength, .invalidSecretParity, .invalidShareCount]
  | .recover => [.invalidSecretLength, .invalidSecretParity, .invalidShareCount, .inconsistentMnemonicSet,
      .invalidDigest, .invalidShareSet]
  | .interp => [.invalidSecretLength, .invalidSecretParity, .invalidShareCount, .invalidShareSet]

/-! ### When operands are legal -/

/-- LEN is legal for FENC, FDEC, SPLIT, RECOVER, INTERP (R204). -/
def LegalLength (s : State) : Prop :=
  16 ≤ s.len.toNat ∧ s.len.toNat ≤ s.cfg.lmax ∧ s.len.toNat % 2 = 0

/-- Every passphrase byte is printable ASCII (spec/42_feistel R136 check 4). -/
def LegalCharset (s : State) : Prop :=
  ∀ k < s.plen.toNat, 32 ≤ (s.mem.read (passBase + k)).toNat ∧ (s.mem.read (passBase + k)).toNat ≤ 126

/-- The operands of FENC and FDEC are legal (R136). -/
def LegalCipher (s : State) : Prop := LegalLength s ∧ s.plen.toNat ≤ s.cfg.pmax ∧ LegalCharset s

/-- 1 ≤ T ≤ N ≤ 16 (R205). -/
def LegalSplitCount (s : State) : Prop :=
  1 ≤ s.thr.toNat ∧ s.thr.toNat ≤ s.cnt.toNat ∧ s.cnt.toNat ≤ 16

/-- The operands of SPLIT are legal (spec/43_shamir_split R158). -/
def LegalSplit (s : State) : Prop := LegalSplitCount s ∧ LegalLength s

/-- SHX[0..SCNT-1] are pairwise distinct (spec/44_shamir_recover R170). -/
def DistinctXs (s : State) : Prop := ∀ j < s.scnt.toNat, ∀ i < j, s.shxAt i ≠ s.shxAt j

/-- SHX[0..SCNT-1] are share x-coordinates, 0 to 15 (R173 check 5). -/
def ShareXs (s : State) : Prop := ∀ i < s.scnt.toNat, (s.shxAt i).toNat ≤ 15

/-- The operands of RECOVER are legal (R173 checks 1 to 5). -/
def LegalRecover (s : State) : Prop :=
  (1 ≤ s.thr.toNat ∧ s.thr.toNat ≤ 16) ∧ LegalLength s ∧ s.scnt = s.thr ∧ ShareXs s ∧ DistinctXs s

/-- The operands of INTERP are legal (R175). -/
def LegalInterp (s : State) : Prop :=
  (1 ≤ s.scnt.toNat ∧ s.scnt.toNat ≤ 16) ∧ LegalLength s ∧ DistinctXs s

/-! ### What a command reads and writes (spec/10_state R39) -/

/-- Every byte outside SECRET[0..L-1] reads as before; nothing but STATUS and SECRET differs. -/
def WritesSecretOnly (s t : State) : Prop :=
  { t with status := s.status, mem := s.mem } = s ∧
  ∀ a, ¬(secretBase ≤ a ∧ a < secretBase + s.len.toNat) → t.mem.read a = s.mem.read a

/-- Nothing but STATUS and the elements SPLIT writes differs: SHX[0..N-1], SHV[0..N-1][0..L-1], SCNT, the draws. -/
def WritesShareTableOnly (s t : State) : Prop :=
  { t with status := s.status, shx := s.shx, mem := s.mem, scnt := s.scnt, random := s.random } = s ∧
  (∀ i, s.cnt.toNat ≤ i → t.shxAt i = s.shxAt i) ∧
  ∀ a, (∀ i < s.cnt.toNat, ¬(shvBase i ≤ a ∧ a < shvBase i + s.len.toNat)) → t.mem.read a = s.mem.read a

/-- Nothing but STATUS, WBUF[WLEN..WLEN+2], WLEN and CHK differs. -/
def WritesChecksumOnly (s t : State) : Prop :=
  { t with status := s.status, wbuf := s.wbuf, wlen := s.wlen, chk := s.chk } = s ∧
  ∀ k, ¬(s.wlen.toNat ≤ k ∧ k < s.wlen.toNat + 3) → t.wbuf.read k = s.wbuf.read k

/-- From `s` to `t` nothing outside the "writes" column of the command's row of R39 changed, STATUS apart. -/
def WritesOnly : Instr → State → State → Prop
  | .gfmul, s, t => { t with status := s.status, gfr := s.gfr } = s
  | .gfdiv, s, t => { t with status := s.status, gfr := s.gfr } = s
  | .gftest, s, t => OnlyStatusDiffers s t
  | .rspoly, s, t => { t with status := s.status, chk := s.chk } = s
  | .rscreate, s, t => WritesChecksumOnly s t
  | .rsverify, s, t => { t with status := s.status, chk := s.chk } = s
  | .fenc, s, t => WritesSecretOnly s t
  | .fdec, s, t => WritesSecretOnly s t
  | .split, s, t => WritesShareTableOnly s t
  | .recover, s, t => WritesSecretOnly s t
  | .interp, s, t => WritesSecretOnly s t

/-- `s` and `u` agree on the "reads" column of the command's row of R39, on the capacities its checks compare with
(R204, spec/41_rs1024, spec/42_feistel R136), and on the hash configuration where it calls a hash (R190). -/
def SameReads : Instr → State → State → Prop
  | .gfmul, s, u => s.gfa = u.gfa ∧ s.gfb = u.gfb
  | .gfdiv, s, u => s.gfa = u.gfa ∧ s.gfb = u.gfb
  | .gftest, _, _ => True
  | .rspoly, s, u => s.cfg.wmax = u.cfg.wmax ∧ s.cfg.gen = u.cfg.gen ∧ s.wlen = u.wlen ∧ s.words = u.words
  | .rscreate, s, u => s.cfg.wmax = u.cfg.wmax ∧ s.cfg.gen = u.cfg.gen ∧ s.cfg.cust = u.cfg.cust ∧ s.wlen = u.wlen ∧
      s.words = u.words
  | .rsverify, s, u => s.cfg.wmax = u.cfg.wmax ∧ s.cfg.gen = u.cfg.gen ∧ s.cfg.cust = u.cfg.cust ∧ s.wlen = u.wlen ∧
      s.words = u.words
  | .fenc, s, u => s.cfg.lmax = u.cfg.lmax ∧ s.cfg.pmax = u.cfg.pmax ∧ s.cfg.hash = u.cfg.hash ∧ s.len = u.len ∧
      s.plen = u.plen ∧ s.passphrase = u.passphrase ∧ s.itexp = u.itexp ∧ s.ident = u.ident ∧ s.secret = u.secret
  | .fdec, s, u => s.cfg.lmax = u.cfg.lmax ∧ s.cfg.pmax = u.cfg.pmax ∧ s.cfg.hash = u.cfg.hash ∧ s.len = u.len ∧
      s.plen = u.plen ∧ s.passphrase = u.passphrase ∧ s.itexp = u.itexp ∧ s.ident = u.ident ∧ s.secret = u.secret
  | .split, s, u => s.cfg.lmax = u.cfg.lmax ∧ s.cfg.hash = u.cfg.hash ∧ s.thr = u.thr ∧ s.cnt = u.cnt ∧ s.len = u.len ∧ s.secret = u.secret ∧
      s.random = u.random
  | .recover, s, u => s.cfg.lmax = u.cfg.lmax ∧ s.cfg.hash = u.cfg.hash ∧ s.thr = u.thr ∧ s.scnt = u.scnt ∧ s.len = u.len ∧ s.points = u.points
  | .interp, s, u => s.cfg.lmax = u.cfg.lmax ∧ s.xsel = u.xsel ∧ s.scnt = u.scnt ∧ s.len = u.len ∧ s.points = u.points

/-- `t` and `v` agree on the "writes" column of the command's row of R39; `s` is the state the command began in. -/
def SameWrites : Instr → State → State → State → Prop
  | .gfmul, _, t, v => t.gfr = v.gfr
  | .gfdiv, _, t, v => t.gfr = v.gfr
  | .gftest, _, t, v => t.tok = v.tok
  | .rspoly, _, t, v => t.chk = v.chk
  | .rscreate, s, t, v => t.chk = v.chk ∧ t.wlen = v.wlen ∧
      readWords t.wbuf s.wlen.toNat 3 = readWords v.wbuf s.wlen.toNat 3
  | .rsverify, _, t, v => t.chk = v.chk ∧ t.res = v.res
  | .fenc, _, t, v => t.secret = v.secret
  | .fdec, _, t, v => t.secret = v.secret
  | .split, s, t, v => t.scnt = v.scnt ∧ t.random = v.random ∧ ∀ i < s.cnt.toNat, t.point i = v.point i
  | .recover, _, t, v => t.secret = v.secret
  | .interp, _, t, v => t.secret = v.secret

/-- The j-th random share R_j of a split of an L-byte secret: L bytes of the random source from its byte j·L on
(spec/43_shamir_split R156). -/
def randomShare (s : State) (j : Nat) : List Byte :=
  (List.range s.len.toNat).map (fun k => s.random.byteAt (j * s.len.toNat + k))

/-- The padding Pd of a split with threshold T: the L - 4 bytes after R_0, .., R_(T-3) (R156). -/
def randomPadding (s : State) : List Byte :=
  (List.range (s.len.toNat - 4)).map (fun k => s.random.byteAt ((s.thr.toNat - 2) * s.len.toNat + k))

/-- The random source after `n` bytes have been drawn from it. -/
def RandomSource.after (n : Nat) (r : RandomSource) : RandomSource :=
  { answers := r.answers.drop n, drawn := r.drawn + n }

/-! ### Round trips, for any way `run` to execute commands (spec/45_hash_primitives R190) -/

/-- Command `first` and then command `second` complete, and nothing but STATUS differs from the first state. -/
def Restores (run : Instr → State → Result) (first second : Instr) (s : State) : Prop :=
  ∃ t u, run first s = .next t ∧ run second t = .next u ∧ u.err = 0 ∧ u.secret = s.secret ∧ OnlyStatusDiffers s u

/-- SPLIT completes, and in every block of the same parameters and length whose share table holds THR distinct entries of
the result in any order, RECOVER completes with the secret that was split. -/
def SharesRecover (run : Instr → State → Result) (s : State) : Prop :=
  ∃ t, run .split s = .next t ∧
    ∀ (chosen : List Nat) (u : State), chosen.Nodup → chosen.length = s.thr.toNat → (∀ i ∈ chosen, i < s.cnt.toNat) →
      u.cfg = s.cfg → u.len = s.len → u.thr = s.thr → u.mem.wf = true → u.points = chosen.map t.point →
      ∃ v, run .recover u = .next v ∧ ClearedFlags u v ∧ v.secret = s.secret

/-! ### The invariant of the block -/

/-- The codes STATUS.ERR can hold (R200). -/
def raisedCodes : List (BitVec 8) := [0x01, 0x02, 0x03, 0x06, 0x0B, 0x0C, 0x10, 0x11, 0x12, 0x13]

/-- A STATUS the block can show: ERR is 0 or a raised code; an error has set STICKY and cleared RES (R34, R200, R201). -/
def LegalStatus (s : State) : Prop :=
  (s.err = 0 ∨ s.err ∈ raisedCodes) ∧ (s.err ≠ 0 → s.sticky = true ∧ s.res = false)

/-- A window offset that is a byte of SECRET, PASS or some SHV[i] in a block with parameters `p` (spec/20_memory R51). -/
def BufferOffset (p : Params) (a : Nat) : Prop :=
  (∃ k < p.lmax, a = secretBase + k) ∨ (∃ k < p.pmax, a = passBase + k) ∨
  (∃ i < 16, ∃ k < p.lmax, a = shvBase i + k)

/-- What holds of every state of a run: memories in canonical form, nothing stored outside the buffers' capacities, a legal
STATUS. -/
def State.Inv (s : State) : Prop :=
  s.mem.wf = true ∧ s.wbuf.wf = true ∧
  (∀ a, s.mem.read a ≠ 0 → BufferOffset s.cfg a) ∧
  (∀ k, s.wbuf.read k ≠ 0 → k < s.cfg.wmax) ∧
  LegalStatus s

/-! ### Windows and elements (spec/20_memory) -/

/-- An element the map of R51 has, in a block with parameters `p`. -/
def Element.Mapped (p : Params) : Element → Prop
  | .shx i => i < 16
  | .secret k => k < p.lmax
  | .pass k => k < p.pmax
  | .wbuf k => k < p.wmax
  | .shv i k => i < 16 ∧ k < p.lmax
  | _ => True

/-- The field width of a read-write element, none for the write-only CMD and the read-only STATUS, GFR, CHK (R25 to R38). -/
def Element.storedBits : Element → Option Nat
  | .cmd => none
  | .status => none
  | .gfr => none
  | .chk => none
  | .len => some 9
  | .plen => some 9
  | .thr => some 5
  | .cnt => some 5
  | .scnt => some 5
  | .itexp => some 5
  | .ident => some 15
  | .wlen => some 10
  | .wbuf _ => some 10
  | .gfa => some 8
  | .gfb => some 8
  | .xsel => some 8
  | .shx _ => some 8
  | .secret _ => some 8
  | .pass _ => some 8
  | .shv _ _ => some 8

/-! ### The field GF(256) (spec/40_gf256 R90) -/

/-- The carry-less product of two polynomials of degree at most 7. -/
def polyProduct (a b : Byte) : BitVec 16 :=
  (List.range 8).foldl (fun r i => if b.getLsbD i then r ^^^ (a.setWidth 16 <<< i) else r) 0

/-- A polynomial of degree at most 15 reduced modulo x^8+x^4+x^3+x+1. -/
def polyReduce (v : BitVec 16) : Byte :=
  ([7, 6, 5, 4, 3, 2, 1, 0].foldl (fun r k => if r.getLsbD (8 + k) then r ^^^ (0x11B#16 <<< k) else r) v).setWidth 8

/-- The product in the field of R90: polynomial multiplication, then reduction. -/
def fieldProduct (a b : Byte) : Byte := polyReduce (polyProduct a b)

/-! ### Interpolation (spec/43_shamir_split R150, R151) -/

/-- A point set of values of `len` bytes (R150). -/
def IsPointSet (len : Nat) (points : List Point) : Prop :=
  1 ≤ points.length ∧ points.length ≤ 16 ∧ (points.map (fun p => p.x)).Nodup ∧ ∀ p ∈ points, p.y.length = len

/-- The product of field elements. -/
def gfProduct : List Byte → Byte
  | [] => 1
  | a :: rest => gfMul a (gfProduct rest)

/-- ℓ_i(x), for the point with x-coordinate `xi` (R151). -/
def lagrangeBasis (points : List Point) (x xi : Byte) : Byte :=
  let others := points.filter (fun p => p.x != xi)
  gfDiv (gfProduct (others.map (fun p => x ^^^ p.x))) (gfProduct (others.map (fun p => xi ^^^ p.x)))

/-- Byte b of the interpolation, by the Lagrange formula of R151. -/
def lagrangeByte (points : List Point) (x : Byte) (b : Nat) : Byte :=
  points.foldl (fun r p => r ^^^ gfMul (p.y.getD b 0) (lagrangeBasis points x p.x)) 0

/-- The value at x of the polynomial over GF(256) with the given coefficients, constant term first. -/
def polyEval : List Byte → Byte → Byte
  | [], _ => 0
  | c :: cs, x => c ^^^ gfMul x (polyEval cs x)

/-! ### PBKDF2 (spec/45_hash_primitives R193) -/

/-- U_(k+1) of block `i`: U_1 = HMAC(P, S ++ INT(i)), U_(k+1) = HMAC(P, U_k). -/
def pbkdf2U (password salt : List Byte) (i : Nat) : Nat → Vector Byte 32
  | 0 => hmacSha256 password (salt ++ be32 (BitVec.ofNat 32 i))
  | k + 1 => hmacSha256 password (pbkdf2U password salt i k).toList

/-- Byte b of T_i = U_1 XOR .. XOR U_c. -/
def pbkdf2TByte (password salt : List Byte) (c i b : Nat) : Byte :=
  (List.range c).foldl (fun r k => r ^^^ (pbkdf2U password salt i k).toList.getD b 0) 0

end Sys2Proof.Machine
end

