-- ==== Sys2Proof/Certificates/Slice0/Obligations.lean ====
section
/-! DEFINITION. The statements for the provers, from the numbered rules of spec/. A statement whose docstring says DERIVED
rests on a sentence the spec marks as derived, or on a choice of the model that the docstring names. -/

open Sys2Proof Sys2Proof.Machine

/-! ### Command words (spec/30_encoding) -/

/-- R72: words written out from the opcode map decode to the commands they stand for; three other words do not decode. -/
def Obligations.SampleWordsDecode : Prop :=
  decode 0b00000000000000000000000000000001 = .ok .gfmul ∧
  decode 0b00000000000000000000000000000010 = .ok .gfdiv ∧
  decode 0b00000000000000000000000000010001 = .ok .rscreate ∧
  decode 0b00000000000000000000000000100001 = .ok .fdec ∧
  decode 0b00000000000000000000000000110000 = .ok .split ∧
  decode 0b00000000000000000000000000110010 = .ok .interp ∧
  decode 0x00000000 = .error .unassignedOpcode ∧
  decode 0x00000101 = .error .zeroFieldNotZero ∧
  decode 0xFFFFFFFF = .error .zeroFieldNotZero

/-- R71: every 32-bit word decodes to exactly one command, when it is that command's word of R72, or is illegal. -/
def Obligations.DecodeAcceptsExactlyTheCommandWords : Prop :=
  ∀ w : Word,
    (∀ i : Instr, decode w = .ok i ↔ w = encode i) ∧
    (∀ i j : Instr, w = encode i → w = encode j → i = j) ∧
    ((∀ i : Instr, w ≠ encode i) → ∃ e, decode w = .error e)

/-! ### The hash configuration as a parameter of the step (spec/10_state R20, spec/45_hash_primitives R190) -/

/-- R20, R190. DERIVED (log 11: how the model holds the parameter): the fixed-name `exec` and `step` are execution and step under the
block's own hash pair, any hash pair can take its place, and only FENC, FDEC, SPLIT and RECOVER depend on it. -/
def Obligations.StepTakesTheHashConfiguration : Prop :=
  (∀ s : State, (∀ i : Instr, exec i s = execWith s.hash i s) ∧ step s = stepWith s.hash s) ∧
  (∀ s : State, s.cfg.hash = .reference → s.hash.hmac = hmacSha256 ∧ s.hash.pbkdf2 = pbkdf2HmacSha256) ∧
  (∀ (hash : HashConfig) (i : Instr) (s : State), i ≠ .fenc → i ≠ .fdec → i ≠ .split → i ≠ .recover →
    execWith hash i s = exec i s) ∧
  (∀ (hash : HashConfig) (s : State) (rest : List HostStep) (c : Word) (i : Instr), decode c = .ok i →
    s.host.pending = .write 0x0000 .word c :: rest →
    stepWith hash s = execWith hash i { s with host := { s.host with pending := rest } })

/-! ### Steps of the host (spec/20_memory) -/

/-- R33: a write of a command's word to CMD executes it, whole, in that step; CMD stores nothing and reads 0. -/
def Obligations.CmdWriteRunsDecodedCommand : Prop :=
  ∀ (s : State) (rest : List HostStep),
    (∀ (c : Word) (i : Instr), decode c = .ok i → s.host.pending = .write 0x0000 .word c :: rest →
      step s = exec i { s with host := { s.host with pending := rest } }) ∧
    (∀ (w : Nat) (i : Instr), decodeTableWord 32 w = some i → step (s.withFetchWord 32 w) = exec i s) ∧
    (s.host.pending = .read 0x0000 .word :: rest →
      step s = .next { s with host := { pending := rest, returned := 0 :: s.host.returned } })

/-- R74: a CMD word that is none of the eleven ends with IllegalCommand and changes nothing but STATUS; 0 is such a word. -/
def Obligations.IllegalWordOnlyRecordsTheError : Prop :=
  (∀ i : Instr, (0 : Word) ≠ encode i) ∧
  ∀ (s : State) (c : Word) (rest : List HostStep),
    (∀ i : Instr, c ≠ encode i) → s.host.pending = .write 0x0000 .word c :: rest →
    ∃ t, step s = .next t ∧ t.err = 0x10 ∧ t.res = false ∧ t.sticky = true ∧ t.tok = s.tok ∧
      OnlyStatusDiffers { s with host := { s.host with pending := rest } } t

/-- R52, R54: a legal read returns the element's value to the host and changes nothing of the block. R25, R34: the value of
STATUS, GFR and CHK is the register zero-extended, STATUS with ERR in bits 7:0, RES, TOK and STICKY in bits 8, 9 and 10. -/
def Obligations.LegalReadReturnsTheElement : Prop :=
  (∀ (s : State) (rest : List HostStep) (e : Element), e.Mapped s.cfg →
    s.host.pending = .read e.offset e.width :: rest →
    step s = .next { s with host := { pending := rest, returned := readElement s e :: s.host.returned } }) ∧
  (∀ s : State,
    (readElement s .status).toNat = s.status.toNat ∧ (readElement s .gfr).toNat = s.gfr.toNat ∧
    (readElement s .chk).toNat = s.chk.toNat ∧ readElement s .cmd = 0) ∧
  (∀ s : State,
    let v := readElement s .status
    v.extractLsb' 0 8 = s.err ∧ v.getLsbD 8 = s.res ∧ v.getLsbD 9 = s.tok ∧ v.getLsbD 10 = s.sticky ∧
    ∀ i, 11 ≤ i → v.getLsbD i = false)

/-- R52: a legal write of an element other than CMD stores into it. -/
def Obligations.LegalWriteStoresTheElement : Prop :=
  ∀ (s : State) (rest : List HostStep) (e : Element) (v : Word), e.Mapped s.cfg → e ≠ .cmd →
    s.host.pending = .write e.offset e.width v :: rest →
    step s = .next (writeElement v { s with host := { s.host with pending := rest } } e)

/-- R25, and R36 for WBUF: a write of an element other than CMD keeps the low w bits and the rest reads as zero; a write of
a read-only register is ignored; no element aliases another. -/
def Obligations.WritesKeepTheLowBits : Prop :=
  ∀ (s : State) (e : Element) (v : Word), e.Mapped s.cfg → e ≠ .cmd → s.mem.wf = true → s.wbuf.wf = true →
    (∀ w, e.storedBits = some w → (readElement (writeElement v s e) e).toNat = v.toNat % 2 ^ w) ∧
    (e.storedBits = none → writeElement v s e = s) ∧
    (∀ e' : Element, e'.Mapped s.cfg → e' ≠ e → readElement (writeElement v s e) e' = readElement s e')

/-- R51, R52: an access reaches an element exactly when it is at that element's offset, of that element's width, and the
element is mapped in a block of these capacities. -/
def Obligations.WindowMapIsExact : Prop :=
  ∀ (p : Params) (a : Nat) (w : Width) (e : Element),
    elementAt p a w = some e ↔ e.Mapped p ∧ e.offset = a ∧ e.width = w

/-- R53: every other access is a bus error, a refused host step. -/
def Obligations.OtherAccessesAreBusErrors : Prop :=
  ∀ (s : State) (a : Nat) (w : Width) (rest : List HostStep),
    (∀ e : Element, e.Mapped s.cfg → ¬(e.offset = a ∧ e.width = w)) →
    (s.host.pending = .read a w :: rest → step s = .refused .busError) ∧
    (∀ v : Word, s.host.pending = .write a w v :: rest → step s = .refused .busError)

/-- R220: reset gives every piece of the block's state its reset value. DERIVED in one clause: that the host, the random
source and the parameters stand is the model's choice (log 18). -/
def Obligations.ResetStepGivesResetValues : Prop :=
  ∀ (s : State) (rest : List HostStep), s.host.pending = .reset :: rest →
    step s = .next { State.resetOf s.cfg with host := { s.host with pending := rest }, random := s.random }

/-- R57, R229. DERIVED: the model's choice (log 2): with no host step pending the block stands still. -/
def Obligations.BlockStandsStillWithoutTheHost : Prop :=
  ∀ s : State, s.host.pending = [] → step s = .next s

/-! ### Reset and the invariant -/

/-- R42: the values after reset. DERIVED in the fields that are the model's own (log 1, log 4, log 6). -/
def Obligations.ResetValues : Prop :=
  ∀ p : Params,
    let r := State.resetOf p
    r.status = 0 ∧ r.gfa = 0 ∧ r.gfb = 0 ∧ r.gfr = 0 ∧ r.len = 0 ∧ r.thr = 0 ∧ r.cnt = 0 ∧ r.scnt = 0 ∧ r.xsel = 0 ∧
    r.ident = 0 ∧ r.itexp = 0 ∧ r.plen = 0 ∧ r.wlen = 0 ∧ r.chk = 0 ∧ (∀ i, r.shxAt i = 0) ∧
    (∀ a, r.mem.read a = 0) ∧ (∀ k, r.wbuf.read k = 0) ∧
    State.reset = State.resetOf referenceParams ∧
    referenceParams.lmax = 32 ∧ referenceParams.pmax = 64 ∧ referenceParams.wmax = 64

/-- The last paragraph of R42, and R98's example for GFTEST. DERIVED (the spec marks R42's sentence, and R98's "TOK = 1", so):
what each of the eleven commands does straight after reset. -/
def Obligations.FirstCommandsAfterReset : Prop :=
  (∃ t, exec .gfmul State.reset = .next t ∧ t.err = 0 ∧ t.gfr = 0) ∧
  EndsInError .divideByZero .gfdiv State.reset ∧
  (∃ t, exec .gftest State.reset = .next t ∧ t.err = 0 ∧ t.tok = true ∧ readElement t .status = 0x200) ∧
  (∃ t, exec .rspoly State.reset = .next t ∧ t.err = 0 ∧ t.chk = 1) ∧
  (∃ t, exec .rsverify State.reset = .next t ∧ t.err = 0 ∧ t.res = false ∧ t.chk = 0x244A8EE3) ∧
  (∃ t, exec .rscreate State.reset = .next t ∧ t.err = 0 ∧ t.words = [413, 424, 113] ∧ t.wlen = 3) ∧
  EndsInError .invalidSecretLength .fenc State.reset ∧
  EndsInError .invalidSecretLength .fdec State.reset ∧
  EndsInError .invalidShareCount .split State.reset ∧
  EndsInError .invalidShareCount .recover State.reset ∧
  EndsInError .invalidShareCount .interp State.reset

/-- DERIVED (R42, R200): the state after reset meets the invariant. -/
def Obligations.ResetMeetsTheInvariant : Prop := ∀ p : Params, (State.resetOf p).Inv

/-- DERIVED (R25, R35 to R38, R200, R201): every step, whatever it is, keeps the invariant: memories in canonical form,
nothing stored outside a buffer's capacity, a legal STATUS. -/
def Obligations.StepKeepsTheInvariant : Prop :=
  ∀ s t : State, s.Inv → step s = .next t → t.Inv

/-- R221: reset is the only event that clears STICKY and TOK. -/
def Obligations.OnlyResetClearsStickyAndTok : Prop :=
  ∀ s t : State, step s = .next t → s.host.pending.head? ≠ some .reset →
    (s.sticky = true → t.sticky = true) ∧ (s.tok = true → t.tok = true)

/-- DERIVED (log 13, log 14): two memories of elements of any one width, in canonical form, that read alike are equal, so a
state has one representation: the byte memory and WBUF are the two memories of a state. -/
def Obligations.CanonicalMemoriesAreEqualByReads : Prop :=
  (∀ (w : Nat) (m n : Sparse w), m.wf = true → n.wf = true → (∀ k, m.read k = n.read k) → m = n) ∧
  (∀ m n : Memory, m.wf = true → n.wf = true → (∀ a, m.read a = n.read a) → m = n) ∧
  (∀ s t : State, s.mem.wf = true → t.mem.wf = true → s.wbuf.wf = true → t.wbuf.wf = true →
    (∀ a, s.mem.read a = t.mem.read a) → (∀ k, s.wbuf.read k = t.wbuf.read k) →
    { s with mem := t.mem, wbuf := t.wbuf } = s)

/-! ### All commands -/

/-- R8: every command completes with ERR = 0, or ends with ERR nonzero and nothing else written. -/
def Obligations.EveryCommandEndsInOneOfTwoWays : Prop :=
  ∀ (i : Instr) (s : State), ∃ t, exec i s = .next t ∧
    (t.err = 0 ∧ t.sticky = s.sticky ∨ t.err ≠ 0 ∧ OnlyStatusDiffers s t)

/-- R201: error entry. -/
def Obligations.ErrorsArePrecise : Prop :=
  ∀ (i : Instr) (s t : State), exec i s = .next t → t.err ≠ 0 →
    (∃ e : CmdError, t.err = e.code ∧ EndsInError e i s) ∧
    t.sticky = true ∧ t.res = false ∧ t.tok = s.tok ∧ OnlyStatusDiffers s t ∧ t.random = s.random

/-- R200, column "Raised by": a command ends only with errors of its own. -/
def Obligations.CommandsRaiseOnlyTheirErrors : Prop :=
  ∀ (i : Instr) (s t : State), exec i s = .next t → t.err = 0 ∨ ∃ e ∈ raisedBy i, t.err = e.code

/-- R39: a command writes nothing outside its row of the table, and nothing it does depends on anything outside its row. -/
def Obligations.ReadAndWriteSets : Prop :=
  (∀ (i : Instr) (s t : State), exec i s = .next t →
    WritesOnly i s t ∧ (i ≠ .gftest → t.tok = s.tok) ∧ (i ≠ .rsverify → t.res = false) ∧
    (t.err ≠ 0 → OnlyStatusDiffers s t)) ∧
  (∀ (i : Instr) (s u t v : State), s.mem.wf = true → u.mem.wf = true → s.wbuf.wf = true → u.wbuf.wf = true →
    SameReads i s u → exec i s = .next t → exec i u = .next v →
    t.err = v.err ∧ (t.err = 0 → SameWrites i s t v))

/-- R40: only SPLIT with T ≥ 2 draws, and a command that ends in error draws nothing. -/
def Obligations.OnlySplitDraws : Prop :=
  ∀ (i : Instr) (s t : State), exec i s = .next t → t.random ≠ s.random →
    i = .split ∧ 2 ≤ s.thr.toNat ∧ t.err = 0

/-! ### Unit U1, GF(256) (spec/40_gf256, spec/10_state R21, R22) -/

/-- R21: EXP[0] = 1, the recurrence of the construction, and the placeholder EXP[255]. DERIVED in the last clause, a sentence
R21 marks so: every nonzero byte is one of EXP[0..254], exactly once. -/
def Obligations.ExpTableFollowsTheConstruction : Prop :=
  expAt 0 = 0x01 ∧ expAt 255 = 0x01 ∧
  (∀ i < 254,
    let t := ((expAt i).toNat <<< 1) ^^^ (expAt i).toNat
    (expAt (i + 1)).toNat = t ^^^ (if t.testBit 8 then 0x11B else 0)) ∧
  (∀ v : Byte, v ≠ 0 → ∃ i < 255, expAt i = v ∧ ∀ j < 255, expAt j = v → j = i)

/-- R22: LOG[EXP[i]] = i for i in 0..254, and the placeholder LOG[0]. -/
def Obligations.LogTableInvertsExp : Prop :=
  (∀ i < 255, logAt (expAt i) = i) ∧
  (∀ v : Byte, v ≠ 0 → logAt v ≤ 254 ∧ expAt (logAt v) = v) ∧ logAt 0 = 0

/-- R92. DERIVED (the spec marks it so): the table multiplication is the product in the field of R90, for all pairs. -/
def Obligations.MultiplyIsTheFieldProduct : Prop :=
  ∀ a b : Byte, gfMul a b = fieldProduct a b

/-- R92. DERIVED (consequences the spec lists): the laws of multiplication. -/
def Obligations.MultiplyFieldLaws : Prop :=
  ∀ a b c : Byte,
    gfMul a b = gfMul b a ∧ gfMul (gfMul a b) c = gfMul a (gfMul b c) ∧
    gfMul a (b ^^^ c) = gfMul a b ^^^ gfMul a c ∧ gfMul a 1 = a ∧ gfMul a 0 = 0 ∧
    (gfMul a b = 0 → a = 0 ∨ b = 0)

/-- R94. DERIVED (the spec marks it so): divide gives the one byte that multiplied by the divisor is the dividend. -/
def Obligations.DivideIsTheUniqueQuotient : Prop :=
  ∀ a b : Byte, b ≠ 0 → gfMul (gfDiv a b) b = a ∧ ∀ q : Byte, gfMul q b = a → q = gfDiv a b

/-- R96: the normalised modulus. -/
def Obligations.ModulusIsNormalised : Prop :=
  (∀ v : Int, mod255 v < 255 ∧ (255 : Int) ∣ v - (mod255 v : Int)) ∧
  mod255 (-18) = 237 ∧ mod255 (-255) = 0 ∧ mod255 (-1) = 254

/-- R93: GFMUL's word; it completes for every operand pair with GFR = multiply(GFA, GFB); its corner cases and example. -/
def Obligations.GfmulResult : Prop :=
  decode 0x00000001 = .ok .gfmul ∧
  (∀ s : State, Completes .gfmul s (fun t =>
    t.gfr = gfMul s.gfa s.gfb ∧ { t with status := s.status, gfr := s.gfr } = s)) ∧
  (∀ a b : Byte, a ≠ 0 → b ≠ 0 → gfMul a b = expAt ((logAt a + logAt b) % 255)) ∧
  (∀ b : Byte, gfMul 0 b = 0 ∧ gfMul b 0 = 0 ∧ gfMul 1 b = b) ∧
  gfMul 0xF6 0xF6 = 0x52 ∧ gfMul 0x57 0x83 = 0xC1

/-- R95: GFDIV ends with DivideByZero when GFB = 0, whatever GFA is, and else completes with GFR = divide(GFA, GFB). -/
def Obligations.GfdivResult : Prop :=
  decode 0x00000002 = .ok .gfdiv ∧
  (∀ s : State, s.gfb = 0 → EndsInError .divideByZero .gfdiv s) ∧
  (∀ s : State, s.gfb ≠ 0 → Completes .gfdiv s (fun t =>
    t.gfr = gfDiv s.gfa s.gfb ∧ { t with status := s.status, gfr := s.gfr } = s)) ∧
  (∀ a b : Byte, a ≠ 0 → b ≠ 0 → gfDiv a b = expAt ((logAt a + 255 - logAt b) % 255)) ∧
  (∀ b : Byte, b ≠ 0 → gfDiv 0 b = 0 ∧ gfDiv b b = 1 ∧ gfDiv b 1 = b) ∧
  gfDiv 0x02 0x03 = 0xF7 ∧ gfDiv 0x03 0x02 = 0x8C ∧ gfDiv 0xC1 0x83 = 0x57

/-- R98. DERIVED (the spec marks "TOK = 1" so): GFTEST always completes, TOK becomes 1, and nothing but STATUS changes. -/
def Obligations.GftestResult : Prop :=
  decode 0x00000003 = .ok .gftest ∧
  ∀ s : State, ∃ t, exec .gftest s = .next t ∧ t.err = 0 ∧ t.res = false ∧ t.tok = true ∧ t.sticky = s.sticky ∧
    OnlyStatusDiffers s t

/-! ### Unit U2, RS1024 (spec/41_rs1024) -/

/-- R111: one step of polymod, for any constants: the low 20 bits move up by 10, the word goes below, and bit i of
c[29:20] selects GEN[i]. -/
def Obligations.PolymodStepSelectsByTheTopTenBits : Prop :=
  ∀ (g0 g1 g2 g3 g4 g5 g6 g7 g8 g9 c : Acc) (w : RsWord),
    let pick := fun (i : Nat) (g : Acc) => if c.getLsbD (20 + i) then g else 0
    polymodStep #v[g0, g1, g2, g3, g4, g5, g6, g7, g8, g9] c w =
      (c.extractLsb' 0 20 ++ w : BitVec 30) ^^^ pick 0 g0 ^^^ pick 1 g1 ^^^ pick 2 g2 ^^^ pick 3 g3 ^^^ pick 4 g4 ^^^
        pick 5 g5 ^^^ pick 6 g6 ^^^ pick 7 g7 ^^^ pick 8 g8 ^^^ pick 9 g9

/-- R118 (b). DERIVED (the spec marks it so): polymod is affine. -/
def Obligations.PolymodIsAffine : Prop :=
  ∀ (gen : Vector Acc 10) (u v : List RsWord), u.length = v.length →
    polymod gen u ^^^ polymod gen v =
      polymod gen (List.zipWith (fun a b => a ^^^ b) u v) ^^^ polymod gen (List.replicate u.length 0)

/-- R118 (a). DERIVED (the spec marks it so): created checksums verify, for any GEN and CUST and any data. -/
def Obligations.CreatedChecksumsVerify : Prop :=
  ∀ (p : Params) (data : List RsWord), verifyChecksum p (data ++ createChecksum p data) = true

/-- R113: RSPOLY. -/
def Obligations.RspolyResult : Prop :=
  decode 0x00000010 = .ok .rspoly ∧
  (∀ s : State, s.cfg.wmax < s.wlen.toNat → EndsInError .bufferRange .rspoly s) ∧
  (∀ s : State, s.wlen.toNat ≤ s.cfg.wmax → Completes .rspoly s (fun t =>
    t.chk = polymod s.cfg.gen s.words ∧ { t with status := s.status, chk := s.chk } = s)) ∧
  (∀ gen : Vector Acc 10, polymod gen [] = 1) ∧ polymod genReference [0, 0, 0] = 0x00E0E040

/-- R115: RSCREATE. -/
def Obligations.RscreateResult : Prop :=
  decode 0x00000011 = .ok .rscreate ∧
  (∀ s : State, s.cfg.wmax < s.wlen.toNat + 3 → EndsInError .bufferRange .rscreate s) ∧
  (∀ s : State, s.wlen.toNat + 3 ≤ s.cfg.wmax → s.wbuf.wf = true → Completes .rscreate s (fun t =>
    t.chk = polymod s.cfg.gen (s.cfg.cust.toList ++ s.words ++ [0, 0, 0]) ∧
    t.wbuf.read s.wlen.toNat = (t.chk ^^^ 1).extractLsb' 20 10 ∧
    t.wbuf.read (s.wlen.toNat + 1) = (t.chk ^^^ 1).extractLsb' 10 10 ∧
    t.wbuf.read (s.wlen.toNat + 2) = (t.chk ^^^ 1).extractLsb' 0 10 ∧
    t.wlen.toNat = s.wlen.toNat + 3 ∧ WritesChecksumOnly s t)) ∧
  createChecksum referenceParams [] = [413, 424, 113] ∧
  createChecksum referenceParams [0, 1, 2, 3] = [516, 196, 110]

/-- R117: RSVERIFY; a failed verification is no error. -/
def Obligations.RsverifyResult : Prop :=
  decode 0x00000012 = .ok .rsverify ∧
  (∀ s : State, s.cfg.wmax < s.wlen.toNat → EndsInError .bufferRange .rsverify s) ∧
  (∀ s : State, s.wlen.toNat ≤ s.cfg.wmax → ∃ t, exec .rsverify s = .next t ∧
    t.chk = polymod s.cfg.gen (s.cfg.cust.toList ++ s.words) ∧ (t.res = true ↔ t.chk = 1) ∧
    t.err = 0 ∧ t.tok = s.tok ∧ t.sticky = s.sticky ∧ { t with status := s.status, chk := s.chk } = s) ∧
  verifyPolymod referenceParams [0, 1, 2, 3, 516, 196, 110] = 1 ∧
  verifyPolymod referenceParams [1, 1, 2, 3, 516, 196, 110] ≠ 1 ∧
  verifyPolymod referenceParams [] = 0x244A8EE3

/-- R115, R118 (a). DERIVED: after a completed RSCREATE an immediate RSVERIFY completes with RES = 1. -/
def Obligations.RscreateThenRsverifySucceeds : Prop :=
  ∀ s : State, s.wbuf.wf = true → s.wlen.toNat + 3 ≤ s.cfg.wmax →
    ∃ t u, exec .rscreate s = .next t ∧ exec .rsverify t = .next u ∧
      u.err = 0 ∧ u.res = true ∧ u.chk = 1 ∧ u.wlen.toNat = s.wlen.toNat + 3 ∧
      u.words.take s.wlen.toNat = s.words

/-! ### Unit U3, the Feistel cipher (spec/42_feistel) -/

/-- R132: the iteration count is the exact integer 2500 · 2^E. -/
def Obligations.IterationCountIsExact : Prop :=
  (∀ e : Nat, iters e = 2500 * 2 ^ e ∧ 4 * iters e = 10000 <<< e) ∧
  iters 0 = 2500 ∧ iters 1 = 5000 ∧ iters 31 = 5368709120000

/-- R133, R135: four rounds with the index order of each direction; F is computed from the IR before the update; the output
is IR ++ IL. Stated for every round function and every pair of halves. -/
def Obligations.FeistelRoundsAsWritten : Prop :=
  ∀ (f : Nat → List Byte → List Byte) (il ir : List Byte), il.length = ir.length →
    (let a := xorBytes il (f 0 ir)
     let b := xorBytes ir (f 1 a)
     let c := xorBytes a (f 2 b)
     let d := xorBytes b (f 3 c)
     feistelEncrypt f (il ++ ir) = d ++ c) ∧
    (let a := xorBytes il (f 3 ir)
     let b := xorBytes ir (f 2 a)
     let c := xorBytes a (f 1 b)
     let d := xorBytes b (f 0 c)
     feistelDecrypt f (il ++ ir) = d ++ c)

/-- R134: the round function, for every hash instance. -/
def Obligations.RoundFunctionAsWritten : Prop :=
  ∀ (hash : HashConfig) (pass : List Byte) (e : BitVec 5) (ident : BitVec 15) (i : Nat) (r : List Byte), i < 4 →
    roundFunction hash pass e ident i r =
      (hash.pbkdf2 ([BitVec.ofNat 8 i] ++ pass)
        ([0x73, 0x68, 0x61, 0x6D, 0x69, 0x72] ++
          [BitVec.ofNat 8 (ident.toNat / 256), BitVec.ofNat 8 (ident.toNat % 256)] ++ r)
        (2500 * 2 ^ e.toNat) r.length).toList

/-- R139 (a). DERIVED (the spec marks it so): decryption inverts encryption and the other way round, whatever the round
function is, as long as its output has the length of its input. -/
def Obligations.FeistelRoundTrip : Prop :=
  ∀ (f : Nat → List Byte → List Byte) (secret : List Byte),
    (∀ i r, (f i r).length = r.length) → secret.length % 2 = 0 →
    feistelDecrypt f (feistelEncrypt f secret) = secret ∧ feistelEncrypt f (feistelDecrypt f secret) = secret

/-- R137, with the checks of R136 in order: FENC, under whatever hash pair the block has. -/
def Obligations.FencResult : Prop :=
  decode 0x00000020 = .ok .fenc ∧
  ∀ s : State,
    (¬(16 ≤ s.len.toNat ∧ s.len.toNat ≤ s.cfg.lmax) → EndsInError .invalidSecretLength .fenc s) ∧
    (16 ≤ s.len.toNat → s.len.toNat ≤ s.cfg.lmax → s.len.toNat % 2 = 1 →
      EndsInError .invalidSecretParity .fenc s) ∧
    (LegalLength s → s.cfg.pmax < s.plen.toNat → EndsInError .bufferRange .fenc s) ∧
    (LegalLength s → s.plen.toNat ≤ s.cfg.pmax → ¬LegalCharset s →
      EndsInError .invalidPassphraseCharset .fenc s) ∧
    (LegalCipher s → s.mem.wf = true → Completes .fenc s (fun t =>
      t.secret = feistelEncrypt (roundFunction s.hash s.passphrase s.itexp s.ident) s.secret ∧
      WritesSecretOnly s t))

/-- R138, with the checks of R136 in order: FDEC, under whatever hash pair the block has. A wrong passphrase, exponent
or identifier is no error. -/
def Obligations.FdecResult : Prop :=
  decode 0x00000021 = .ok .fdec ∧
  ∀ s : State,
    (¬(16 ≤ s.len.toNat ∧ s.len.toNat ≤ s.cfg.lmax) → EndsInError .invalidSecretLength .fdec s) ∧
    (16 ≤ s.len.toNat → s.len.toNat ≤ s.cfg.lmax → s.len.toNat % 2 = 1 →
      EndsInError .invalidSecretParity .fdec s) ∧
    (LegalLength s → s.cfg.pmax < s.plen.toNat → EndsInError .bufferRange .fdec s) ∧
    (LegalLength s → s.plen.toNat ≤ s.cfg.pmax → ¬LegalCharset s →
      EndsInError .invalidPassphraseCharset .fdec s) ∧
    (LegalCipher s → s.mem.wf = true → Completes .fdec s (fun t =>
      t.secret = feistelDecrypt (roundFunction s.hash s.passphrase s.itexp s.ident) s.secret ∧
      WritesSecretOnly s t))

/-- R138, R139 (a). DERIVED: FENC followed by FDEC, and FDEC followed by FENC, restores the block, STATUS apart, under the
block's own hash pair and under every other (R190). -/
def Obligations.FencThenFdecRestores : Prop :=
  ∀ s : State, LegalCipher s → s.mem.wf = true →
    (Restores exec .fenc .fdec s ∧ Restores exec .fdec .fenc s) ∧
    ∀ hash : HashConfig, Restores (execWith hash) .fenc .fdec s ∧ Restores (execWith hash) .fdec .fenc s

/-! ### The hash primitives (spec/45_hash_primitives) -/

/-- R191. DERIVED: two known digests (spec/95_test_vectors V-H-1, V-H-2). -/
def Obligations.Sha256KnownDigests : Prop :=
  (sha256 []).toList =
    [0xe3, 0xb0, 0xc4, 0x42, 0x98, 0xfc, 0x1c, 0x14, 0x9a, 0xfb, 0xf4, 0xc8, 0x99, 0x6f, 0xb9, 0x24,
     0x27, 0xae, 0x41, 0xe4, 0x64, 0x9b, 0x93, 0x4c, 0xa4, 0x95, 0x99, 0x1b, 0x78, 0x52, 0xb8, 0x55] ∧
  (sha256 [0x61, 0x62, 0x63]).toList =
    [0xba, 0x78, 0x16, 0xbf, 0x8f, 0x01, 0xcf, 0xea, 0x41, 0x41, 0x40, 0xde, 0x5d, 0xae, 0x22, 0x23,
     0xb0, 0x03, 0x61, 0xa3, 0x96, 0x17, 0x7a, 0x9c, 0xb4, 0x10, 0xff, 0x61, 0xf2, 0x00, 0x15, 0xad]

/-- R191, the padding. DERIVED (a part of the rule): M ++ 0x80 ++ the least number of zero bytes that fills blocks ++ the
bit length, 8 bytes, big-endian. -/
def Obligations.ShaPaddingFillsBlocks : Prop :=
  ∀ m : List Byte, m.length < 2 ^ 61 → ∃ (z : Nat) (n : List Byte),
    shaPad m = m ++ [0x80] ++ List.replicate z 0 ++ n ∧ n.length = 8 ∧
    n.foldl (fun v b => 256 * v + b.toNat) 0 = 8 * m.length ∧
    (shaPad m).length % 64 = 0 ∧ ∀ y < z, (m.length + 1 + y + 8) % 64 ≠ 0

/-- R192: HMAC-SHA256. -/
def Obligations.HmacAsWritten : Prop :=
  ∀ key msg : List Byte,
    let k := if 64 < key.length then (sha256 key).toList else key
    let k0 := k ++ List.replicate (64 - k.length) 0
    k0.length = 64 ∧
    hmacSha256 key msg =
      sha256 (xorBytes k0 (List.replicate 64 0x5C) ++
        (sha256 (xorBytes k0 (List.replicate 64 0x36) ++ msg)).toList)

/-- R193: byte j of PBKDF2's output is byte j mod 32 of T_(j/32 + 1), T_i = U_1 XOR .. XOR U_c. DERIVED from block 2^32 on, where
INT(i) modulo 2^32 is the model's choice (log 23). -/
def Obligations.Pbkdf2AsWritten : Prop :=
  ∀ (password salt : List Byte) (c dkLen j : Nat), 1 ≤ c → j < dkLen →
    (pbkdf2HmacSha256 password salt c dkLen).toList.getD j 0 =
      pbkdf2TByte password salt c (j / 32 + 1) (j % 32)

/-! ### Units U4 and U5, Shamir sharing (spec/43_shamir_split, spec/44_shamir_recover) -/

/-- R151, R152. DERIVED (the spec marks it so): the log-domain algorithm gives the Lagrange formula, for every point set
and every x, the given x-coordinates included. -/
def Obligations.InterpolateIsTheLagrangeFormula : Prop :=
  ∀ (len : Nat) (points : List Point) (x : Byte), IsPointSet len points →
    (interpolate len points x).length = len ∧
    ∀ b < len, (interpolate len points x).getD b 0 = lagrangeByte points x b

/-- R151. DERIVED: every polynomial of degree at most k - 1 through the k points has, at every x, the interpolated value;
so there is at most one. -/
def Obligations.InterpolateFollowsThePolynomial : Prop :=
  ∀ (len : Nat) (points : List Point) (b : Nat) (coeffs : List Byte), IsPointSet len points → b < len →
    coeffs.length ≤ points.length → (∀ p ∈ points, p.y.getD b 0 = polyEval coeffs p.x) →
    ∀ x : Byte, (interpolate len points x).getD b 0 = polyEval coeffs x

/-- R151. DERIVED: there is such a polynomial. -/
def Obligations.InterpolateIsAPolynomial : Prop :=
  ∀ (len : Nat) (points : List Point) (b : Nat), IsPointSet len points → b < len →
    ∃ coeffs : List Byte, coeffs.length = points.length ∧
      ∀ x : Byte, (interpolate len points x).getD b 0 = polyEval coeffs x

/-- R176. DERIVED (the spec marks it so): the order of the points does not matter. -/
def Obligations.InterpolateIgnoresTheOrder : Prop :=
  ∀ (len : Nat) (points others : List Point) (x : Byte), IsPointSet len points → points.Perm others →
    interpolate len points x = interpolate len others x

/-- R158, with R156 and R157 for its draws and shares: SPLIT, under whatever hash pair the block has. -/
def Obligations.SplitResult : Prop :=
  decode 0x00000030 = .ok .split ∧
  ∀ s : State,
    (¬LegalSplitCount s → EndsInError .invalidShareCount .split s) ∧
    (LegalSplitCount s → ¬(16 ≤ s.len.toNat ∧ s.len.toNat ≤ s.cfg.lmax) →
      EndsInError .invalidSecretLength .split s) ∧
    (LegalSplitCount s → 16 ≤ s.len.toNat → s.len.toNat ≤ s.cfg.lmax → s.len.toNat % 2 = 1 →
      EndsInError .invalidSecretParity .split s) ∧
    (LegalSplit s → s.mem.wf = true → s.thr.toNat = 1 → Completes .split s (fun t =>
      t.scnt = s.cnt ∧ t.random = s.random ∧ WritesShareTableOnly s t ∧
      ∀ i < s.cnt.toNat, t.point i = { x := BitVec.ofNat 8 i, y := s.secret })) ∧
    (LegalSplit s → s.mem.wf = true → 2 ≤ s.thr.toNat → Completes .split s (fun t =>
      t.scnt = s.cnt ∧ WritesShareTableOnly s t ∧
      t.random = s.random.after ((s.thr.toNat - 2) * s.len.toNat + (s.len.toNat - 4)) ∧
      let base := (List.range (s.thr.toNat - 2)).map (fun i => { x := BitVec.ofNat 8 i, y := randomShare s i }) ++
        [{ x := 254, y := (s.hash.hmac (randomPadding s) s.secret).toList.take 4 ++ randomPadding s },
         { x := 255, y := s.secret }]
      ∀ i < s.cnt.toNat, t.point i =
        { x := BitVec.ofNat 8 i,
          y := if i < s.thr.toNat - 2 then randomShare s i
            else interpolate s.len.toNat base (BitVec.ofNat 8 i) }))

/-- R173, with R172 and R174: RECOVER, under whatever hash pair the block has. -/
def Obligations.RecoverResult : Prop :=
  decode 0x00000031 = .ok .recover ∧
  ∀ s : State,
    let digestOk :=
      (s.hash.hmac ((interpolate s.len.toNat s.points 254).drop 4) (interpolate s.len.toNat s.points 255)).toList.take 4 =
        (interpolate s.len.toNat s.points 254).take 4
    (¬(1 ≤ s.thr.toNat ∧ s.thr.toNat ≤ 16) → EndsInError .invalidShareCount .recover s) ∧
    (1 ≤ s.thr.toNat → s.thr.toNat ≤ 16 → ¬(16 ≤ s.len.toNat ∧ s.len.toNat ≤ s.cfg.lmax) →
      EndsInError .invalidSecretLength .recover s) ∧
    (1 ≤ s.thr.toNat → s.thr.toNat ≤ 16 → 16 ≤ s.len.toNat → s.len.toNat ≤ s.cfg.lmax → s.len.toNat % 2 = 1 →
      EndsInError .invalidSecretParity .recover s) ∧
    (1 ≤ s.thr.toNat → s.thr.toNat ≤ 16 → LegalLength s → s.scnt ≠ s.thr →
      EndsInError .inconsistentMnemonicSet .recover s) ∧
    (1 ≤ s.thr.toNat → s.thr.toNat ≤ 16 → LegalLength s → s.scnt = s.thr → ¬(ShareXs s ∧ DistinctXs s) →
      EndsInError .invalidShareSet .recover s) ∧
    (LegalRecover s → 2 ≤ s.thr.toNat → ¬digestOk → EndsInError .invalidDigest .recover s) ∧
    (LegalRecover s → s.mem.wf = true → 2 ≤ s.thr.toNat → digestOk → Completes .recover s (fun t =>
      t.secret = interpolate s.len.toNat s.points 255 ∧ WritesSecretOnly s t)) ∧
    (LegalRecover s → s.mem.wf = true → s.thr.toNat = 1 → Completes .recover s (fun t =>
      t.secret = s.mem.readBytes (shvBase 0) s.len.toNat ∧ WritesSecretOnly s t))

/-- R175: INTERP. -/
def Obligations.InterpResult : Prop :=
  decode 0x00000032 = .ok .interp ∧
  ∀ s : State,
    (¬(1 ≤ s.scnt.toNat ∧ s.scnt.toNat ≤ 16) → EndsInError .invalidShareCount .interp s) ∧
    (1 ≤ s.scnt.toNat → s.scnt.toNat ≤ 16 → ¬(16 ≤ s.len.toNat ∧ s.len.toNat ≤ s.cfg.lmax) →
      EndsInError .invalidSecretLength .interp s) ∧
    (1 ≤ s.scnt.toNat → s.scnt.toNat ≤ 16 → 16 ≤ s.len.toNat → s.len.toNat ≤ s.cfg.lmax → s.len.toNat % 2 = 1 →
      EndsInError .invalidSecretParity .interp s) ∧
    (1 ≤ s.scnt.toNat → s.scnt.toNat ≤ 16 → LegalLength s → ¬DistinctXs s →
      EndsInError .invalidShareSet .interp s) ∧
    (LegalInterp s → s.mem.wf = true → Completes .interp s (fun t =>
      t.secret = interpolate s.len.toNat s.points s.xsel ∧ WritesSecretOnly s t ∧
      (∀ m < s.scnt.toNat, s.shxAt m = s.xsel → t.secret = s.mem.readBytes (shvBase m) s.len.toNat) ∧
      (s.scnt.toNat = 1 → t.secret = s.mem.readBytes (shvBase 0) s.len.toNat)))

/-- R177 (a), R159 (a). DERIVED (the spec marks it so): after a SPLIT with T ≥ 2, RECOVER of any T distinct shares of it, in
any order, completes with the secret that was split, under the block's own hash pair and under every other (R190). -/
def Obligations.AnyThresholdSharesRecoverTheSecret : Prop :=
  ∀ s : State, LegalSplit s → 2 ≤ s.thr.toNat → s.mem.wf = true →
    SharesRecover exec s ∧ ∀ hash : HashConfig, SharesRecover (execWith hash) s

/-- R177 (a), R159 (a), (b), R190. DERIVED (the spec marks R177 (a) so): for every hash pair, whatever is drawn, recover_secret of
any T distinct points of split_secret, in any order, is the secret that was split. -/
def Obligations.RecoverSecretUndoesSplitSecretForEveryHash : Prop :=
  ∀ (hash : HashConfig) (t n : Nat) (secret pad : List Byte) (rs : List (List Byte)) (shares : List Point),
    1 ≤ t → t ≤ n → n ≤ 16 → pad.length + 4 = secret.length →
    rs.length = t - 2 → (∀ r ∈ rs, r.length = secret.length) →
    shares.length = t → (shares.map (fun p => p.x)).Nodup →
    (∀ p ∈ shares, p ∈ splitSecret hash t n secret rs pad) →
    recoverSecret hash secret.length t shares = .ok secret

/-- R159 (b), R172. DERIVED: after a SPLIT with T = 1, RECOVER with THR = 1 of any one share returns the secret. -/
def Obligations.AnySingleShareOfAOneThresholdSplitRecovers : Prop :=
  ∀ s : State, LegalSplit s → s.thr.toNat = 1 → s.mem.wf = true →
    ∃ t, exec .split s = .next t ∧
      ∀ (i : Nat) (u : State), i < s.cnt.toNat → u.cfg = s.cfg → u.len = s.len → u.thr = s.thr → u.mem.wf = true →
        u.points = [t.point i] → Completes .recover u (fun v => v.secret = s.secret)
end

