-- ==== Sys2Proof/Laws/State.lean ====
section
/-! SUPPORT. What each named update of State does to each field, so that no proof unfolds a record update. -/

namespace Sys2Proof.Machine

/-! ### `State.takeError` -/

@[simp] theorem State.takeError_cfg (s : State) (e : CmdError) : (s.takeError e).cfg = s.cfg := rfl
@[simp] theorem State.takeError_status (s : State) (e : CmdError) : (s.takeError e).status = errorStatus e s := rfl
@[simp] theorem State.takeError_gfa (s : State) (e : CmdError) : (s.takeError e).gfa = s.gfa := rfl
@[simp] theorem State.takeError_gfb (s : State) (e : CmdError) : (s.takeError e).gfb = s.gfb := rfl
@[simp] theorem State.takeError_gfr (s : State) (e : CmdError) : (s.takeError e).gfr = s.gfr := rfl
@[simp] theorem State.takeError_len (s : State) (e : CmdError) : (s.takeError e).len = s.len := rfl
@[simp] theorem State.takeError_thr (s : State) (e : CmdError) : (s.takeError e).thr = s.thr := rfl
@[simp] theorem State.takeError_cnt (s : State) (e : CmdError) : (s.takeError e).cnt = s.cnt := rfl
@[simp] theorem State.takeError_scnt (s : State) (e : CmdError) : (s.takeError e).scnt = s.scnt := rfl
@[simp] theorem State.takeError_xsel (s : State) (e : CmdError) : (s.takeError e).xsel = s.xsel := rfl
@[simp] theorem State.takeError_ident (s : State) (e : CmdError) : (s.takeError e).ident = s.ident := rfl
@[simp] theorem State.takeError_itexp (s : State) (e : CmdError) : (s.takeError e).itexp = s.itexp := rfl
@[simp] theorem State.takeError_plen (s : State) (e : CmdError) : (s.takeError e).plen = s.plen := rfl
@[simp] theorem State.takeError_wlen (s : State) (e : CmdError) : (s.takeError e).wlen = s.wlen := rfl
@[simp] theorem State.takeError_chk (s : State) (e : CmdError) : (s.takeError e).chk = s.chk := rfl
@[simp] theorem State.takeError_shx (s : State) (e : CmdError) : (s.takeError e).shx = s.shx := rfl
@[simp] theorem State.takeError_mem (s : State) (e : CmdError) : (s.takeError e).mem = s.mem := rfl
@[simp] theorem State.takeError_wbuf (s : State) (e : CmdError) : (s.takeError e).wbuf = s.wbuf := rfl
@[simp] theorem State.takeError_host (s : State) (e : CmdError) : (s.takeError e).host = s.host := rfl
@[simp] theorem State.takeError_random (s : State) (e : CmdError) : (s.takeError e).random = s.random := rfl

/-! ### `State.beginCommand` -/

@[simp] theorem State.beginCommand_cfg (s : State) : (s.beginCommand).cfg = s.cfg := rfl
@[simp] theorem State.beginCommand_status (s : State) : (s.beginCommand).status = clearedStatus s := rfl
@[simp] theorem State.beginCommand_gfa (s : State) : (s.beginCommand).gfa = s.gfa := rfl
@[simp] theorem State.beginCommand_gfb (s : State) : (s.beginCommand).gfb = s.gfb := rfl
@[simp] theorem State.beginCommand_gfr (s : State) : (s.beginCommand).gfr = s.gfr := rfl
@[simp] theorem State.beginCommand_len (s : State) : (s.beginCommand).len = s.len := rfl
@[simp] theorem State.beginCommand_thr (s : State) : (s.beginCommand).thr = s.thr := rfl
@[simp] theorem State.beginCommand_cnt (s : State) : (s.beginCommand).cnt = s.cnt := rfl
@[simp] theorem State.beginCommand_scnt (s : State) : (s.beginCommand).scnt = s.scnt := rfl
@[simp] theorem State.beginCommand_xsel (s : State) : (s.beginCommand).xsel = s.xsel := rfl
@[simp] theorem State.beginCommand_ident (s : State) : (s.beginCommand).ident = s.ident := rfl
@[simp] theorem State.beginCommand_itexp (s : State) : (s.beginCommand).itexp = s.itexp := rfl
@[simp] theorem State.beginCommand_plen (s : State) : (s.beginCommand).plen = s.plen := rfl
@[simp] theorem State.beginCommand_wlen (s : State) : (s.beginCommand).wlen = s.wlen := rfl
@[simp] theorem State.beginCommand_chk (s : State) : (s.beginCommand).chk = s.chk := rfl
@[simp] theorem State.beginCommand_shx (s : State) : (s.beginCommand).shx = s.shx := rfl
@[simp] theorem State.beginCommand_mem (s : State) : (s.beginCommand).mem = s.mem := rfl
@[simp] theorem State.beginCommand_wbuf (s : State) : (s.beginCommand).wbuf = s.wbuf := rfl
@[simp] theorem State.beginCommand_host (s : State) : (s.beginCommand).host = s.host := rfl
@[simp] theorem State.beginCommand_random (s : State) : (s.beginCommand).random = s.random := rfl

/-! ### `State.setSecret` -/

@[simp] theorem State.setSecret_cfg (s : State) (bytes : List Byte) : (s.setSecret bytes).cfg = s.cfg := rfl
@[simp] theorem State.setSecret_status (s : State) (bytes : List Byte) : (s.setSecret bytes).status = s.status := rfl
@[simp] theorem State.setSecret_gfa (s : State) (bytes : List Byte) : (s.setSecret bytes).gfa = s.gfa := rfl
@[simp] theorem State.setSecret_gfb (s : State) (bytes : List Byte) : (s.setSecret bytes).gfb = s.gfb := rfl
@[simp] theorem State.setSecret_gfr (s : State) (bytes : List Byte) : (s.setSecret bytes).gfr = s.gfr := rfl
@[simp] theorem State.setSecret_len (s : State) (bytes : List Byte) : (s.setSecret bytes).len = s.len := rfl
@[simp] theorem State.setSecret_thr (s : State) (bytes : List Byte) : (s.setSecret bytes).thr = s.thr := rfl
@[simp] theorem State.setSecret_cnt (s : State) (bytes : List Byte) : (s.setSecret bytes).cnt = s.cnt := rfl
@[simp] theorem State.setSecret_scnt (s : State) (bytes : List Byte) : (s.setSecret bytes).scnt = s.scnt := rfl
@[simp] theorem State.setSecret_xsel (s : State) (bytes : List Byte) : (s.setSecret bytes).xsel = s.xsel := rfl
@[simp] theorem State.setSecret_ident (s : State) (bytes : List Byte) : (s.setSecret bytes).ident = s.ident := rfl
@[simp] theorem State.setSecret_itexp (s : State) (bytes : List Byte) : (s.setSecret bytes).itexp = s.itexp := rfl
@[simp] theorem State.setSecret_plen (s : State) (bytes : List Byte) : (s.setSecret bytes).plen = s.plen := rfl
@[simp] theorem State.setSecret_wlen (s : State) (bytes : List Byte) : (s.setSecret bytes).wlen = s.wlen := rfl
@[simp] theorem State.setSecret_chk (s : State) (bytes : List Byte) : (s.setSecret bytes).chk = s.chk := rfl
@[simp] theorem State.setSecret_shx (s : State) (bytes : List Byte) : (s.setSecret bytes).shx = s.shx := rfl
@[simp] theorem State.setSecret_mem (s : State) (bytes : List Byte) : (s.setSecret bytes).mem = s.mem.writeBytes secretBase bytes := rfl
@[simp] theorem State.setSecret_wbuf (s : State) (bytes : List Byte) : (s.setSecret bytes).wbuf = s.wbuf := rfl
@[simp] theorem State.setSecret_host (s : State) (bytes : List Byte) : (s.setSecret bytes).host = s.host := rfl
@[simp] theorem State.setSecret_random (s : State) (bytes : List Byte) : (s.setSecret bytes).random = s.random := rfl

/-! ### `State.setShare` -/

@[simp] theorem State.setShare_cfg (s : State) (i : Nat) (x : Byte) (value : List Byte) : (s.setShare i x value).cfg = s.cfg := rfl
@[simp] theorem State.setShare_status (s : State) (i : Nat) (x : Byte) (value : List Byte) : (s.setShare i x value).status = s.status := rfl
@[simp] theorem State.setShare_gfa (s : State) (i : Nat) (x : Byte) (value : List Byte) : (s.setShare i x value).gfa = s.gfa := rfl
@[simp] theorem State.setShare_gfb (s : State) (i : Nat) (x : Byte) (value : List Byte) : (s.setShare i x value).gfb = s.gfb := rfl
@[simp] theorem State.setShare_gfr (s : State) (i : Nat) (x : Byte) (value : List Byte) : (s.setShare i x value).gfr = s.gfr := rfl
@[simp] theorem State.setShare_len (s : State) (i : Nat) (x : Byte) (value : List Byte) : (s.setShare i x value).len = s.len := rfl
@[simp] theorem State.setShare_thr (s : State) (i : Nat) (x : Byte) (value : List Byte) : (s.setShare i x value).thr = s.thr := rfl
@[simp] theorem State.setShare_cnt (s : State) (i : Nat) (x : Byte) (value : List Byte) : (s.setShare i x value).cnt = s.cnt := rfl
@[simp] theorem State.setShare_scnt (s : State) (i : Nat) (x : Byte) (value : List Byte) : (s.setShare i x value).scnt = s.scnt := rfl
@[simp] theorem State.setShare_xsel (s : State) (i : Nat) (x : Byte) (value : List Byte) : (s.setShare i x value).xsel = s.xsel := rfl
@[simp] theorem State.setShare_ident (s : State) (i : Nat) (x : Byte) (value : List Byte) : (s.setShare i x value).ident = s.ident := rfl
@[simp] theorem State.setShare_itexp (s : State) (i : Nat) (x : Byte) (value : List Byte) : (s.setShare i x value).itexp = s.itexp := rfl
@[simp] theorem State.setShare_plen (s : State) (i : Nat) (x : Byte) (value : List Byte) : (s.setShare i x value).plen = s.plen := rfl
@[simp] theorem State.setShare_wlen (s : State) (i : Nat) (x : Byte) (value : List Byte) : (s.setShare i x value).wlen = s.wlen := rfl
@[simp] theorem State.setShare_chk (s : State) (i : Nat) (x : Byte) (value : List Byte) : (s.setShare i x value).chk = s.chk := rfl
@[simp] theorem State.setShare_shx (s : State) (i : Nat) (x : Byte) (value : List Byte) : (s.setShare i x value).shx = s.shx.setIfInBounds i x := rfl
@[simp] theorem State.setShare_mem (s : State) (i : Nat) (x : Byte) (value : List Byte) : (s.setShare i x value).mem = s.mem.writeBytes (shvBase i) value := rfl
@[simp] theorem State.setShare_wbuf (s : State) (i : Nat) (x : Byte) (value : List Byte) : (s.setShare i x value).wbuf = s.wbuf := rfl
@[simp] theorem State.setShare_host (s : State) (i : Nat) (x : Byte) (value : List Byte) : (s.setShare i x value).host = s.host := rfl
@[simp] theorem State.setShare_random (s : State) (i : Nat) (x : Byte) (value : List Byte) : (s.setShare i x value).random = s.random := rfl

/-! ### `State.returnToHost` -/

@[simp] theorem State.returnToHost_cfg (s : State) (v : Word) : (s.returnToHost v).cfg = s.cfg := rfl
@[simp] theorem State.returnToHost_status (s : State) (v : Word) : (s.returnToHost v).status = s.status := rfl
@[simp] theorem State.returnToHost_gfa (s : State) (v : Word) : (s.returnToHost v).gfa = s.gfa := rfl
@[simp] theorem State.returnToHost_gfb (s : State) (v : Word) : (s.returnToHost v).gfb = s.gfb := rfl
@[simp] theorem State.returnToHost_gfr (s : State) (v : Word) : (s.returnToHost v).gfr = s.gfr := rfl
@[simp] theorem State.returnToHost_len (s : State) (v : Word) : (s.returnToHost v).len = s.len := rfl
@[simp] theorem State.returnToHost_thr (s : State) (v : Word) : (s.returnToHost v).thr = s.thr := rfl
@[simp] theorem State.returnToHost_cnt (s : State) (v : Word) : (s.returnToHost v).cnt = s.cnt := rfl
@[simp] theorem State.returnToHost_scnt (s : State) (v : Word) : (s.returnToHost v).scnt = s.scnt := rfl
@[simp] theorem State.returnToHost_xsel (s : State) (v : Word) : (s.returnToHost v).xsel = s.xsel := rfl
@[simp] theorem State.returnToHost_ident (s : State) (v : Word) : (s.returnToHost v).ident = s.ident := rfl
@[simp] theorem State.returnToHost_itexp (s : State) (v : Word) : (s.returnToHost v).itexp = s.itexp := rfl
@[simp] theorem State.returnToHost_plen (s : State) (v : Word) : (s.returnToHost v).plen = s.plen := rfl
@[simp] theorem State.returnToHost_wlen (s : State) (v : Word) : (s.returnToHost v).wlen = s.wlen := rfl
@[simp] theorem State.returnToHost_chk (s : State) (v : Word) : (s.returnToHost v).chk = s.chk := rfl
@[simp] theorem State.returnToHost_shx (s : State) (v : Word) : (s.returnToHost v).shx = s.shx := rfl
@[simp] theorem State.returnToHost_mem (s : State) (v : Word) : (s.returnToHost v).mem = s.mem := rfl
@[simp] theorem State.returnToHost_wbuf (s : State) (v : Word) : (s.returnToHost v).wbuf = s.wbuf := rfl
@[simp] theorem State.returnToHost_host (s : State) (v : Word) : (s.returnToHost v).host = { s.host with returned := v :: s.host.returned } := rfl
@[simp] theorem State.returnToHost_random (s : State) (v : Word) : (s.returnToHost v).random = s.random := rfl

/-! ### `State.pendCommand` -/

@[simp] theorem State.pendCommand_cfg (s : State) (c : Word) : (s.pendCommand c).cfg = s.cfg := rfl
@[simp] theorem State.pendCommand_status (s : State) (c : Word) : (s.pendCommand c).status = s.status := rfl
@[simp] theorem State.pendCommand_gfa (s : State) (c : Word) : (s.pendCommand c).gfa = s.gfa := rfl
@[simp] theorem State.pendCommand_gfb (s : State) (c : Word) : (s.pendCommand c).gfb = s.gfb := rfl
@[simp] theorem State.pendCommand_gfr (s : State) (c : Word) : (s.pendCommand c).gfr = s.gfr := rfl
@[simp] theorem State.pendCommand_len (s : State) (c : Word) : (s.pendCommand c).len = s.len := rfl
@[simp] theorem State.pendCommand_thr (s : State) (c : Word) : (s.pendCommand c).thr = s.thr := rfl
@[simp] theorem State.pendCommand_cnt (s : State) (c : Word) : (s.pendCommand c).cnt = s.cnt := rfl
@[simp] theorem State.pendCommand_scnt (s : State) (c : Word) : (s.pendCommand c).scnt = s.scnt := rfl
@[simp] theorem State.pendCommand_xsel (s : State) (c : Word) : (s.pendCommand c).xsel = s.xsel := rfl
@[simp] theorem State.pendCommand_ident (s : State) (c : Word) : (s.pendCommand c).ident = s.ident := rfl
@[simp] theorem State.pendCommand_itexp (s : State) (c : Word) : (s.pendCommand c).itexp = s.itexp := rfl
@[simp] theorem State.pendCommand_plen (s : State) (c : Word) : (s.pendCommand c).plen = s.plen := rfl
@[simp] theorem State.pendCommand_wlen (s : State) (c : Word) : (s.pendCommand c).wlen = s.wlen := rfl
@[simp] theorem State.pendCommand_chk (s : State) (c : Word) : (s.pendCommand c).chk = s.chk := rfl
@[simp] theorem State.pendCommand_shx (s : State) (c : Word) : (s.pendCommand c).shx = s.shx := rfl
@[simp] theorem State.pendCommand_mem (s : State) (c : Word) : (s.pendCommand c).mem = s.mem := rfl
@[simp] theorem State.pendCommand_wbuf (s : State) (c : Word) : (s.pendCommand c).wbuf = s.wbuf := rfl
@[simp] theorem State.pendCommand_host (s : State) (c : Word) : (s.pendCommand c).host = { s.host with pending := .write Element.cmd.offset .word c :: s.host.pending } := rfl
@[simp] theorem State.pendCommand_random (s : State) (c : Word) : (s.pendCommand c).random = s.random := rfl

/-! ### `State.withScript` -/

@[simp] theorem State.withScript_cfg (s : State) (script : List HostStep) : (s.withScript script).cfg = s.cfg := rfl
@[simp] theorem State.withScript_status (s : State) (script : List HostStep) : (s.withScript script).status = s.status := rfl
@[simp] theorem State.withScript_gfa (s : State) (script : List HostStep) : (s.withScript script).gfa = s.gfa := rfl
@[simp] theorem State.withScript_gfb (s : State) (script : List HostStep) : (s.withScript script).gfb = s.gfb := rfl
@[simp] theorem State.withScript_gfr (s : State) (script : List HostStep) : (s.withScript script).gfr = s.gfr := rfl
@[simp] theorem State.withScript_len (s : State) (script : List HostStep) : (s.withScript script).len = s.len := rfl
@[simp] theorem State.withScript_thr (s : State) (script : List HostStep) : (s.withScript script).thr = s.thr := rfl
@[simp] theorem State.withScript_cnt (s : State) (script : List HostStep) : (s.withScript script).cnt = s.cnt := rfl
@[simp] theorem State.withScript_scnt (s : State) (script : List HostStep) : (s.withScript script).scnt = s.scnt := rfl
@[simp] theorem State.withScript_xsel (s : State) (script : List HostStep) : (s.withScript script).xsel = s.xsel := rfl
@[simp] theorem State.withScript_ident (s : State) (script : List HostStep) : (s.withScript script).ident = s.ident := rfl
@[simp] theorem State.withScript_itexp (s : State) (script : List HostStep) : (s.withScript script).itexp = s.itexp := rfl
@[simp] theorem State.withScript_plen (s : State) (script : List HostStep) : (s.withScript script).plen = s.plen := rfl
@[simp] theorem State.withScript_wlen (s : State) (script : List HostStep) : (s.withScript script).wlen = s.wlen := rfl
@[simp] theorem State.withScript_chk (s : State) (script : List HostStep) : (s.withScript script).chk = s.chk := rfl
@[simp] theorem State.withScript_shx (s : State) (script : List HostStep) : (s.withScript script).shx = s.shx := rfl
@[simp] theorem State.withScript_mem (s : State) (script : List HostStep) : (s.withScript script).mem = s.mem := rfl
@[simp] theorem State.withScript_wbuf (s : State) (script : List HostStep) : (s.withScript script).wbuf = s.wbuf := rfl
@[simp] theorem State.withScript_host (s : State) (script : List HostStep) : (s.withScript script).host = { s.host with pending := s.host.pending ++ script } := rfl
@[simp] theorem State.withScript_random (s : State) (script : List HostStep) : (s.withScript script).random = s.random := rfl

/-! ### `State.withDraws` -/

@[simp] theorem State.withDraws_cfg (s : State) (answers : List Byte) : (s.withDraws answers).cfg = s.cfg := rfl
@[simp] theorem State.withDraws_status (s : State) (answers : List Byte) : (s.withDraws answers).status = s.status := rfl
@[simp] theorem State.withDraws_gfa (s : State) (answers : List Byte) : (s.withDraws answers).gfa = s.gfa := rfl
@[simp] theorem State.withDraws_gfb (s : State) (answers : List Byte) : (s.withDraws answers).gfb = s.gfb := rfl
@[simp] theorem State.withDraws_gfr (s : State) (answers : List Byte) : (s.withDraws answers).gfr = s.gfr := rfl
@[simp] theorem State.withDraws_len (s : State) (answers : List Byte) : (s.withDraws answers).len = s.len := rfl
@[simp] theorem State.withDraws_thr (s : State) (answers : List Byte) : (s.withDraws answers).thr = s.thr := rfl
@[simp] theorem State.withDraws_cnt (s : State) (answers : List Byte) : (s.withDraws answers).cnt = s.cnt := rfl
@[simp] theorem State.withDraws_scnt (s : State) (answers : List Byte) : (s.withDraws answers).scnt = s.scnt := rfl
@[simp] theorem State.withDraws_xsel (s : State) (answers : List Byte) : (s.withDraws answers).xsel = s.xsel := rfl
@[simp] theorem State.withDraws_ident (s : State) (answers : List Byte) : (s.withDraws answers).ident = s.ident := rfl
@[simp] theorem State.withDraws_itexp (s : State) (answers : List Byte) : (s.withDraws answers).itexp = s.itexp := rfl
@[simp] theorem State.withDraws_plen (s : State) (answers : List Byte) : (s.withDraws answers).plen = s.plen := rfl
@[simp] theorem State.withDraws_wlen (s : State) (answers : List Byte) : (s.withDraws answers).wlen = s.wlen := rfl
@[simp] theorem State.withDraws_chk (s : State) (answers : List Byte) : (s.withDraws answers).chk = s.chk := rfl
@[simp] theorem State.withDraws_shx (s : State) (answers : List Byte) : (s.withDraws answers).shx = s.shx := rfl
@[simp] theorem State.withDraws_mem (s : State) (answers : List Byte) : (s.withDraws answers).mem = s.mem := rfl
@[simp] theorem State.withDraws_wbuf (s : State) (answers : List Byte) : (s.withDraws answers).wbuf = s.wbuf := rfl
@[simp] theorem State.withDraws_host (s : State) (answers : List Byte) : (s.withDraws answers).host = s.host := rfl
@[simp] theorem State.withDraws_random (s : State) (answers : List Byte) : (s.withDraws answers).random = { s.random with answers := answers } := rfl

/-! ### `State.resetBlock` -/

@[simp] theorem State.resetBlock_cfg (s : State) : s.resetBlock.cfg = s.cfg := rfl
@[simp] theorem State.resetBlock_status (s : State) : s.resetBlock.status = 0 := rfl
@[simp] theorem State.resetBlock_mem (s : State) : s.resetBlock.mem = [] := rfl
@[simp] theorem State.resetBlock_wbuf (s : State) : s.resetBlock.wbuf = [] := rfl
@[simp] theorem State.resetBlock_host (s : State) : s.resetBlock.host = s.host := rfl
@[simp] theorem State.resetBlock_random (s : State) : s.resetBlock.random = s.random := rfl

/-! ### `State.setShares` -/

@[simp] theorem State.setShares_cfg (ps : List Point) (i : Nat) (s : State) : (s.setShares i ps).cfg = s.cfg := by
  induction ps generalizing i s with
  | nil => rfl
  | cons p ps ih => simp [State.setShares, ih]
@[simp] theorem State.setShares_status (ps : List Point) (i : Nat) (s : State) : (s.setShares i ps).status = s.status := by
  induction ps generalizing i s with
  | nil => rfl
  | cons p ps ih => simp [State.setShares, ih]
@[simp] theorem State.setShares_gfa (ps : List Point) (i : Nat) (s : State) : (s.setShares i ps).gfa = s.gfa := by
  induction ps generalizing i s with
  | nil => rfl
  | cons p ps ih => simp [State.setShares, ih]
@[simp] theorem State.setShares_gfb (ps : List Point) (i : Nat) (s : State) : (s.setShares i ps).gfb = s.gfb := by
  induction ps generalizing i s with
  | nil => rfl
  | cons p ps ih => simp [State.setShares, ih]
@[simp] theorem State.setShares_gfr (ps : List Point) (i : Nat) (s : State) : (s.setShares i ps).gfr = s.gfr := by
  induction ps generalizing i s with
  | nil => rfl
  | cons p ps ih => simp [State.setShares, ih]
@[simp] theorem State.setShares_len (ps : List Point) (i : Nat) (s : State) : (s.setShares i ps).len = s.len := by
  induction ps generalizing i s with
  | nil => rfl
  | cons p ps ih => simp [State.setShares, ih]
@[simp] theorem State.setShares_thr (ps : List Point) (i : Nat) (s : State) : (s.setShares i ps).thr = s.thr := by
  induction ps generalizing i s with
  | nil => rfl
  | cons p ps ih => simp [State.setShares, ih]
@[simp] theorem State.setShares_cnt (ps : List Point) (i : Nat) (s : State) : (s.setShares i ps).cnt = s.cnt := by
  induction ps generalizing i s with
  | nil => rfl
  | cons p ps ih => simp [State.setShares, ih]
@[simp] theorem State.setShares_scnt (ps : List Point) (i : Nat) (s : State) : (s.setShares i ps).scnt = s.scnt := by
  induction ps generalizing i s with
  | nil => rfl
  | cons p ps ih => simp [State.setShares, ih]
@[simp] theorem State.setShares_xsel (ps : List Point) (i : Nat) (s : State) : (s.setShares i ps).xsel = s.xsel := by
  induction ps generalizing i s with
  | nil => rfl
  | cons p ps ih => simp [State.setShares, ih]
@[simp] theorem State.setShares_ident (ps : List Point) (i : Nat) (s : State) : (s.setShares i ps).ident = s.ident := by
  induction ps generalizing i s with
  | nil => rfl
  | cons p ps ih => simp [State.setShares, ih]
@[simp] theorem State.setShares_itexp (ps : List Point) (i : Nat) (s : State) : (s.setShares i ps).itexp = s.itexp := by
  induction ps generalizing i s with
  | nil => rfl
  | cons p ps ih => simp [State.setShares, ih]
@[simp] theorem State.setShares_plen (ps : List Point) (i : Nat) (s : State) : (s.setShares i ps).plen = s.plen := by
  induction ps generalizing i s with
  | nil => rfl
  | cons p ps ih => simp [State.setShares, ih]
@[simp] theorem State.setShares_wlen (ps : List Point) (i : Nat) (s : State) : (s.setShares i ps).wlen = s.wlen := by
  induction ps generalizing i s with
  | nil => rfl
  | cons p ps ih => simp [State.setShares, ih]
@[simp] theorem State.setShares_chk (ps : List Point) (i : Nat) (s : State) : (s.setShares i ps).chk = s.chk := by
  induction ps generalizing i s with
  | nil => rfl
  | cons p ps ih => simp [State.setShares, ih]
@[simp] theorem State.setShares_wbuf (ps : List Point) (i : Nat) (s : State) : (s.setShares i ps).wbuf = s.wbuf := by
  induction ps generalizing i s with
  | nil => rfl
  | cons p ps ih => simp [State.setShares, ih]
@[simp] theorem State.setShares_host (ps : List Point) (i : Nat) (s : State) : (s.setShares i ps).host = s.host := by
  induction ps generalizing i s with
  | nil => rfl
  | cons p ps ih => simp [State.setShares, ih]
@[simp] theorem State.setShares_random (ps : List Point) (i : Nat) (s : State) : (s.setShares i ps).random = s.random := by
  induction ps generalizing i s with
  | nil => rfl
  | cons p ps ih => simp [State.setShares, ih]

/-- A command clears RES and ERR and keeps all else, so beginning twice is beginning once. -/
theorem State.ext_status {s t : State} (h : { t with status := s.status } = s) : t = { s with status := t.status } := by
  rw [← h]

end Sys2Proof.Machine
end

