-- ==== Sys2Proof/Laws/Flags.lean ====
section
/-! SUPPORT. The fields of a packed STATUS word, and of STATUS after each way a command can end (spec/10_state R34,
spec/60_exceptions R201). -/

namespace Sys2Proof.Machine

/-! ### The fields of `packStatus` -/

@[simp] theorem packStatus_err (err : BitVec 8) (res tok sticky : Bool) :
    (packStatus err res tok sticky).extractLsb' 0 8 = err := by
  revert err res tok sticky; decide +kernel

theorem packStatus_res (err : BitVec 8) (res tok sticky : Bool) :
    (packStatus err res tok sticky).getLsbD 8 = res := by
  revert err res tok sticky; decide +kernel

theorem packStatus_tok (err : BitVec 8) (res tok sticky : Bool) :
    (packStatus err res tok sticky).getLsbD 9 = tok := by
  revert err res tok sticky; decide +kernel

theorem packStatus_sticky (err : BitVec 8) (res tok sticky : Bool) :
    (packStatus err res tok sticky).getLsbD 10 = sticky := by
  revert err res tok sticky; decide +kernel

/-- STATUS is its four fields and nothing else (R34: bits 31:11 read as zero). -/
theorem packStatus_fields (s : State) : packStatus s.err s.res s.tok s.sticky = s.status := by
  obtain ⟨_, status⟩ := s
  simp only [State.err, State.res, State.tok, State.sticky]
  revert status; decide +kernel

/-- The fields of a state whose STATUS is a packed word. -/
theorem fields_of_status {s : State} {err : BitVec 8} {res tok sticky : Bool}
    (h : s.status = packStatus err res tok sticky) :
    s.err = err ∧ s.res = res ∧ s.tok = tok ∧ s.sticky = sticky := by
  unfold State.err State.res State.tok State.sticky
  rw [h]
  exact ⟨packStatus_err .., packStatus_res .., packStatus_tok .., packStatus_sticky ..⟩

/-! ### After `beginCommand` (R203 step 1) -/

@[simp] theorem State.beginCommand_err (s : State) : s.beginCommand.err = 0 := packStatus_err ..
@[simp] theorem State.beginCommand_res (s : State) : s.beginCommand.res = false := packStatus_res ..
@[simp] theorem State.beginCommand_tok (s : State) : s.beginCommand.tok = s.tok := packStatus_tok ..
@[simp] theorem State.beginCommand_sticky (s : State) : s.beginCommand.sticky = s.sticky := packStatus_sticky ..

/-! ### After `takeError` (R201) -/

@[simp] theorem State.takeError_err (s : State) (e : CmdError) : (s.takeError e).err = e.code := packStatus_err ..
@[simp] theorem State.takeError_res (s : State) (e : CmdError) : (s.takeError e).res = false := packStatus_res ..
@[simp] theorem State.takeError_tok (s : State) (e : CmdError) : (s.takeError e).tok = s.tok := packStatus_tok ..
@[simp] theorem State.takeError_sticky (s : State) (e : CmdError) : (s.takeError e).sticky = true :=
  packStatus_sticky ..

/-- No error has code 0, so ERR = 0 says that a command completed (R200). -/
theorem CmdError.code_ne_zero (e : CmdError) : e.code ≠ 0 := by cases e <;> decide

/-- Two errors with one code are one error (R200). -/
theorem CmdError.code_injective {e f : CmdError} (h : e.code = f.code) : e = f := by
  revert h; cases e <;> cases f <;> decide

/-! ### After `setSecret` -/

@[simp] theorem State.setSecret_err (s : State) (bytes : List Byte) : (s.setSecret bytes).err = s.err := rfl
@[simp] theorem State.setSecret_res (s : State) (bytes : List Byte) : (s.setSecret bytes).res = s.res := rfl
@[simp] theorem State.setSecret_tok (s : State) (bytes : List Byte) : (s.setSecret bytes).tok = s.tok := rfl
@[simp] theorem State.setSecret_sticky (s : State) (bytes : List Byte) : (s.setSecret bytes).sticky = s.sticky := rfl

end Sys2Proof.Machine
end

