-- ==== Sys2Proof/Laws/Memory.lean ====
section
/-! SUPPORT. Memories: a read after a write, the canonical form, and byte and word strings (spec/20_memory R54, R57;
spec/10_state R42). -/

namespace Sys2Proof.Machine

variable {w : Nat}

@[simp] theorem Sparse.read_nil (a : Nat) : Sparse.read ([] : Sparse w) a = 0 := rfl

theorem Sparse.read_cons (k a : Nat) (v : BitVec w) (rest : Sparse w) :
    Sparse.read ((k, v) :: rest) a = if k = a then v else Sparse.read rest a := rfl

/-! ### The canonical form -/

theorem Sparse.wfFrom_cons (lo k : Nat) (v : BitVec w) (rest : Sparse w) :
    Sparse.wfFrom lo ((k, v) :: rest) = true ↔ lo ≤ k ∧ v ≠ 0 ∧ Sparse.wfFrom (k + 1) rest = true := by
  simp [Sparse.wfFrom, unlisted, and_assoc]

theorem Sparse.wfFrom_mono {lo lo' : Nat} (h : lo' ≤ lo) :
    ∀ {m : Sparse w}, Sparse.wfFrom lo m = true → Sparse.wfFrom lo' m = true
  | [], _ => rfl
  | (k, v) :: rest, hm => by
    rw [Sparse.wfFrom_cons] at hm ⊢
    exact ⟨by omega, hm.2⟩

/-- Below its first key a canonical memory reads as an unlisted key does. -/
theorem Sparse.read_below {lo a : Nat} :
    ∀ {m : Sparse w}, Sparse.wfFrom lo m = true → a < lo → Sparse.read m a = 0
  | [], _, _ => rfl
  | (k, v) :: rest, hm, ha => by
    rw [Sparse.wfFrom_cons] at hm
    rw [Sparse.read_cons, if_neg (by omega)]
    exact Sparse.read_below hm.2.2 (by omega)

theorem Sparse.read_cell (k a : Nat) (v : BitVec w) (rest : Sparse w) :
    Sparse.read (Sparse.cell k v rest) a =
      if k = a then (if v = 0 then Sparse.read rest a else v) else Sparse.read rest a := by
  unfold Sparse.cell unlisted
  split <;> simp_all [Sparse.read_cons]

theorem Sparse.wfFrom_cell {lo k : Nat} {v : BitVec w} {rest : Sparse w} (h : lo ≤ k)
    (hr : Sparse.wfFrom (k + 1) rest = true) : Sparse.wfFrom lo (Sparse.cell k v rest) = true := by
  unfold Sparse.cell unlisted
  split
  · exact Sparse.wfFrom_mono (by omega) hr
  · rw [Sparse.wfFrom_cons]
    exact ⟨h, by assumption, hr⟩

/-- A write keeps the canonical form. -/
theorem Sparse.wfFrom_write {lo a : Nat} {v : BitVec w} (h : lo ≤ a) :
    ∀ {m : Sparse w}, Sparse.wfFrom lo m = true → Sparse.wfFrom lo (Sparse.write m a v) = true
  | [], _ => Sparse.wfFrom_cell h rfl
  | (k, u) :: rest, hm => by
    have hm' := hm
    rw [Sparse.wfFrom_cons] at hm'
    obtain ⟨hk, hu, hr⟩ := hm'
    unfold Sparse.write
    split
    · exact Sparse.wfFrom_cell h ((Sparse.wfFrom_cons ..).2 ⟨by omega, hu, hr⟩)
    · split
      · exact Sparse.wfFrom_cell h (by subst a; exact hr)
      · rw [Sparse.wfFrom_cons]
        exact ⟨hk, hu, Sparse.wfFrom_write (by omega) hr⟩

theorem Sparse.wf_write {m : Sparse w} (a : Nat) (v : BitVec w) (hm : m.wf = true) : (m.write a v).wf = true :=
  Sparse.wfFrom_write (Nat.zero_le a) hm

/-! ### A read after a write -/

/-- A write leaves every other key alone, in any memory. -/
theorem Sparse.read_write_other {a b : Nat} (v : BitVec w) (h : b ≠ a) :
    ∀ m : Sparse w, Sparse.read (Sparse.write m a v) b = Sparse.read m b
  | [] => by rw [Sparse.write, Sparse.read_cell, if_neg (Ne.symm h)]
  | (k, u) :: rest => by
    unfold Sparse.write
    split
    · rw [Sparse.read_cell, if_neg (Ne.symm h)]
    · split
      · rename_i hk
        rw [Sparse.read_cell, if_neg (Ne.symm h), Sparse.read_cons, if_neg (by omega)]
      · rw [Sparse.read_cons, Sparse.read_cons, Sparse.read_write_other v h rest]

theorem Sparse.read_write_same_from {lo a : Nat} (v : BitVec w) :
    ∀ {m : Sparse w}, Sparse.wfFrom lo m = true → Sparse.read (Sparse.write m a v) a = v
  | [], _ => by
    rw [Sparse.write, Sparse.read_cell, if_pos rfl]
    split <;> simp_all
  | (k, u) :: rest, hm => by
    have hm' := hm
    rw [Sparse.wfFrom_cons] at hm'
    obtain ⟨hk, hu, hr⟩ := hm'
    unfold Sparse.write
    split
    · rename_i hak
      rw [Sparse.read_cell, if_pos rfl]
      split
      · rename_i hv
        rw [hv]
        exact Sparse.read_below ((Sparse.wfFrom_cons ..).2 ⟨Nat.le_refl k, hu, hr⟩) hak
      · rfl
    · split
      · rename_i _ hak
        subst a
        rw [Sparse.read_cell, if_pos rfl]
        split
        · rename_i hv
          rw [hv]
          exact Sparse.read_below hr (Nat.lt_succ_self k)
        · rfl
      · rename_i _ hak
        rw [Sparse.read_cons, if_neg (Ne.symm hak)]
        exact Sparse.read_write_same_from v hr

/-- A read of a canonical memory gives what was written last. -/
theorem Sparse.read_write {m : Sparse w} (a b : Nat) (v : BitVec w) (hm : m.wf = true) :
    (m.write a v).read b = if b = a then v else m.read b := by
  split
  · subst b; exact Sparse.read_write_same_from v hm
  · exact Sparse.read_write_other v (by assumption) m

/-! ### The byte memory -/

theorem Memory.wf_nil : Memory.wf [] = true := rfl

@[simp] theorem Memory.read_nil (a : Nat) : Memory.read [] a = 0 := rfl

theorem Memory.wf_write {m : Memory} (a : Nat) (v : Byte) (hm : m.wf = true) : (m.write a v).wf = true :=
  Sparse.wf_write a v hm

theorem Memory.read_write {m : Memory} (a b : Nat) (v : Byte) (hm : m.wf = true) :
    (m.write a v).read b = if b = a then v else m.read b := Sparse.read_write a b v hm

theorem Memory.read_write_other (m : Memory) {a b : Nat} (v : Byte) (h : b ≠ a) : (m.write a v).read b = m.read b :=
  Sparse.read_write_other v h m

theorem Memory.wf_writeBytes {m : Memory} (a : Nat) (bs : List Byte) (hm : m.wf = true) :
    (m.writeBytes a bs).wf = true := by
  induction bs generalizing m a with
  | nil => exact hm
  | cons b bs ih => exact ih _ (Memory.wf_write _ _ hm)

/-- Storing a byte string leaves every other byte alone, in any memory. -/
theorem Memory.read_writeBytes_other (m : Memory) (a b : Nat) (bs : List Byte)
    (h : ¬(a ≤ b ∧ b < a + bs.length)) : (m.writeBytes a bs).read b = m.read b := by
  induction bs generalizing m a with
  | nil => rfl
  | cons x bs ih =>
    simp only [List.length_cons] at h
    rw [Memory.writeBytes, ih _ _ (by omega), Memory.read_write_other _ _ (by omega)]

/-- Byte k of a stored byte string. -/
theorem Memory.read_writeBytes {m : Memory} (a k : Nat) (bs : List Byte) (hm : m.wf = true) (hk : k < bs.length) :
    (m.writeBytes a bs).read (a + k) = bs[k] := by
  induction bs generalizing m a k with
  | nil => simp at hk
  | cons x bs ih =>
    rw [Memory.writeBytes]
    cases k with
    | zero =>
      rw [Memory.read_writeBytes_other _ _ _ _ (by omega)]
      simp [Memory.read_write _ _ _ hm]
    | succ k =>
      rw [show a + (k + 1) = a + 1 + k by omega, ih (a + 1) k (Memory.wf_write _ _ hm) (by simpa using hk)]
      rfl

@[simp] theorem Memory.length_readBytes (m : Memory) (a n : Nat) : (m.readBytes a n).length = n := by
  simp [Memory.readBytes]

/-- Reading a byte string back. -/
theorem Memory.readBytes_writeBytes {m : Memory} (a : Nat) (bs : List Byte) (hm : m.wf = true) :
    (m.writeBytes a bs).readBytes a bs.length = bs := by
  apply List.ext_getElem (by simp)
  intro k _ hk
  simp only [Memory.readBytes, List.getElem_map, List.getElem_range]
  exact Memory.read_writeBytes a k bs hm hk

/-- Bytes outside a stored string read as before. -/
theorem Memory.readBytes_writeBytes_other (m : Memory) (a b n : Nat) (bs : List Byte)
    (h : b + n ≤ a ∨ a + bs.length ≤ b) : (m.writeBytes a bs).readBytes b n = m.readBytes b n := by
  apply List.ext_getElem (by simp)
  intro k hk _
  simp only [Memory.length_readBytes] at hk
  simp only [Memory.readBytes, List.getElem_map, List.getElem_range]
  exact Memory.read_writeBytes_other _ _ _ _ (by omega)

/-! ### The word buffer -/

theorem wf_writeWords {m : Sparse 10} (k : Nat) (ws : List RsWord) (hm : m.wf = true) :
    (writeWords m k ws).wf = true := by
  induction ws generalizing m k with
  | nil => exact hm
  | cons x ws ih => exact ih _ (Sparse.wf_write _ _ hm)

theorem read_writeWords_other (m : Sparse 10) (k j : Nat) (ws : List RsWord)
    (h : ¬(k ≤ j ∧ j < k + ws.length)) : (writeWords m k ws).read j = m.read j := by
  induction ws generalizing m k with
  | nil => rfl
  | cons x ws ih =>
    simp only [List.length_cons] at h
    rw [writeWords, ih _ _ (by omega), Sparse.read_write_other _ (by omega)]

theorem read_writeWords {m : Sparse 10} (k j : Nat) (ws : List RsWord) (hm : m.wf = true) (hj : j < ws.length) :
    (writeWords m k ws).read (k + j) = ws[j] := by
  induction ws generalizing m k j with
  | nil => simp at hj
  | cons x ws ih =>
    rw [writeWords]
    cases j with
    | zero =>
      rw [read_writeWords_other _ _ _ _ (by omega)]
      simp [Sparse.read_write _ _ _ hm]
    | succ j =>
      rw [show k + (j + 1) = k + 1 + j by omega, ih (k + 1) j (Sparse.wf_write _ _ hm) (by simpa using hj)]
      rfl

@[simp] theorem length_readWords (m : Sparse 10) (k n : Nat) : (readWords m k n).length = n := by simp [readWords]

end Sys2Proof.Machine
end

