-- ==== Sys2Proof/Laws/Ops.lean ====
section
/-! SUPPORT. What each shared operation can do, said once: the command frame and error entry (spec/60_exceptions R201,
R203), the random source (spec/10_state R40), storing into SECRET and the share table, and one step of the host
(spec/20_memory R57). -/

namespace Sys2Proof.Machine

/-! ### The command frame -/

@[simp] theorem firstError_nil : firstError [] = none := rfl

theorem firstError_cons (b : Bool) (e : CmdError) (rest : List (Bool × CmdError)) :
    firstError ((b, e) :: rest) = if b then some e else firstError rest := rfl

/-- The first failing check of two lists is one of the first, if it has one. -/
theorem firstError_append (a b : List (Bool × CmdError)) : firstError (a ++ b) = (firstError a).or (firstError b) := by
  induction a with
  | nil => rfl
  | cons x a ih => obtain ⟨failed, e⟩ := x; cases failed <;> simp [firstError_cons, ih]

variable {checks : List (Bool × CmdError)} {body : State → Except CmdError State} {s t : State} {e : CmdError}

theorem command_of_failed_check (h : firstError checks = some e) : command checks body s = .next (s.takeError e) := by
  simp [command, h]

theorem command_of_late_error (h : firstError checks = none) (hb : body s.beginCommand = .error e) :
    command checks body s = .next (s.takeError e) := by
  simp [command, h, hb]

theorem command_of_completion (h : firstError checks = none) (hb : body s.beginCommand = .ok t) :
    command checks body s = .next t := by
  simp [command, h, hb]

/-- A command always answers a next state (spec/00_scope R8). -/
theorem command_next (checks : List (Bool × CmdError)) (body : State → Except CmdError State) (s : State) :
    ∃ t, command checks body s = .next t := by
  unfold command
  split
  · exact ⟨_, rfl⟩
  · split <;> exact ⟨_, rfl⟩

/-- All a command can do: take an error of a failing check, take an error its computation reports, or complete. -/
theorem command_cases (h : command checks body s = .next t) :
    (∃ e, firstError checks = some e ∧ t = s.takeError e) ∨
    (∃ e, firstError checks = none ∧ body s.beginCommand = .error e ∧ t = s.takeError e) ∨
    (firstError checks = none ∧ body s.beginCommand = .ok t) := by
  unfold command at h
  split at h
  · rename_i e he
    cases h
    exact .inl ⟨e, he, rfl⟩
  · rename_i he
    split at h
    · rename_i e hb
      cases h
      exact .inr (.inl ⟨e, he, hb, rfl⟩)
    · rename_i u hb
      cases h
      exact .inr (.inr ⟨he, hb⟩)

/-- Error entry, as claims say it (R201). -/
theorem endsInError_of_eq {i : Instr} (h : exec i s = .next (s.takeError e)) : EndsInError e i s :=
  ⟨_, h, by simp, by simp, by simp, by simp, rfl⟩

/-! ### The random source -/

@[simp] theorem length_draw (n : Nat) (r : RandomSource) : (draw n r).1.length = n := by simp [draw]

theorem draw_snd (n : Nat) (r : RandomSource) : (draw n r).2 = r.after n := rfl

@[simp] theorem RandomSource.after_zero (r : RandomSource) : r.after 0 = r := by simp [RandomSource.after]

theorem RandomSource.after_after (m n : Nat) (r : RandomSource) : (r.after m).after n = r.after (m + n) := by
  simp [RandomSource.after, Nat.add_assoc]

theorem RandomSource.byteAt_after (m k : Nat) (r : RandomSource) : (r.after m).byteAt k = r.byteAt (m + k) := by
  simp [RandomSource.after, RandomSource.byteAt, Nat.add_assoc]

/-- What `count` draws of `n` bytes answer, and the source after them. -/
theorem drawMany_eq (count n : Nat) (r : RandomSource) :
    drawMany count n r =
      ((List.range count).map (fun j => (List.range n).map (fun k => r.byteAt (j * n + k))), r.after (count * n)) := by
  induction count generalizing r with
  | zero => simp [drawMany]
  | succ count ih =>
    have h : (draw n r).2 = r.after n := rfl
    simp only [drawMany, h, ih, RandomSource.after_after, RandomSource.byteAt_after]
    rw [List.range_succ_eq_map]
    simp [draw, Nat.succ_mul, Nat.add_comm, Nat.add_left_comm]

/-! ### SECRET and the share table -/

theorem State.read_setSecret_other (s : State) (bytes : List Byte) (a : Nat)
    (h : ¬(secretBase ≤ a ∧ a < secretBase + bytes.length)) : (s.setSecret bytes).mem.read a = s.mem.read a :=
  Memory.read_writeBytes_other _ _ _ _ h

/-- SECRET[0..L-1] reads as the L bytes stored into it. -/
theorem State.secret_setSecret (s : State) (bytes : List Byte) (hm : s.mem.wf = true)
    (h : bytes.length = s.len.toNat) : (s.setSecret bytes).secret = bytes := by
  unfold State.secret
  rw [State.setSecret_mem, State.setSecret_len, ← h]
  exact Memory.readBytes_writeBytes _ _ hm

theorem State.wf_setShares (ps : List Point) (i : Nat) (s : State) (hm : s.mem.wf = true) :
    (s.setShares i ps).mem.wf = true := by
  induction ps generalizing i s with
  | nil => exact hm
  | cons p ps ih => exact ih _ _ (Memory.wf_writeBytes _ _ hm)

/-- Putting points into the share table leaves every byte outside their values alone. -/
theorem State.read_setShares_other (ps : List Point) (i : Nat) (s : State) (a : Nat)
    (h : ∀ j, (hj : j < ps.length) → ¬(shvBase (i + j) ≤ a ∧ a < shvBase (i + j) + ps[j].y.length)) :
    (s.setShares i ps).mem.read a = s.mem.read a := by
  induction ps generalizing i s with
  | nil => rfl
  | cons p ps ih =>
    rw [State.setShares, ih]
    · refine Memory.read_writeBytes_other _ _ _ _ ?_
      have := h 0 (by simp)
      simp only [Nat.add_zero, List.getElem_cons_zero] at this
      exact this
    · intro j hj
      have := h (j + 1) (by simpa using hj)
      rw [Nat.add_right_comm, Nat.add_assoc]
      simpa using this

theorem State.shxAt_setShare (s : State) (i j : Nat) (x : Byte) (value : List Byte) :
    (s.setShare i x value).shxAt j = if i = j ∧ j < 16 then x else s.shxAt j := by
  unfold State.shxAt
  rw [State.setShare_shx]
  by_cases hj : j < 16
  · simp only [Vector.getElem?_setIfInBounds, hj, and_true]
    by_cases h : i = j <;> simp [h, hj]
  · have : s.shx[j]? = none := by simp [hj]
    simp [hj]

/-- Putting points into the share table leaves every other x-coordinate alone. -/
theorem State.shxAt_setShares_other (ps : List Point) (i : Nat) (s : State) (j : Nat)
    (h : ¬(i ≤ j ∧ j < i + ps.length)) : (s.setShares i ps).shxAt j = s.shxAt j := by
  induction ps generalizing i s with
  | nil => rfl
  | cons p ps ih =>
    simp only [List.length_cons] at h
    rw [State.setShares, ih _ _ (by omega), State.shxAt_setShare, if_neg (by omega)]

/-- The x-coordinate of an entry put into the share table. -/
theorem State.shxAt_setShares (ps : List Point) (i j : Nat) (s : State) (hj : j < ps.length) (h : i + j < 16) :
    (s.setShares i ps).shxAt (i + j) = ps[j].x := by
  induction ps generalizing i j s with
  | nil => simp at hj
  | cons p ps ih =>
    rw [State.setShares]
    cases j with
    | zero => rw [State.shxAt_setShares_other _ _ _ _ (by omega), State.shxAt_setShare, if_pos ⟨rfl, h⟩]; rfl
    | succ j =>
      have := ih (i + 1) j (s.setShare i p.x p.y) (by simpa using hj) (by omega)
      rw [show i + (j + 1) = i + 1 + j by omega, this]
      rfl

/-! ### One step of the host -/

/-- All a step can do to the block (R57): nothing pending; a reset; a read; a write of an element other than CMD; a
write of CMD. `r` is the state with the host's step taken off. It holds of `step`, which runs commands by `exec`, and of
`stepWith hash`, which runs them by `execWith hash`. -/
theorem runPending_cases {run : Instr → State → Result} (h : runPending run s = .next t) :
    (s.host.pending = [] ∧ t = s) ∨
    ∃ (hd : HostStep) (rest : List HostStep) (r : State), s.host.pending = hd :: rest ∧
      r = { s with host := { s.host with pending := rest } } ∧
      ((hd = .reset ∧ t = r.resetBlock) ∨
       (∃ a w e, hd = .read a w ∧ elementAt s.cfg a w = some e ∧ t = r.returnToHost (readElement r e)) ∨
       (∃ a w v e, hd = .write a w v ∧ elementAt s.cfg a w = some e ∧ e ≠ .cmd ∧ t = writeElement v r e) ∨
       (∃ a w v, hd = .write a w v ∧ elementAt s.cfg a w = some .cmd ∧ runCommand run v r = .next t)) := by
  unfold runPending at h
  split at h
  · rename_i hp
    cases h
    exact .inl ⟨hp, rfl⟩
  · rename_i hd rest hp
    refine .inr ⟨hd, rest, _, hp, rfl, ?_⟩
    unfold hostStep at h
    split at h
    · cases h
      exact .inl ⟨rfl, rfl⟩
    · rename_i a w
      split at h
      · cases h
      · rename_i e he
        cases h
        exact .inr (.inl ⟨a, w, e, rfl, he, rfl⟩)
    · rename_i a w v
      split at h
      · cases h
      · rename_i he
        exact .inr (.inr (.inr ⟨a, w, v, rfl, he, h⟩))
      · rename_i e hne he
        cases h
        exact .inr (.inr (.inl ⟨a, w, v, e, rfl, he, fun hc => hne hc, rfl⟩))

/-- All a write of CMD can do (R203): IllegalCommand, or the command the word encodes. -/
theorem runCommand_cases {run : Instr → State → Result} {c : Word} (h : runCommand run c s = .next t) :
    (∃ d, decode c = .error d ∧ t = s.takeError .illegalCommand) ∨ (∃ i, decode c = .ok i ∧ run i s = .next t) := by
  unfold runCommand at h
  split at h
  · rename_i d hd
    cases h
    exact .inl ⟨d, hd, rfl⟩
  · rename_i i hi
    exact .inr ⟨i, hi, h⟩

end Sys2Proof.Machine
end

