-- ==== Sys2Proof/Laws/Operands.lean ====
section
/-! SUPPORT. What the operand checks of FENC, FDEC, SPLIT, RECOVER and INTERP report, in the terms of Safety.lean
(spec/60_exceptions R204 to R206), and the small lemmas of the operand forms. -/

namespace Sys2Proof.Machine

@[simp] theorem length_xorBytes (s t : List Byte) : (xorBytes s t).length = min s.length t.length := by
  simp [xorBytes]

@[simp] theorem State.length_secret (s : State) : s.secret.length = s.len.toNat := by
  simp [State.secret, Memory.readBytes]

@[simp] theorem State.length_passphrase (s : State) : s.passphrase.length = s.plen.toNat := by
  simp [State.passphrase, Memory.readBytes]

@[simp] theorem State.length_words (s : State) : s.words.length = s.wlen.toNat := by
  simp [State.words, readWords]

@[simp] theorem State.length_points (s : State) : s.points.length = s.scnt.toNat := by simp [State.points]

@[simp] theorem State.length_point_y (s : State) (i : Nat) : (s.point i).y.length = s.len.toNat := by
  simp [State.point, Memory.readBytes]

/-- The x-coordinates are those of the points. -/
theorem State.map_x_points (s : State) : s.points.map (fun p => p.x) = s.xs := by
  simp only [State.points, State.xs, List.map_map]
  rfl

theorem State.xs_nodup_iff (s : State) : s.xs.Nodup ↔ DistinctXs s := by
  unfold State.xs DistinctXs List.Nodup
  rw [List.pairwise_map, List.pairwise_iff_getElem]
  simp only [List.length_range, List.getElem_range]
  exact ⟨fun h j hj i hi => h i j (by omega) hj hi, fun h i j _ hj hi => h j hj i hi⟩

theorem State.xs_any_iff (s : State) : s.xs.any (fun x => decide (15 < x.toNat)) = true ↔ ¬ShareXs s := by
  simp [State.xs, ShareXs]

theorem State.passphrase_any_iff (s : State) :
    s.passphrase.any (fun c => decide (c.toNat < 32) || decide (126 < c.toNat)) = true ↔ ¬LegalCharset s := by
  simp only [State.passphrase, Memory.readBytes, LegalCharset, List.any_eq_true, List.mem_map, List.mem_range,
    Bool.or_eq_true, decide_eq_true_eq]
  constructor
  · rintro ⟨_, ⟨k, hk, rfl⟩, h⟩ hall
    have := hall k hk
    omega
  · intro h
    simp only [not_forall] at h
    obtain ⟨k, hk, h⟩ := h
    exact ⟨_, ⟨k, hk, rfl⟩, by omega⟩

/-- The length check of R204, with what the checks after it report. -/
theorem firstError_lengthChecks (s : State) (rest : List (Bool × CmdError)) :
    firstError (lengthChecks s ++ rest) =
      if ¬(16 ≤ s.len.toNat ∧ s.len.toNat ≤ s.cfg.lmax) then some .invalidSecretLength
      else if s.len.toNat % 2 = 1 then some .invalidSecretParity
      else firstError rest := by
  simp only [lengthChecks, List.cons_append, List.nil_append, firstError_cons, Bool.or_eq_true, decide_eq_true_eq,
    beq_iff_eq]
  congr 1
  simp only [eq_iff_iff]
  omega

/-- What the length check and the checks after it report is nothing exactly when LEN is legal and the others pass. -/
theorem firstError_lengthChecks_eq_none (s : State) (rest : List (Bool × CmdError)) :
    firstError (lengthChecks s ++ rest) = none ↔ LegalLength s ∧ firstError rest = none := by
  rw [firstError_lengthChecks, LegalLength]
  split
  · simp_all
  · split <;> simp_all

/-- The checks of FENC and FDEC (spec/42_feistel R136). -/
theorem firstError_cipherChecks (s : State) :
    firstError (cipherChecks s) =
      if ¬(16 ≤ s.len.toNat ∧ s.len.toNat ≤ s.cfg.lmax) then some .invalidSecretLength
      else if s.len.toNat % 2 = 1 then some .invalidSecretParity
      else if s.cfg.pmax < s.plen.toNat then some .bufferRange
      else if s.passphrase.any (fun c => decide (c.toNat < 32) || decide (126 < c.toNat)) = true then
        some .invalidPassphraseCharset
      else none := by
  rw [cipherChecks, firstError_lengthChecks]
  simp only [firstError_cons, firstError_nil, decide_eq_true_eq]

/-- FENC and FDEC pass their checks exactly when the operands are legal. -/
theorem firstError_cipherChecks_eq_none (s : State) : firstError (cipherChecks s) = none ↔ LegalCipher s := by
  rw [cipherChecks, firstError_lengthChecks_eq_none, LegalCipher]
  have h := s.passphrase_any_iff
  by_cases hp : s.cfg.pmax < s.plen.toNat
  · simp [firstError_cons, hp]
  · by_cases hc : LegalCharset s
    · have hf : s.passphrase.any (fun c => decide (c.toNat < 32) || decide (126 < c.toNat)) = false :=
        Bool.eq_false_iff.mpr (fun hn => h.mp hn hc)
      rw [firstError_cons, firstError_cons, hf]
      simp [hp, hc, Nat.le_of_not_lt hp]
    · rw [firstError_cons, firstError_cons, h.mpr hc]
      simp [hp, hc]

/-- The checks of SPLIT (spec/43_shamir_split R158). -/
theorem firstError_splitChecks (s : State) :
    firstError (splitChecks s) =
      if ¬(1 ≤ s.thr.toNat ∧ s.thr.toNat ≤ s.cnt.toNat ∧ s.cnt.toNat ≤ 16) then some .invalidShareCount
      else if ¬(16 ≤ s.len.toNat ∧ s.len.toNat ≤ s.cfg.lmax) then some .invalidSecretLength
      else if s.len.toNat % 2 = 1 then some .invalidSecretParity
      else none := by
  have h := firstError_lengthChecks s []
  rw [List.append_nil, firstError_nil] at h
  rw [splitChecks, firstError_cons, h]
  congr 1
  simp
  omega

/-- SPLIT passes its checks exactly when the operands are legal. -/
theorem firstError_splitChecks_eq_none (s : State) : firstError (splitChecks s) = none ↔ LegalSplit s := by
  have h := firstError_lengthChecks_eq_none s []
  rw [List.append_nil] at h
  rw [splitChecks, firstError_cons, LegalSplit, LegalSplitCount]
  by_cases hc : 1 ≤ s.thr.toNat ∧ s.thr.toNat ≤ s.cnt.toNat ∧ s.cnt.toNat ≤ 16
  · simp [hc, h]
  · rw [if_pos (by simp; omega)]
    simp only [hc, false_and, reduceCtorEq]

/-- The checks of RECOVER before it computes (spec/44_shamir_recover R173). -/
theorem firstError_recoverChecks (s : State) :
    firstError (recoverChecks s) =
      if ¬(1 ≤ s.thr.toNat ∧ s.thr.toNat ≤ 16) then some .invalidShareCount
      else if ¬(16 ≤ s.len.toNat ∧ s.len.toNat ≤ s.cfg.lmax) then some .invalidSecretLength
      else if s.len.toNat % 2 = 1 then some .invalidSecretParity
      else if s.scnt ≠ s.thr then some .inconsistentMnemonicSet
      else if (s.xs.any (fun x => decide (15 < x.toNat)) || !decide s.xs.Nodup) = true then some .invalidShareSet
      else none := by
  rw [recoverChecks, List.cons_append, firstError_cons, firstError_lengthChecks]
  simp only [firstError_cons, firstError_nil, Bool.or_eq_true, decide_eq_true_eq, bne_iff_ne]
  congr 1
  simp only [eq_iff_iff]
  omega

/-- RECOVER passes the checks before it computes exactly when the operands are legal. -/
theorem firstError_recoverChecks_eq_none (s : State) : firstError (recoverChecks s) = none ↔ LegalRecover s := by
  rw [recoverChecks, List.cons_append, firstError_cons, LegalRecover, ← s.xs_nodup_iff]
  have h := s.xs_any_iff
  by_cases hc : 1 ≤ s.thr.toNat ∧ s.thr.toNat ≤ 16
  · rw [if_neg (by simp; omega), firstError_lengthChecks_eq_none]
    by_cases hx : ShareXs s
    · have hf : s.xs.any (fun x => decide (15 < x.toNat)) = false := Bool.eq_false_iff.mpr (fun hn => h.mp hn hx)
      rw [firstError_cons, firstError_cons, hf]
      by_cases hn : s.xs.Nodup <;> by_cases ht : s.scnt = s.thr <;> simp [hc, hx, hn, ht]
    · rw [firstError_cons, firstError_cons, h.mpr hx]
      by_cases ht : s.scnt = s.thr <;> simp [hx, ht]
  · rw [if_pos (by simp; omega)]
    simp [hc]

/-- The checks of INTERP (R175). -/
theorem firstError_interpChecks (s : State) :
    firstError (interpChecks s) =
      if ¬(1 ≤ s.scnt.toNat ∧ s.scnt.toNat ≤ 16) then some .invalidShareCount
      else if ¬(16 ≤ s.len.toNat ∧ s.len.toNat ≤ s.cfg.lmax) then some .invalidSecretLength
      else if s.len.toNat % 2 = 1 then some .invalidSecretParity
      else if ¬s.xs.Nodup then some .invalidShareSet
      else none := by
  rw [interpChecks, List.cons_append, firstError_cons, firstError_lengthChecks]
  simp only [firstError_cons, firstError_nil, Bool.or_eq_true, decide_eq_true_eq, Bool.not_eq_true',
    decide_eq_false_iff_not]
  congr 1
  simp only [eq_iff_iff]
  omega

/-- INTERP passes its checks exactly when the operands are legal. -/
theorem firstError_interpChecks_eq_none (s : State) : firstError (interpChecks s) = none ↔ LegalInterp s := by
  rw [interpChecks, List.cons_append, firstError_cons, LegalInterp, ← s.xs_nodup_iff]
  by_cases hc : 1 ≤ s.scnt.toNat ∧ s.scnt.toNat ≤ 16
  · rw [if_neg (by simp; omega), firstError_lengthChecks_eq_none]
    by_cases hn : s.xs.Nodup <;> simp [firstError_cons, hc, hn]
  · rw [if_pos (by simp; omega)]
    simp [hc]

end Sys2Proof.Machine
end

