-- ==== Sys2Proof/Laws/Algorithms.lean ====
section
/-! SUPPORT. The small lemmas of the algorithms commands share: `polymod` (spec/41_rs1024), the Feistel rounds
(spec/42_feistel), `interpolate` and `split_secret` (spec/43_shamir_split). -/

namespace Sys2Proof.Machine

/-! ### The checksum -/

@[simp] theorem polymod_nil (gen : Vector Acc 10) : polymod gen [] = 1 := rfl

/-- polymod of a concatenation goes on from the first part's value (R112). -/
theorem polymod_append (gen : Vector Acc 10) (u v : List RsWord) :
    polymod gen (u ++ v) = v.foldl (polymodStep gen) (polymod gen u) := List.foldl_append ..

theorem verifyChecksum_iff (p : Params) (data : List RsWord) :
    verifyChecksum p data = true ↔ verifyPolymod p data = 1 := by
  simp [verifyChecksum]

/-! ### The cipher -/

/-- XOR with the same byte string twice gives back what was there. -/
theorem xorBytes_cancel (s t : List Byte) (h : s.length ≤ t.length) : xorBytes (xorBytes s t) t = s := by
  induction s generalizing t with
  | nil => rfl
  | cons a s ih =>
    cases t with
    | nil => simp at h
    | cons b t =>
      have := ih t (by simpa using h)
      simp only [xorBytes, List.zipWith_cons_cons] at this ⊢
      rw [this, BitVec.xor_assoc, BitVec.xor_self, BitVec.xor_zero]

/-- F answers as many bytes as the half has (R134). -/
@[simp] theorem length_roundFunction (hash : HashConfig) (pass : List Byte) (e : BitVec 5) (ident : BitVec 15) (i : Nat)
    (r : List Byte) : (roundFunction hash pass e ident i r).length = r.length := by
  simp [roundFunction]

/-! ### Interpolation -/

/-- A given point's value stands (R152 line 1); for a point set there is no more than one point with that x. -/
theorem interpolate_of_mem {points : List Point} {p : Point} (h : (points.map (fun p => p.x)).Nodup) (hp : p ∈ points)
    (len : Nat) : interpolate len points p.x = p.y := by
  have : points.find? (fun q => q.x == p.x) = some p := by
    induction points with
    | nil => simp at hp
    | cons q points ih =>
      rw [List.map_cons, List.nodup_cons] at h
      rcases List.mem_cons.mp hp with rfl | hp
      · simp
      · have hne : q.x ≠ p.x := fun he => h.1 (he ▸ List.mem_map.mpr ⟨p, hp, rfl⟩)
        rw [List.find?_cons_of_neg (by simpa using hne)]
        exact ih h.2 hp
  simp [interpolate, this]

/-- At any other x the algorithm of R152 lines 2 to 5 computes the value. -/
theorem interpolate_of_not_mem {points : List Point} {x : Byte} (h : x ∉ points.map (fun p => p.x)) (len : Nat) :
    interpolate len points x = (List.range len).map (interpolateByte points x) := by
  have : points.find? (fun p => p.x == x) = none := by
    rw [List.find?_eq_none]
    intro p hp he
    exact h (List.mem_map.mpr ⟨p, hp, by simpa using he⟩)
  simp [interpolate, this]

/-! ### Splitting -/

@[simp] theorem length_splitSecret (hash : HashConfig) (t n : Nat) (secret : List Byte) (rs : List (List Byte))
    (pad : List Byte) : (splitSecret hash t n secret rs pad).length = n := by
  simp [splitSecret]

/-- Share i of a split is at x = i (R157). -/
theorem getElem_splitSecret (hash : HashConfig) (t n : Nat) (secret : List Byte) (rs : List (List Byte))
    (pad : List Byte) (i : Nat) (h : i < (splitSecret hash t n secret rs pad).length) :
    (splitSecret hash t n secret rs pad)[i] = { x := BitVec.ofNat 8 i, y := shareValue hash t secret rs pad i } := by
  simp [splitSecret]

/-- A split with threshold 1 draws nothing (R156). -/
theorem splitDraws_of_lt_two {t : Nat} (h : t < 2) (l : Nat) (r : RandomSource) :
    splitDraws t l r = (([], []), r) := if_pos h

/-- The draws of a split with threshold 2 or more: T - 2 shares of L bytes, then L - 4 bytes of padding (R156). -/
theorem splitDraws_of_two_le {t : Nat} (h : 2 ≤ t) (l : Nat) (r : RandomSource) :
    splitDraws t l r =
      (((List.range (t - 2)).map (fun j => (List.range l).map (fun k => r.byteAt (j * l + k))),
        (List.range (l - 4)).map (fun k => r.byteAt ((t - 2) * l + k))), r.after ((t - 2) * l + (l - 4))) := by
  rw [splitDraws, if_neg (by omega), drawMany_eq]
  have h (m : Nat) : draw (l - 4) (r.after m) =
      ((List.range (l - 4)).map (fun k => r.byteAt (m + k)), r.after (m + (l - 4))) := by
    refine Prod.ext ?_ ((draw_snd _ _).trans (RandomSource.after_after _ _ _))
    simp [draw, RandomSource.byteAt_after]
  simp only [h]

end Sys2Proof.Machine
end

