-- ==== Sys2Proof/Laws/PerInstr.lean ====
section
/-! SUPPORT. Statements about every command as syntax, with one lemma per constructor of `Instr` (spec/30_encoding R71,
R72). -/

namespace Sys2Proof.Laws.Encoding

/-- The command is well-formed, its word decodes to it, and the word's bits 31:8 are 0 (R70 to R72). -/
def Statement (i : Instr) : Prop := i.wellFormed = true ∧ decode (encode i) = .ok i ∧ zeroField (encode i) = 0

theorem gfmul : Statement .gfmul := ⟨rfl, rfl, rfl⟩

theorem gfdiv : Statement .gfdiv := ⟨rfl, rfl, rfl⟩

theorem gftest : Statement .gftest := ⟨rfl, rfl, rfl⟩

theorem rspoly : Statement .rspoly := ⟨rfl, rfl, rfl⟩

theorem rscreate : Statement .rscreate := ⟨rfl, rfl, rfl⟩

theorem rsverify : Statement .rsverify := ⟨rfl, rfl, rfl⟩

theorem fenc : Statement .fenc := ⟨rfl, rfl, rfl⟩

theorem fdec : Statement .fdec := ⟨rfl, rfl, rfl⟩

theorem split : Statement .split := ⟨rfl, rfl, rfl⟩

theorem recover : Statement .recover := ⟨rfl, rfl, rfl⟩

theorem interp : Statement .interp := ⟨rfl, rfl, rfl⟩

end Sys2Proof.Laws.Encoding
end

