-- ==== Sys2Proof/Tests/Slice0.lean ====
section
/-! SUPPORT. Tests: ill-formed terms are refused; words written out from spec/30_encoding decode; single steps give the
values of spec/95_test_vectors (each test names its vector); and for every obligation with hypotheses, a witness that
meets them. -/

namespace Sys2Proof.Tests

open Sys2Proof Sys2Proof.Machine

/-! ### Helpers -/

/-- The block after reset, reference configuration, with the given operands of the sharing and cipher commands. -/
def block (len thr cnt scnt plen : Nat) (bytes : Memory) : State :=
  { State.reset with
    len := BitVec.ofNat 9 len, thr := BitVec.ofNat 5 thr, cnt := BitVec.ofNat 5 cnt, scnt := BitVec.ofNat 5 scnt,
    plen := BitVec.ofNat 9 plen, mem := bytes }

/-- `s` with the given points as share table entries 0, 1, .. -/
def shares (ps : List Point) (s : State) : State := s.setShares 0 ps

/-- The block with the given words in WBUF. -/
def wordBlock (ws : List RsWord) : State :=
  { State.reset with wbuf := writeWords [] 0 ws, wlen := BitVec.ofNat 10 ws.length }

/-- The block with WLEN = n and WBUF all zero. -/
def emptyWords (n : Nat) : State := { State.reset with wlen := BitVec.ofNat 10 n }

/-- The block with the given GFA and GFB. -/
def field (a b : Byte) : State := { State.reset with gfa := a, gfb := b }

/-- `s` with one host step pending. -/
def pending (h : HostStep) (s : State) : State := { s with host := { pending := [h], returned := [] } }

/-- What `f` sees of the next state, none where there is no next state. -/
def seen {α : Type} (f : State → α) : Result → Option α
  | .next t => some (f t)
  | .fault _ => none
  | .refused _ => none

/-- What `f` sees after one step that writes the word `c` to CMD. -/
def afterCmd {α : Type} (c : Nat) (f : State → α) (s : State) : Option α := seen f (step (s.withFetchWord 32 c))

/-- What a read returns after the host has written `v` to the same element. -/
def readBack (e : Element) (v : Word) : Word := readElement (writeElement v State.reset e) e

/-- Whether the host's access is refused as a bus error. -/
def busErrors (h : HostStep) : Bool :=
  match step (pending h State.reset) with
  | .refused .busError => true
  | _ => false

def ones : List Byte := List.replicate 16 0x01

/-- Vector V-S-2's shares at x = 0, 1, 2. -/
def share0 : List Byte :=
  [0x2e, 0x82, 0xe1, 0xbc, 0x49, 0xb6, 0xac, 0x53, 0x98, 0x67, 0x7d, 0x82, 0xf0, 0x0f, 0x15, 0xea]

def share1 : List Byte :=
  [0x37, 0x24, 0x8f, 0xc4, 0xe8, 0x16, 0x0f, 0xf1, 0x3d, 0xc3, 0xda, 0x24, 0x59, 0xa7, 0xbe, 0x40]

def share2 : List Byte :=
  [0x1c, 0xd5, 0x3d, 0x4c, 0x10, 0xed, 0xf1, 0x0c, 0xc9, 0x34, 0x28, 0xd5, 0xb9, 0x44, 0x58, 0xa5]

/-- V-S-2's draw, Pd. -/
def draw2 : List Byte := [0xa0, 0xa1, 0xa2, 0xa3, 0xa4, 0xa5, 0xa6, 0xa7, 0xa8, 0xa9, 0xaa, 0xab]

/-- V-S-2 before the command. -/
def split2 : State := ((block 16 2 3 0 0 []).setSecret ones).withDraws draw2

/-- V-S-1 before the command. -/
def split1 : State := (block 16 1 3 0 0 []).setSecret ones

/-- V-R-1 before the command. -/
def recover2 : State := shares [⟨0, share0⟩, ⟨2, share2⟩] (block 16 2 0 2 0 [])

/-- V-R-13 before the command. -/
def recoverBad : State := shares [⟨0, []⟩, ⟨1, []⟩] (block 16 2 0 2 0 [])

/-- V-R-10 before the command. -/
def recover1 : State := shares [⟨1, ones⟩] (block 16 1 0 1 0 [])

/-! ### Well-formed terms -/

theorem test_wellFormed_access : (HostStep.read 0x1FFF .byte).wellFormed = true := by decide

theorem test_illFormed_read_outside_window : (HostStep.read 0x1FFE .word).wellFormed = false := by decide

theorem test_illFormed_write_outside_window : (HostStep.write 0x2000 .byte 0).wellFormed = false := by decide

theorem test_illFormed_byte_value : (HostStep.write 0x0100 .byte 0x100).wellFormed = false := by decide

theorem test_illFormed_half_value : (HostStep.write 0x0400 .half 0x10000).wellFormed = false := by decide

theorem test_reset_memory_wf : State.reset.mem.wf = true := by decide

theorem test_illFormed_memory_order : Memory.wf [(0x101, 1), (0x100, 1)] = false := by decide

theorem test_illFormed_memory_zero : Memory.wf [(0x100, 0)] = false := by decide

/-- The block after reset has the reference hash pair (R190). -/
theorem test_reset_hash : State.reset.cfg.hash = .reference := by decide

/-! ### Decoding (R70, R72): bits 31:8 zero, bits 7:0 the opcode -/

theorem test_decode_gfmul : decode 0b00000000000000000000000000000001 = .ok .gfmul := by decide

theorem test_decode_gfdiv : decode 0b00000000000000000000000000000010 = .ok .gfdiv := by decide

theorem test_decode_gftest : decode 0b00000000000000000000000000000011 = .ok .gftest := by decide

theorem test_decode_rspoly : decode 0b00000000000000000000000000010000 = .ok .rspoly := by decide

theorem test_decode_rscreate : decode 0b00000000000000000000000000010001 = .ok .rscreate := by decide

theorem test_decode_rsverify : decode 0b00000000000000000000000000010010 = .ok .rsverify := by decide

theorem test_decode_fenc : decode 0b00000000000000000000000000100000 = .ok .fenc := by decide

theorem test_decode_fdec : decode 0b00000000000000000000000000100001 = .ok .fdec := by decide

theorem test_decode_split : decode 0b00000000000000000000000000110000 = .ok .split := by decide

theorem test_decode_recover : decode 0b00000000000000000000000000110001 = .ok .recover := by decide

theorem test_decode_interp : decode 0b00000000000000000000000000110010 = .ok .interp := by decide

/-- V-E-3. -/
theorem test_decode_unassigned :
    [0x04, 0x13, 0x22, 0x33, 0xFF].all (fun c => (decode c).toOption == none) = true := by decide

/-- V-E-2: OPC is GFMUL's and ZERO is not 0. -/
theorem test_decode_zero_field : decode 0x00000101 = .error .zeroFieldNotZero := by decide

theorem test_opcodes_distinct : (opcodeMap.map (fun row => row.1)).Nodup := by decide

/-! ### U1 -/

/-- Program P1: 178 + 80 = 258, mod 255 = 3. -/
theorem test_gfmul_wraps : afterCmd 0x01 State.gfr (field 0xC1 0x83) = some 0x0F := by decide +kernel

/-- V-GF-4 to V-GF-16 in part: 0x57 · 0x83. -/
theorem test_gfmul_57_83 : afterCmd 0x01 State.gfr (field 0x57 0x83) = some 0xC1 := by decide +kernel

/-- V-GF-28: 0 - 7 = -7, mod 255 = 248. -/
theorem test_gfdiv_negative : afterCmd 0x02 State.gfr (field 0x01 0xFF) = some 0x1C := by decide +kernel

/-- V-GF-30: 0 / 0 is an error; GFR stays. -/
theorem test_gfdiv_by_zero : afterCmd 0x02 (fun t => (t.status, t.gfr)) (field 0 0) = some (0x411, 0) := by decide +kernel

/-- V-GF-31: GFTEST after V-GF-29. -/
theorem test_gftest : afterCmd 0x03 State.status { State.reset with status := 0x411 } = some 0x600 := by decide +kernel

/-! ### U2 -/

/-- V-RS-5. -/
theorem test_rspoly : afterCmd 0x10 State.chk (wordBlock [0, 1, 2, 3]) = some 0x06D44B83 := by decide +kernel

/-- V-E-29. -/
theorem test_rspoly_range : afterCmd 0x10 State.status (emptyWords 65) = some 0x412 := by decide +kernel

/-- V-RS-15. -/
theorem test_rscreate :
    afterCmd 0x11 (fun t => (t.wlen, t.words, t.chk)) (wordBlock [0, 1, 2, 3]) =
      some (7, [0, 1, 2, 3, 516, 196, 110], 0x2043106F) := by decide +kernel

/-- V-RS-17, the largest legal WLEN. -/
theorem test_rscreate_largest :
    afterCmd 0x11 (fun t => (t.wlen, t.words.drop 61)) (emptyWords 61) = some (64, [165, 727, 556]) := by decide +kernel

/-- V-RS-15 and V-RS-8. -/
theorem test_rsverify_valid :
    afterCmd 0x12 (fun t => (t.status, t.chk)) (wordBlock [0, 1, 2, 3, 516, 196, 110]) = some (0x100, 1) := by
  decide +kernel

theorem test_rsverify_flipped :
    afterCmd 0x12 (fun t => (t.status, t.chk)) (wordBlock [1, 1, 2, 3, 516, 196, 110]) = some (0, 0x1067D3B8) := by
  decide +kernel

/-! ### The hash primitives -/

/-- V-H-3. -/
theorem test_hmac :
    (hmacSha256 (List.replicate 12 0) (List.replicate 16 0)).toList.take 4 = [0x85, 0x3c, 0x74, 0x03] := by
  decide +kernel

/-- V-H-5, its first eight bytes: dkLen = 8. -/
theorem test_pbkdf2 :
    (pbkdf2HmacSha256 [0x70, 0x61, 0x73, 0x73, 0x77, 0x6f, 0x72, 0x64] [0x73, 0x61, 0x6c, 0x74] 1 8).toList =
      [0x12, 0x0f, 0xb6, 0xcf, 0xfc, 0xf8, 0xb3, 0x2c] := by decide +kernel

/-! ### U3: the traces of V-F-1 and V-F-5, with F's values taken from them -/

/-- Column F of V-F-5, as a round function. -/
def trace5 : Nat → List Byte → List Byte
  | 0, _ => [0x17, 0x1c, 0xbf, 0x5d, 0x7c, 0x6b, 0xc7, 0x5d]
  | 1, _ => [0x6a, 0xb6, 0xd2, 0xb6, 0x3b, 0xd2, 0xca, 0xd4]
  | 2, _ => [0x00, 0x68, 0x0e, 0xfe, 0x7c, 0x5c, 0x85, 0x2f]
  | _, _ => [0x53, 0x9d, 0xeb, 0x8a, 0xa5, 0xff, 0xcb, 0x33]

/-- V-F-5, the output. -/
def cipher5 : List Byte :=
  [0x38, 0x2a, 0x38, 0x3d, 0x9f, 0x2c, 0x00, 0xe6, 0x16, 0x75, 0xb0, 0xa2, 0x01, 0x36, 0x43, 0x73]

theorem test_encrypt_trace : feistelEncrypt trace5 ones = cipher5 := by decide

theorem test_decrypt_trace : feistelDecrypt trace5 cipher5 = ones := by decide

/-- V-F-3: IDENT = 0x1234 gives salt bytes 12 34. -/
theorem test_ident_bytes : idBytes 0x1234 = [0x12, 0x34] := by decide

/-- V-E-25, range before charset with SECRET unchanged; and V-E-24. -/
theorem test_fenc_errors :
    afterCmd 0x20 (fun t => (t.status, t.mem)) (block 16 0 0 0 65 [(0x200, 0x1F)]) =
      some (0x412, [(0x200, 0x1F)]) ∧
    afterCmd 0x20 State.status (block 16 0 0 0 1 [(0x200, 0x7F)]) = some 0x403 := by decide +kernel

/-- A hash pair that answers zeros: another instance of R190. -/
def zeroHash : HashConfig :=
  { hmac := fun _ _ => Vector.replicate 32 0, pbkdf2 := fun _ _ _ n => Vector.replicate n 0 }

/-- By hand from R133 and R135: with F = 0 the four rounds give the halves back, and the output is IR ++ IL. -/
theorem test_fenc_zero_hash :
    seen State.secret (stepWith zeroHash (((block 16 0 0 0 0 []).setSecret cipher5).withFetchWord 32 0x20)) =
      some (cipher5.drop 8 ++ cipher5.take 8) := by decide +kernel

/-- V-E-26: parity before range. -/
theorem test_fdec_parity : afterCmd 0x21 State.status (block 17 0 0 0 65 []) = some 0x402 := by decide +kernel

/-- V-E-27: 0x20 and 0x7E are legal, so FDEC completes. -/
theorem test_fdec_completes :
    ∃ t, exec .fdec (block 16 0 0 0 2 [(0x200, 0x20), (0x201, 0x7E)]) = .next t ∧ t.err = 0 := by
  rw [exec, execFdec]
  refine ⟨_, command_of_completion (by decide +kernel) rfl, ?_⟩
  rw [State.setSecret_err, State.beginCommand_err]

/-! ### U4 -/

/-- V-S-2. -/
theorem test_split_two_of_three :
    afterCmd 0x30 (fun t => (t.points, t.scnt, t.random)) split2 =
      some ([⟨0, share0⟩, ⟨1, share1⟩, ⟨2, share2⟩], 3, { answers := [], drawn := 12 }) := by decide +kernel

/-- V-S-1: three copies and no draw. -/
theorem test_split_one :
    afterCmd 0x30 (fun t => (t.points, t.random.drawn)) split1 =
      some ([⟨0, ones⟩, ⟨1, ones⟩, ⟨2, ones⟩], 0) := by decide +kernel

/-! ### U5 -/

/-- V-R-1. -/
theorem test_recover : afterCmd 0x31 (fun t => (t.status, t.secret)) recover2 = some (0, ones) := by decide +kernel

/-- V-R-13: InvalidDigest, SECRET unchanged. -/
theorem test_recover_digest : afterCmd 0x31 (fun t => (t.status, t.mem)) recoverBad = some (0x40C, []) := by
  decide +kernel

/-- V-I-2 with every value replicated over 16 bytes, at x = 1, where the intermediate sums are negative. -/
theorem test_interp_negative :
    afterCmd 0x32 State.secret
      { shares [⟨0, List.replicate 16 0x05⟩, ⟨3, List.replicate 16 0x07⟩, ⟨7, List.replicate 16 0x0B⟩]
          (block 16 0 0 3 0 []) with xsel := 1 } = some (List.replicate 16 0x05) := by decide +kernel

/-- V-E-20: x = 16 is legal for INTERP; XSEL is a given x-coordinate, whose value stands. -/
theorem test_interp_given :
    afterCmd 0x32 (fun t => (t.status, t.secret))
      { shares [⟨0, share0⟩, ⟨16, share1⟩] (block 16 0 0 2 0 []) with xsel := 16 } = some (0, share1) := by
  decide +kernel

/-! ### The bus -/

/-- V-W-1 to V-W-7. -/
theorem test_write_masks :
    [readBack .gfa 0x1FF, readBack .len 0xFFFFFFFF, readBack .thr 0x21, readBack .ident 0xFFFF, readBack .itexp 32,
     readBack .wlen 0x7FF, readBack .plen 0x3FF, readBack .xsel 0x1FF, readBack (.shx 3) 0x1234,
     readBack (.wbuf 0) 0xFFFF] =
    [0xFF, 0x1FF, 1, 0x7FFF, 0, 0x3FF, 0x1FF, 0xFF, 0x34, 0x3FF] := by decide

/-- V-W-8, V-W-9. -/
theorem test_read_only :
    [readBack .status 0xFFFFFFFF, readBack .gfr 0xFF, readBack .chk 1, readBack .cmd 0xFF] = [0, 0, 0, 0] := by decide

/-- The bus errors listed in spec/95_test_vectors 2.7. -/
theorem test_bus_errors :
    [HostStep.read 0x0004 .byte, .write 0x0100 .word 1, .read 0x003C .word, .read 0x0080 .word, .write 0x0401 .half 1,
     .read 0x0120 .byte, .write 0x0480 .half 1, .read 0x0006 .word].all busErrors = true := by decide

/-- The last byte of SECRET and the last word of WBUF are there. -/
theorem test_last_elements :
    [HostStep.read 0x011F .byte, .read 0x047E .half, .read 0x1F1F .byte].any busErrors = false := by decide

/-! ### Witnesses: for each obligation with hypotheses, states and operands that meet them, clause by clause -/

theorem witness_DecodeAcceptsExactlyTheCommandWords :
    (∃ w : Word, w = encode .gfmul) ∧ (∃ w : Word, w = encode .interp) ∧ (∀ i : Instr, (0x33 : Word) ≠ encode i) :=
  ⟨⟨_, rfl⟩, ⟨_, rfl⟩, fun i => by cases i <;> decide⟩

theorem witness_CmdWriteRunsDecodedCommand :
    (decode 0x32 = .ok .interp ∧
      (pending (.write 0 .word 0x32) State.reset).host.pending = .write 0x0000 .word 0x32 :: []) ∧
    decodeTableWord 32 0x01 = some .gfmul ∧
    (pending (.read 0 .word) State.reset).host.pending = .read 0x0000 .word :: [] := by decide

theorem witness_StepTakesTheHashConfiguration :
    State.reset.cfg.hash = .reference ∧
    (Instr.interp ≠ .fenc ∧ Instr.interp ≠ .fdec ∧ Instr.interp ≠ .split ∧ Instr.interp ≠ .recover) ∧
    decode 0x20 = .ok .fenc ∧
    (pending (.write 0 .word 0x20) State.reset).host.pending = .write 0x0000 .word 0x20 :: [] := by decide

theorem witness_IllegalWordOnlyRecordsTheError :
    (∀ i : Instr, (0x101 : Word) ≠ encode i) ∧
    (pending (.write 0 .word 0x101) State.reset).host.pending = .write 0x0000 .word 0x101 :: [] :=
  ⟨fun i => by cases i <;> decide, rfl⟩

theorem witness_LegalReadReturnsTheElement :
    (Element.wbuf 63).Mapped State.reset.cfg ∧
    (pending (.read 0x047E .half) State.reset).host.pending =
      .read (Element.wbuf 63).offset (Element.wbuf 63).width :: [] :=
  ⟨by unfold Element.Mapped; decide, by decide⟩

theorem witness_LegalWriteStoresTheElement :
    (Element.shv 15 31).Mapped State.reset.cfg ∧ Element.shv 15 31 ≠ .cmd ∧
    (pending (.write 0x1F1F .byte 0xFF) State.reset).host.pending =
      .write (Element.shv 15 31).offset (Element.shv 15 31).width 0xFF :: [] :=
  ⟨by unfold Element.Mapped; decide, by decide, by decide⟩

theorem witness_WritesKeepTheLowBits :
    ((Element.wbuf 63).Mapped State.reset.cfg ∧ Element.wbuf 63 ≠ .cmd ∧ (Element.wbuf 63).storedBits = some 10) ∧
    ((Element.gfr).Mapped State.reset.cfg ∧ Element.gfr ≠ .cmd ∧ (Element.gfr).storedBits = none) ∧
    (Element.shx 15).Mapped State.reset.cfg ∧ Element.shx 15 ≠ .wbuf 63 ∧
    State.reset.mem.wf = true ∧ State.reset.wbuf.wf = true := by
  unfold Element.Mapped
  decide

theorem witness_OtherAccessesAreBusErrors :
    (∀ e : Element, e.Mapped State.reset.cfg → ¬(e.offset = 0x0120 ∧ e.width = .byte)) ∧
    (pending (.read 0x0120 .byte) State.reset).host.pending = .read 0x0120 .byte :: [] ∧
    (pending (.write 0x0120 .byte 7) State.reset).host.pending = .write 0x0120 .byte 7 :: [] := by
  refine ⟨fun e he => ?_, rfl, rfl⟩
  have hl : State.reset.cfg.lmax = 32 := rfl
  have hp : State.reset.cfg.pmax = 64 := rfl
  cases e <;> simp_all [Element.Mapped, Element.offset, Element.width, secretBase, passBase, shvBase] <;> omega

theorem witness_ResetStepGivesResetValues :
    (pending .reset split2).host.pending = .reset :: [] := by decide

theorem witness_BlockStandsStillWithoutTheHost : split2.host.pending = [] := by decide

/-- The state after reset meets the invariant, and a step from it answers a next state. -/
theorem witness_StepKeepsTheInvariant :
    ∃ s t : State, s.Inv ∧ s.sticky = true ∧ s.mem.read 0x011F = 7 ∧ step s = .next t :=
  ⟨{ State.reset with status := 0x411, mem := [(0x011F, 7)] }, _,
    ⟨by decide, by decide, fun a h => .inl ⟨31, by decide, by
        simp only [Memory.read, Sparse.read, unlisted] at h
        split at h
        · rw [← ‹_ = a›]; rfl
        · exact absurd rfl h⟩, fun k h => absurd rfl h,
      by decide, by decide⟩,
    by decide, by decide, rfl⟩

theorem witness_OnlyResetClearsStickyAndTok :
    ∃ s t : State, step s = .next t ∧ s.host.pending.head? ≠ some .reset ∧ s.sticky = true ∧ s.tok = true :=
  ⟨pending (.write 0 .word 1) { State.reset with status := 0x611 }, _, rfl, by decide, by decide, by decide⟩

theorem witness_CanonicalMemoriesAreEqualByReads :
    (∃ m n : Sparse 10, m.wf = true ∧ n.wf = true ∧ ∀ k, m.read k = n.read k) ∧
    (∃ m n : Memory, m.wf = true ∧ n.wf = true ∧ ∀ a, m.read a = n.read a) ∧
    ∃ s t : State, s ≠ t ∧ s.mem.wf = true ∧ t.mem.wf = true ∧ s.wbuf.wf = true ∧ t.wbuf.wf = true ∧
      (∀ a, s.mem.read a = t.mem.read a) ∧ ∀ k, s.wbuf.read k = t.wbuf.read k :=
  ⟨⟨[(0, 1), (63, 1023)], [(0, 1), (63, 1023)], by decide, by decide, fun _ => rfl⟩,
    ⟨[(0x100, 1), (0x1000, 2)], [(0x100, 1), (0x1000, 2)], by decide, by decide, fun _ => rfl⟩,
    wordBlock [1, 2], { wordBlock [1, 2] with len := 16 }, by decide, by decide, by decide, by decide, by decide,
    fun _ => rfl, fun _ => rfl⟩

theorem witness_ErrorsArePrecise : ∃ t, exec .gfdiv (field 0x57 0) = .next t ∧ t.err ≠ 0 :=
  ⟨_, rfl, by decide⟩

theorem witness_CommandsRaiseOnlyTheirErrors :
    (∃ t, exec .gfdiv (field 0x57 0) = .next t ∧ t.err = 0x11) ∧ ∃ t, exec .gfmul (field 0x57 0) = .next t ∧ t.err = 0 :=
  ⟨⟨_, rfl, by decide⟩, _, rfl, by decide +kernel⟩

/-- Two states that agree on what GFMUL reads and differ elsewhere; and an instruction that ends in error. -/
theorem witness_ReadAndWriteSets :
    (∃ s u t v : State, s ≠ u ∧ s.mem.wf = true ∧ u.mem.wf = true ∧ s.wbuf.wf = true ∧ u.wbuf.wf = true ∧
      SameReads .gfmul s u ∧ exec .gfmul s = .next t ∧ exec .gfmul u = .next v ∧ t.err = 0) ∧
    (∃ s t : State, exec .gfdiv s = .next t ∧ t.err ≠ 0) :=
  ⟨⟨field 3 7, { field 3 7 with len := 16 }, _, _, by decide, by decide, by decide, by decide, by decide, ⟨rfl, rfl⟩,
    rfl, rfl, by decide +kernel⟩, field 0 0, _, rfl, by decide⟩

theorem witness_OnlySplitDraws : ∃ t, exec .split split2 = .next t ∧ t.random ≠ split2.random := by
  have h : seen (fun t => decide (t.random = split2.random)) (exec .split split2) = some false := by decide +kernel
  cases hx : exec .split split2 <;> simp_all [seen]

theorem witness_ExpTableFollowsTheConstruction : 253 < 254 ∧ (0xFF : Byte) ≠ 0 ∧ 254 < 255 ∧ expAt 254 = 0xF6 := by decide

theorem witness_LogTableInvertsExp : 254 < 255 ∧ (0x01 : Byte) ≠ 0 := by decide

theorem witness_MultiplyFieldLaws : gfMul 0 0x57 = 0 ∧ gfMul 0x57 0 = 0 := by decide

theorem witness_DivideIsTheUniqueQuotient : (0x83 : Byte) ≠ 0 ∧ gfMul 0x57 0x83 = 0xC1 := by decide

theorem witness_GfmulResult : (0x57 : Byte) ≠ 0 ∧ (0xFF : Byte) ≠ 0 := by decide

theorem witness_GfdivResult : (field 0x57 0).gfb = 0 ∧ (field 0x57 0xFF).gfb ≠ 0 ∧ (0xFF : Byte) ≠ 0 := by decide

theorem witness_PolymodIsAffine : ([1, 1023] : List RsWord).length = ([512, 0] : List RsWord).length := rfl

theorem witness_RspolyResult :
    (emptyWords 65).cfg.wmax < (emptyWords 65).wlen.toNat ∧ (emptyWords 64).wlen.toNat ≤ (emptyWords 64).cfg.wmax ∧
    State.reset.wlen.toNat ≤ State.reset.cfg.wmax := by decide

theorem witness_RscreateResult :
    (emptyWords 62).cfg.wmax < (emptyWords 62).wlen.toNat + 3 ∧
    ((emptyWords 61).wlen.toNat + 3 ≤ (emptyWords 61).cfg.wmax ∧ (emptyWords 61).wbuf.wf = true) := by decide

theorem witness_RsverifyResult :
    (emptyWords 65).cfg.wmax < (emptyWords 65).wlen.toNat ∧ (emptyWords 64).wlen.toNat ≤ (emptyWords 64).cfg.wmax := by
  decide

theorem witness_RscreateThenRsverifySucceeds :
    (wordBlock [0, 1, 2, 3]).wbuf.wf = true ∧
    (wordBlock [0, 1, 2, 3]).wlen.toNat + 3 ≤ (wordBlock [0, 1, 2, 3]).cfg.wmax := by decide

theorem witness_FeistelRoundsAsWritten : (ones.take 8).length = (cipher5.take 8).length := rfl

theorem witness_RoundFunctionAsWritten : 0 < 4 ∧ 3 < 4 := by decide

theorem witness_FeistelRoundTrip :
    (∀ (i : Nat) (r : List Byte), (roundFunction referenceHash [] 31 0x7FFF i r).length = r.length) ∧
    ones.length % 2 = 0 := ⟨fun _ _ => length_roundFunction .., rfl⟩

/-- FENC's clauses at the edges: LEN 15, 34, 17; PLEN 65; a code 0x7F; LEN = 32 = LMAX with codes 0x20 and 0x7E. -/
theorem witness_FencResult :
    ¬(16 ≤ (block 15 0 0 0 0 []).len.toNat ∧ (block 15 0 0 0 0 []).len.toNat ≤ State.reset.cfg.lmax) ∧
    ¬(16 ≤ (block 34 0 0 0 0 []).len.toNat ∧ (block 34 0 0 0 0 []).len.toNat ≤ State.reset.cfg.lmax) ∧
    (16 ≤ (block 17 0 0 0 0 []).len.toNat ∧ (block 17 0 0 0 0 []).len.toNat ≤ State.reset.cfg.lmax ∧
      (block 17 0 0 0 0 []).len.toNat % 2 = 1) ∧
    (LegalLength (block 16 0 0 0 65 []) ∧ (block 16 0 0 0 65 []).cfg.pmax < (block 16 0 0 0 65 []).plen.toNat) ∧
    (LegalLength (block 16 0 0 0 1 [(0x200, 0x7F)]) ∧ (block 16 0 0 0 1 [(0x200, 0x7F)]).plen.toNat ≤ 64 ∧
      ¬LegalCharset (block 16 0 0 0 1 [(0x200, 0x7F)])) ∧
    (LegalCipher (block 32 0 0 0 2 [(0x200, 0x20), (0x201, 0x7E)]) ∧
      (block 32 0 0 0 2 [(0x200, 0x20), (0x201, 0x7E)]).mem.wf = true) := by
  unfold LegalCipher LegalLength LegalCharset
  decide

/-- FDEC's clauses at the edges, as FENC's, with a code 0x1F. -/
theorem witness_FdecResult :
    ¬(16 ≤ (block 15 0 0 0 0 []).len.toNat ∧ (block 15 0 0 0 0 []).len.toNat ≤ State.reset.cfg.lmax) ∧
    (16 ≤ (block 31 0 0 0 0 []).len.toNat ∧ (block 31 0 0 0 0 []).len.toNat ≤ State.reset.cfg.lmax ∧
      (block 31 0 0 0 0 []).len.toNat % 2 = 1) ∧
    (LegalLength (block 32 0 0 0 65 []) ∧ (block 32 0 0 0 65 []).cfg.pmax < (block 32 0 0 0 65 []).plen.toNat) ∧
    (LegalLength (block 16 0 0 0 1 [(0x200, 0x1F)]) ∧ (block 16 0 0 0 1 [(0x200, 0x1F)]).plen.toNat ≤ 64 ∧
      ¬LegalCharset (block 16 0 0 0 1 [(0x200, 0x1F)])) ∧
    (LegalCipher (block 16 0 0 0 0 []) ∧ (block 16 0 0 0 0 []).mem.wf = true) := by
  unfold LegalCipher LegalLength LegalCharset
  decide

theorem witness_FencThenFdecRestores :
    LegalCipher (block 32 0 0 0 2 [(0x200, 0x20), (0x201, 0x7E)]) ∧
    (block 32 0 0 0 2 [(0x200, 0x20), (0x201, 0x7E)]).mem.wf = true := by
  unfold LegalCipher LegalLength LegalCharset
  decide

theorem witness_ShaPaddingFillsBlocks : (List.replicate 55 (0 : Byte)).length < 2 ^ 61 := by decide

theorem witness_Pbkdf2AsWritten : 1 ≤ 2500 ∧ 31 < 32 ∧ 32 < 33 := by decide

/-- V-I-2's points. -/
def points3 : List Point := [⟨0, [0x05]⟩, ⟨3, [0x07]⟩, ⟨7, [0x0B]⟩]

theorem witness_InterpolateIsTheLagrangeFormula : IsPointSet 1 points3 ∧ 0 < 1 := by
  unfold IsPointSet
  decide

/-- V-I-1's line y = x + 2. -/
theorem witness_InterpolateFollowsThePolynomial :
    IsPointSet 1 [⟨0, [0x02]⟩, ⟨1, [0x03]⟩] ∧ 0 < 1 ∧ ([0x02, 0x01] : List Byte).length ≤ 2 ∧
    ∀ p ∈ ([⟨0, [0x02]⟩, ⟨1, [0x03]⟩] : List Point), p.y.getD 0 0 = polyEval [0x02, 0x01] p.x := by
  unfold IsPointSet
  decide +kernel

theorem witness_InterpolateIsAPolynomial : IsPointSet 1 points3 ∧ 0 < 1 := by
  unfold IsPointSet
  decide

theorem witness_InterpolateIgnoresTheOrder : IsPointSet 1 points3 ∧ points3.Perm points3.reverse := by
  unfold IsPointSet
  decide

/-- SPLIT's clauses at the edges: T = 0, T > N, N = 17; LEN 15 and 34; LEN 17; T = 1; T = 2; T = N = 16. -/
theorem witness_SplitResult :
    ¬LegalSplitCount (block 16 0 1 0 0 []) ∧ ¬LegalSplitCount (block 17 2 1 0 0 []) ∧
    ¬LegalSplitCount (block 16 17 17 0 0 []) ∧
    (LegalSplitCount (block 15 1 1 0 0 []) ∧ ¬(16 ≤ (block 15 1 1 0 0 []).len.toNat ∧
      (block 15 1 1 0 0 []).len.toNat ≤ State.reset.cfg.lmax)) ∧
    (LegalSplitCount (block 34 1 1 0 0 []) ∧ ¬(16 ≤ (block 34 1 1 0 0 []).len.toNat ∧
      (block 34 1 1 0 0 []).len.toNat ≤ State.reset.cfg.lmax)) ∧
    (LegalSplitCount (block 17 1 1 0 0 []) ∧ 16 ≤ (block 17 1 1 0 0 []).len.toNat ∧
      (block 17 1 1 0 0 []).len.toNat ≤ State.reset.cfg.lmax ∧ (block 17 1 1 0 0 []).len.toNat % 2 = 1) ∧
    (LegalSplit split1 ∧ split1.mem.wf = true ∧ split1.thr.toNat = 1) ∧
    (LegalSplit split2 ∧ split2.mem.wf = true ∧ 2 ≤ split2.thr.toNat) ∧
    (LegalSplit (block 32 16 16 0 0 []) ∧ 2 ≤ (block 32 16 16 0 0 []).thr.toNat) := by
  unfold LegalSplit LegalSplitCount LegalLength
  decide +kernel

/-- RECOVER's clauses at the edges: T = 0 and 17; LEN 15; LEN 17; SCNT ≠ T; x = 16; equal x; V-R-13; V-R-1; T = 1. -/
theorem witness_RecoverResult :
    ¬(1 ≤ (block 16 0 0 0 0 []).thr.toNat ∧ (block 16 0 0 0 0 []).thr.toNat ≤ 16) ∧
    ¬(1 ≤ (block 16 17 0 0 0 []).thr.toNat ∧ (block 16 17 0 0 0 []).thr.toNat ≤ 16) ∧
    ¬(16 ≤ (block 15 16 0 0 0 []).len.toNat ∧ (block 15 16 0 0 0 []).len.toNat ≤ State.reset.cfg.lmax) ∧
    (block 17 1 0 0 0 []).len.toNat % 2 = 1 ∧
    (LegalLength (block 16 2 0 1 0 []) ∧ (block 16 2 0 1 0 []).scnt ≠ (block 16 2 0 1 0 []).thr) ∧
    (LegalLength (shares [⟨0, []⟩, ⟨16, []⟩] (block 16 2 0 2 0 [])) ∧
      ¬(ShareXs (shares [⟨0, []⟩, ⟨16, []⟩] (block 16 2 0 2 0 [])) ∧
        DistinctXs (shares [⟨0, []⟩, ⟨16, []⟩] (block 16 2 0 2 0 [])))) ∧
    ¬(ShareXs (shares [⟨3, []⟩, ⟨3, []⟩] (block 16 2 0 2 0 [])) ∧
      DistinctXs (shares [⟨3, []⟩, ⟨3, []⟩] (block 16 2 0 2 0 []))) ∧
    (LegalRecover recoverBad ∧ 2 ≤ recoverBad.thr.toNat ∧
      ¬((hmacSha256 ((interpolate recoverBad.len.toNat recoverBad.points 254).drop 4)
          (interpolate recoverBad.len.toNat recoverBad.points 255)).toList.take 4 =
        (interpolate recoverBad.len.toNat recoverBad.points 254).take 4)) ∧
    (LegalRecover recover2 ∧ recover2.mem.wf = true ∧ 2 ≤ recover2.thr.toNat ∧
      (hmacSha256 ((interpolate recover2.len.toNat recover2.points 254).drop 4)
          (interpolate recover2.len.toNat recover2.points 255)).toList.take 4 =
        (interpolate recover2.len.toNat recover2.points 254).take 4) ∧
    (LegalRecover recover1 ∧ recover1.mem.wf = true ∧ recover1.thr.toNat = 1) := by
  unfold LegalRecover LegalLength ShareXs DistinctXs
  refine ⟨?_, ?_, ?_, ?_, ?_, ?_, ?_, ?_, ?_, ?_⟩ <;> decide +kernel

/-- V-I-3 before the command, with XSEL = 254, a given x-coordinate. -/
def interp2 : State :=
  { shares [⟨254, ones⟩, ⟨255, cipher5⟩] (block 16 0 0 2 0 []) with xsel := 254 }

/-- INTERP's clauses at the edges: SCNT = 0 and 17; LEN 15; LEN 17; equal x; a legal table; one point. -/
theorem witness_InterpResult :
    ¬(1 ≤ (block 16 0 0 0 0 []).scnt.toNat ∧ (block 16 0 0 0 0 []).scnt.toNat ≤ 16) ∧
    ¬(1 ≤ (block 16 0 0 17 0 []).scnt.toNat ∧ (block 16 0 0 17 0 []).scnt.toNat ≤ 16) ∧
    ¬(16 ≤ (block 15 0 0 1 0 []).len.toNat ∧ (block 15 0 0 1 0 []).len.toNat ≤ State.reset.cfg.lmax) ∧
    (block 17 0 0 16 0 []).len.toNat % 2 = 1 ∧
    (LegalLength (block 16 0 0 2 0 []) ∧ ¬DistinctXs (block 16 0 0 2 0 [])) ∧
    (LegalInterp interp2 ∧ interp2.mem.wf = true ∧ interp2.shxAt 0 = interp2.xsel) ∧
    (LegalInterp recover1 ∧ recover1.mem.wf = true ∧ recover1.scnt.toNat = 1) := by
  unfold LegalInterp LegalLength DistinctXs
  decide +kernel

/-- V-S-2, and V-R-4: the shares at x = 2 and x = 0, in that order, in a block that has nothing else. -/
theorem witness_AnyThresholdSharesRecoverTheSecret :
    LegalSplit split2 ∧ 2 ≤ split2.thr.toNat ∧ split2.mem.wf = true ∧
    ∃ t, exec .split split2 = .next t ∧
      [2, 0].Nodup ∧ [2, 0].length = split2.thr.toNat ∧ (∀ i ∈ [2, 0], i < split2.cnt.toNat) ∧
      let u := shares [⟨2, share2⟩, ⟨0, share0⟩] (block 16 2 0 2 0 [])
      u.cfg = split2.cfg ∧ u.len = split2.len ∧ u.thr = split2.thr ∧ u.mem.wf = true ∧
        u.points = [2, 0].map t.point := by
  refine ⟨by unfold LegalSplit LegalSplitCount LegalLength; decide +kernel, by decide, by decide, ?_⟩
  have h : seen (fun t => [2, 0].map t.point) (exec .split split2) = some [⟨2, share2⟩, ⟨0, share0⟩] := by
    decide +kernel
  cases hx : exec .split split2 with
  | next t =>
    rw [hx] at h
    refine ⟨t, rfl, by decide, by decide, by decide, by decide, by decide, by decide, by decide +kernel, ?_⟩
    exact Eq.trans (by decide +kernel) (Option.some.inj h).symm
  | fault f => rw [hx] at h; cases h
  | refused r => rw [hx] at h; cases h

/-- V-S-2's shares at x = 2 and x = 0, T = 2 of N = 3; and T = N = 1. -/
theorem witness_RecoverSecretUndoesSplitSecretForEveryHash :
    (1 ≤ 2 ∧ 2 ≤ 3 ∧ 3 ≤ 16 ∧ draw2.length + 4 = ones.length ∧ ([] : List (List Byte)).length = 2 - 2 ∧
      ([⟨2, share2⟩, ⟨0, share0⟩] : List Point).length = 2 ∧
      (([⟨2, share2⟩, ⟨0, share0⟩] : List Point).map (fun p => p.x)).Nodup ∧
      ∀ p ∈ ([⟨2, share2⟩, ⟨0, share0⟩] : List Point), p ∈ splitSecret referenceHash 2 3 ones [] draw2) ∧
    ([] : List (List Byte)).length = 1 - 2 ∧
    ∀ p ∈ ([⟨0, ones⟩] : List Point), p ∈ splitSecret referenceHash 1 1 ones [] draw2 := by decide +kernel

/-- V-S-1, and V-R-10: the share at x = 1 alone. -/
theorem witness_AnySingleShareOfAOneThresholdSplitRecovers :
    LegalSplit split1 ∧ split1.thr.toNat = 1 ∧ split1.mem.wf = true ∧
    ∃ t, exec .split split1 = .next t ∧ 1 < split1.cnt.toNat ∧ recover1.cfg = split1.cfg ∧
      recover1.len = split1.len ∧ recover1.thr = split1.thr ∧ recover1.mem.wf = true ∧
      recover1.points = [t.point 1] := by
  refine ⟨by unfold LegalSplit LegalSplitCount LegalLength; decide +kernel, by decide, by decide, ?_⟩
  have h : seen (fun t => [t.point 1]) (exec .split split1) = some [⟨1, ones⟩] := by decide +kernel
  cases hx : exec .split split1 with
  | next t =>
    rw [hx] at h
    refine ⟨t, rfl, by decide, by decide, by decide, by decide, by decide +kernel, ?_⟩
    exact Eq.trans (by decide +kernel) (Option.some.inj h).symm
  | fault f => rw [hx] at h; cases h
  | refused r => rw [hx] at h; cases h

end Sys2Proof.Tests
end

section
/-! PROOFS of the family 00_scope: how a command can end (spec/00_scope R8). `exec_cases` says once what any command can do
to STATUS; the claim is read off it. -/

namespace Sys2Proof.Machine

/-! ### STATUS after a completed command -/

/-- STATUS after command `i` has completed on `s`: GFTEST writes TOK (R98), RSVERIFY writes RES (R117), every other command
leaves it as `beginCommand` made it (R34, R203). -/
def completedStatus : Instr → State → BitVec 11
  | .gftest, s => testedStatus tablesOk s
  | .rsverify, s => verifiedStatus (verifyChecksum s.cfg s.words) s
  | _, s => clearedStatus s

/-- Whatever a completed command does to RES and TOK, it leaves ERR = 0 and STICKY as it was. -/
theorem completedStatus_eq_packStatus (i : Instr) (s : State) :
    ∃ res tok, completedStatus i s = packStatus 0 res tok s.sticky := by
  cases i <;> exact ⟨_, _, rfl⟩

theorem err_sticky_of_completedStatus {i : Instr} {s t : State} (h : t.status = completedStatus i s) :
    t.err = 0 ∧ t.sticky = s.sticky := by
  obtain ⟨res, tok, hpack⟩ := completedStatus_eq_packStatus i s
  obtain ⟨herr, -, -, hsticky⟩ := fields_of_status (h.trans hpack)
  exact ⟨herr, hsticky⟩

@[simp] theorem testedStatus_beginCommand (ok : Bool) (s : State) :
    testedStatus ok s.beginCommand = testedStatus ok s := by
  simp [testedStatus]

@[simp] theorem verifiedStatus_beginCommand (valid : Bool) (s : State) :
    verifiedStatus valid s.beginCommand = verifiedStatus valid s := by
  simp [verifiedStatus]

/-! ### What any command can do -/

/-- Every command runs in the frame of R203, and a computation that completes leaves STATUS at `completedStatus`. -/
theorem exec_eq_command (i : Instr) (s : State) : ∃ checks body, exec i s = command checks body s ∧
    ∀ u, body s.beginCommand = .ok u → u.status = completedStatus i s := by
  cases i with
  | gfmul => unfold exec execGfmul; exact ⟨_, _, rfl, by rintro _ ⟨⟩; rfl⟩
  | gfdiv => unfold exec execGfdiv; exact ⟨_, _, rfl, by rintro _ ⟨⟩; rfl⟩
  | gftest => unfold exec execGftest; exact ⟨_, _, rfl, by rintro _ ⟨⟩; exact testedStatus_beginCommand ..⟩
  | rspoly => unfold exec execRspoly; exact ⟨_, _, rfl, by rintro _ ⟨⟩; rfl⟩
  | rscreate => unfold exec execRscreate; exact ⟨_, _, rfl, by rintro _ ⟨⟩; rfl⟩
  | rsverify => unfold exec execRsverify; exact ⟨_, _, rfl, by rintro _ ⟨⟩; exact verifiedStatus_beginCommand ..⟩
  | fenc => unfold exec execFenc fencWith; exact ⟨_, _, rfl, by rintro _ ⟨⟩; rfl⟩
  | fdec => unfold exec execFdec fdecWith; exact ⟨_, _, rfl, by rintro _ ⟨⟩; rfl⟩
  | split => unfold exec execSplit splitWith; exact ⟨_, _, rfl, by rintro _ ⟨⟩; exact State.setShares_status ..⟩
  | recover =>
    unfold exec execRecover recoverWith
    refine ⟨_, _, rfl, fun u hu => ?_⟩
    generalize recoverSecret _ _ _ _ = recovered at hu
    cases recovered with
    | error e => cases hu
    | ok secret => cases hu; rfl
  | interp => unfold exec execInterp; exact ⟨_, _, rfl, by rintro _ ⟨⟩; rfl⟩

/-- Every command answers a next state (R8, R208). -/
theorem exec_next (i : Instr) (s : State) : ∃ t, exec i s = .next t := by
  obtain ⟨checks, body, hexec, -⟩ := exec_eq_command i s
  exact hexec ▸ command_next checks body s

/-- All a command can do to STATUS: error entry, which changes nothing else, or completion. -/
theorem exec_cases {i : Instr} {s t : State} (h : exec i s = .next t) :
    (∃ e, t = s.takeError e) ∨ t.status = completedStatus i s := by
  obtain ⟨checks, body, hexec, hbody⟩ := exec_eq_command i s
  obtain ⟨e, -, rfl⟩ | ⟨e, -, -, rfl⟩ | ⟨-, hok⟩ := command_cases (hexec.symm.trans h)
  · exact .inl ⟨e, rfl⟩
  · exact .inl ⟨e, rfl⟩
  · exact .inr (hbody t hok)

/-- Settles O18: completion is the first way to end, error entry the second. -/
theorem everyCommandEndsInOneOfTwoWays : Obligations.EveryCommandEndsInOneOfTwoWays := by
  intro i s
  obtain ⟨t, ht⟩ := exec_next i s
  refine ⟨t, ht, ?_⟩
  obtain ⟨e, rfl⟩ | hstatus := exec_cases ht
  · exact .inr ⟨by simpa using e.code_ne_zero, rfl⟩
  · exact .inl (err_sticky_of_completedStatus hstatus)

end Sys2Proof.Machine
end

section
/-! PROOFS of the family 10_state, the commands: the checks and the result of each command written down once
(`exec_eq_command_of_result`), and with them the error it ends with (`exec_result_cases`). -/

namespace Sys2Proof.Machine

/-! ### What a command checks and computes (spec/10_state R39, spec/60_exceptions R203) -/

/-- The operand checks of a command, in order (R203 step 3, R206). -/
def commandChecks : Instr → State → List (Bool × CmdError)
  | .gfmul, _ => []
  | .gfdiv, s => [(s.gfb == 0, .divideByZero)]
  | .gftest, _ => []
  | .rspoly, s => [(decide (s.cfg.wmax < s.wlen.toNat), .bufferRange)]
  | .rscreate, s => [(decide (s.cfg.wmax < s.wlen.toNat + 3), .bufferRange)]
  | .rsverify, s => [(decide (s.cfg.wmax < s.wlen.toNat), .bufferRange)]
  | .fenc, s => cipherChecks s
  | .fdec, s => cipherChecks s
  | .split, s => splitChecks s
  | .recover, s => recoverChecks s
  | .interp, s => interpChecks s

/-- What a command whose checks pass leaves in SECRET[0..L-1], or the error it finds while computing; the commands that do
not write SECRET leave what is there. -/
def secretResult : Instr → State → Except CmdError (List Byte)
  | .fenc, s => .ok (feistelEncrypt (s.roundFunction s.hash) s.secret)
  | .fdec, s => .ok (feistelDecrypt (s.roundFunction s.hash) s.secret)
  | .recover, s => recoverSecret s.hash s.len.toNat s.thr.toNat s.points
  | .interp, s => .ok (interpolate s.len.toNat s.points s.xsel)
  | _, s => .ok s.secret

/-- The draws of SPLIT on `s`, and the random source after them (R156). -/
def State.splitDraws (s : State) : (List (List Byte) × List Byte) × RandomSource :=
  Machine.splitDraws s.thr.toNat s.len.toNat s.random

/-- The points SPLIT puts into the share table (R157). -/
def State.splitPoints (s : State) : List Point :=
  splitSecret s.hash s.thr.toNat s.cnt.toNat s.secret s.splitDraws.1.1 s.splitDraws.1.2

/-- The state a command whose checks pass completes in, or the error it finds while computing. -/
def commandResult : Instr → State → Except CmdError State
  | .gfmul, s => .ok { s.beginCommand with gfr := gfMul s.gfa s.gfb }
  | .gfdiv, s => .ok { s.beginCommand with gfr := gfDiv s.gfa s.gfb }
  | .gftest, s => .ok { s.beginCommand with status := testedStatus tablesOk s.beginCommand }
  | .rspoly, s => .ok { s.beginCommand with chk := polymod s.cfg.gen s.words }
  | .rscreate, s => .ok { s.beginCommand with
      wbuf := writeWords s.wbuf s.wlen.toNat (createChecksum s.cfg s.words)
      chk := checksumPolymod s.cfg s.words
      wlen := s.wlen + 3 }
  | .rsverify, s => .ok { s.beginCommand with
      chk := verifyPolymod s.cfg s.words
      status := verifiedStatus (verifyChecksum s.cfg s.words) s.beginCommand }
  | .split, s => .ok { s.beginCommand.setShares 0 s.splitPoints with scnt := s.cnt, random := s.splitDraws.2 }
  | i, s => (secretResult i s).map (fun bytes => s.beginCommand.setSecret bytes)

/-- The frame of R203 uses a command's computation on the state with ERR and RES cleared only. -/
theorem command_congr {body : State → Except CmdError State} {s : State} {r : Except CmdError State}
    (checks : List (Bool × CmdError)) (h : body s.beginCommand = r) :
    command checks body s = command checks (fun _ => r) s := by
  rw [command, command, h]

/-- Every command is the frame of R203 around its checks and its result. -/
theorem exec_eq_command_of_result (i : Instr) (s : State) :
    exec i s = command (commandChecks i s) (fun _ => commandResult i s) s := by
  cases i with
  | gfmul => unfold exec execGfmul; exact command_congr _ rfl
  | gfdiv => unfold exec execGfdiv; exact command_congr _ rfl
  | gftest => unfold exec execGftest; exact command_congr _ rfl
  | rspoly => unfold exec execRspoly; exact command_congr _ rfl
  | rscreate => unfold exec execRscreate; exact command_congr _ rfl
  | rsverify => unfold exec execRsverify; exact command_congr _ rfl
  | fenc => unfold exec execFenc fencWith; exact command_congr _ rfl
  | fdec => unfold exec execFdec fdecWith; exact command_congr _ rfl
  | split => unfold exec execSplit splitWith; exact command_congr _ rfl
  | recover => unfold exec execRecover recoverWith; exact command_congr _ rfl
  | interp => unfold exec execInterp; exact command_congr _ rfl

/-- The error a computation reports, if any. -/
def lateError {α : Type} : Except CmdError α → Option CmdError
  | .error e => some e
  | .ok _ => none

/-- The error a command ends with: of the first check that fails, else the one it finds while computing. -/
def commandError (i : Instr) (s : State) : Option CmdError :=
  (firstError (commandChecks i s)).or (lateError (secretResult i s))

theorem checks_pass_of_commandError_eq_none {i : Instr} {s : State} (h : commandError i s = none) :
    firstError (commandChecks i s) = none := (Option.or_eq_none_iff.1 h).1

theorem commandError_of_failed_check {i : Instr} {s : State} {e : CmdError}
    (h : firstError (commandChecks i s) = some e) : commandError i s = some e :=
  Option.or_of_isSome (h ▸ rfl) |>.trans h

theorem commandError_of_passing_checks {i : Instr} {s : State} (h : firstError (commandChecks i s) = none) :
    commandError i s = lateError (secretResult i s) :=
  Option.or_of_isNone (h ▸ rfl)

/-- The commands that write SECRET (R39). -/
def secretWriters : List Instr := [.fenc, .fdec, .recover, .interp]

theorem commandResult_of_mem_secretWriters {i : Instr} (hi : i ∈ secretWriters) (s : State) :
    commandResult i s = (secretResult i s).map (fun bytes => s.beginCommand.setSecret bytes) := by
  cases i with
  | fenc | fdec | recover | interp => rfl
  | _ => exact absurd hi (by decide)

theorem secretResult_of_not_mem_secretWriters {i : Instr} (hi : i ∉ secretWriters) (s : State) :
    secretResult i s = .ok s.secret := by
  cases i with
  | fenc | fdec | recover | interp => exact absurd (by decide) hi
  | _ => rfl

theorem commandResult_of_not_mem_secretWriters {i : Instr} (hi : i ∉ secretWriters) (s : State) :
    ∃ t, commandResult i s = .ok t := by
  cases i with
  | fenc | fdec | recover | interp => exact absurd (by decide) hi
  | _ => exact ⟨_, rfl⟩

/-- Where the checks pass, `commandError` is the error the result is, or none where the result is a state. -/
theorem commandResult_cases {i : Instr} {s : State} (hc : firstError (commandChecks i s) = none) :
    (∃ e, commandResult i s = .error e ∧ commandError i s = some e) ∨
    (∃ t, commandResult i s = .ok t ∧ commandError i s = none) := by
  rw [commandError_of_passing_checks hc]
  by_cases hi : i ∈ secretWriters
  · rw [commandResult_of_mem_secretWriters hi]
    cases secretResult i s with
    | error e => exact .inl ⟨e, rfl, rfl⟩
    | ok bytes => exact .inr ⟨_, rfl, rfl⟩
  · obtain ⟨t, ht⟩ := commandResult_of_not_mem_secretWriters hi s
    rw [secretResult_of_not_mem_secretWriters hi]
    exact .inr ⟨t, ht, rfl⟩

/-- All a command can do: error entry with the error of `commandError`, or completion with its result. -/
theorem exec_result_cases {i : Instr} {s t : State} (h : exec i s = .next t) :
    (∃ e, commandError i s = some e ∧ t = s.takeError e) ∨
    (commandError i s = none ∧ commandResult i s = .ok t) := by
  rw [exec_eq_command_of_result] at h
  obtain ⟨e, hc, rfl⟩ | ⟨e, hc, herr, rfl⟩ | ⟨hc, hok⟩ := command_cases h
  · exact .inl ⟨e, commandError_of_failed_check hc, rfl⟩
  all_goals obtain ⟨f, hf, hnone⟩ | ⟨u, hu, hnone⟩ := commandResult_cases hc
  · cases hf.symm.trans herr
    exact .inl ⟨e, hnone, rfl⟩
  · cases hu.symm.trans herr
  · cases hf.symm.trans hok
  · exact .inr ⟨hnone, hok⟩

/-- A command that writes SECRET and completes has stored its result there, and nothing else. -/
theorem setSecret_of_commandResult {i : Instr} (hi : i ∈ secretWriters) {s t : State}
    (ht : commandResult i s = .ok t) :
    ∃ bytes, secretResult i s = .ok bytes ∧ t = s.beginCommand.setSecret bytes := by
  rw [commandResult_of_mem_secretWriters hi] at ht
  cases hres : secretResult i s with
  | error e => rw [hres] at ht; cases ht
  | ok bytes =>
    rw [hres] at ht
    cases ht
    exact ⟨bytes, rfl, rfl⟩

/-- A completed command leaves STATUS at `completedStatus`. -/
theorem status_of_commandResult {i : Instr} {s t : State} (ht : commandResult i s = .ok t) :
    t.status = completedStatus i s := by
  cases i with
  | gftest => cases ht; exact testedStatus_beginCommand ..
  | rsverify => cases ht; exact verifiedStatus_beginCommand ..
  | split => cases ht; exact State.setShares_status ..
  | fenc | fdec | recover | interp =>
    obtain ⟨bytes, -, rfl⟩ := setSecret_of_commandResult (by decide) ht
    rfl
  | _ => cases ht; rfl

theorem err_of_commandResult {i : Instr} {s t : State} (ht : commandResult i s = .ok t) : t.err = 0 :=
  (err_sticky_of_completedStatus (status_of_commandResult ht)).1

end Sys2Proof.Machine
end

section
/-! PROOFS of the family 10_state, the lengths: every byte string a command stores is LEN bytes long, and LEN is within the
capacity (spec/10_state R35, R38). -/

namespace Sys2Proof.Machine

/-! ### The algorithms answer values of the length they are given -/

theorem length_foldl_feistelRound {f : Nat → List Byte → List Byte} (hf : ∀ i r, (f i r).length = r.length)
    (order : List Nat) {halves : List Byte × List Byte} {n : Nat} (hl : halves.1.length = n)
    (hr : halves.2.length = n) :
    (order.foldl (feistelRound f) halves).1.length = n ∧ (order.foldl (feistelRound f) halves).2.length = n := by
  induction order generalizing halves with
  | nil => exact ⟨hl, hr⟩
  | cons i order ih => exact ih hr (by simp [feistelRound, hf, hl, hr])

theorem length_feistel {f : Nat → List Byte → List Byte} (hf : ∀ i r, (f i r).length = r.length) (order : List Nat)
    {secret : List Byte} (heven : secret.length % 2 = 0) : (feistel f order secret).length = secret.length := by
  obtain ⟨hl, hr⟩ := length_foldl_feistelRound hf order
    (halves := (secret.take (secret.length / 2), secret.drop (secret.length / 2))) (n := secret.length / 2)
    (by simp; omega) (by simp; omega)
  rw [feistel, List.length_append, hl, hr]
  omega

@[simp] theorem State.length_roundFunction (hash : HashConfig) (s : State) (i : Nat) (r : List Byte) :
    (s.roundFunction hash i r).length = r.length := Machine.length_roundFunction ..

theorem length_interpolate {len : Nat} {points : List Point} (h : ∀ p ∈ points, p.y.length = len) (x : Byte) :
    (interpolate len points x).length = len := by
  unfold interpolate
  split
  next p hp => exact h p (List.mem_of_find?_eq_some hp)
  next => simp

theorem length_recoverSecret {hash : HashConfig} {len t : Nat} {points : List Point} {secret : List Byte}
    (hne : points ≠ []) (hy : ∀ p ∈ points, p.y.length = len) (h : recoverSecret hash len t points = .ok secret) :
    secret.length = len := by
  unfold recoverSecret at h
  split at h
  · obtain ⟨p, rest, rfl⟩ := List.exists_cons_of_ne_nil hne
    cases h
    exact hy p (by simp)
  · dsimp only at h
    split at h <;> cases h
    exact length_interpolate hy _

theorem length_digestShare (hash : HashConfig) (pad secret : List Byte) :
    (digestShare hash pad secret).length = 4 + pad.length := by
  simp [digestShare, digest]

/-- Every share of a split is as long as the secret, as long as R157's precondition on the draws holds. -/
theorem length_shareValue {t : Nat} {secret pad : List Byte} {rs : List (List Byte)} (hash : HashConfig)
    (hrs : ∀ j, j + 2 < t → (rs.getD j []).length = secret.length) (hpad : t ≠ 1 → pad.length + 4 = secret.length)
    (i : Nat) : (shareValue hash t secret rs pad i).length = secret.length := by
  unfold shareValue
  split
  · rfl
  next ht =>
    split
    next hi => exact hrs i hi
    next =>
      apply length_interpolate
      intro p hp
      simp only [basePoints, List.mem_append, List.mem_map, List.mem_range, List.mem_cons, List.not_mem_nil,
        or_false] at hp
      obtain ⟨j, hj, rfl⟩ | rfl | rfl := hp
      · exact hrs j (by omega)
      · have := hpad ht
        simp only [length_digestShare]
        omega
      · rfl

/-! ### What a command's checks say of the lengths -/

@[simp] theorem State.length_splitPoints (s : State) : s.splitPoints.length = s.cnt.toNat := by
  simp [State.splitPoints]

/-- SPLIT stores LEN bytes per share. -/
theorem State.length_y_getElem_splitPoints {s : State} (hs : LegalSplit s) (i : Nat) (h : i < s.splitPoints.length) :
    s.splitPoints[i].y.length = s.len.toNat := by
  obtain ⟨⟨hthr, -, -⟩, hlen, -, -⟩ := hs
  simp only [State.splitPoints, getElem_splitSecret]
  rw [length_shareValue, State.length_secret]
  · intro j hj
    simp only [State.splitDraws, splitDraws_of_two_le (show 2 ≤ s.thr.toNat by omega)]
    rw [List.getD_eq_getElem _ _ (by simp; omega)]
    simp
  · intro ht
    simp only [State.splitDraws, splitDraws_of_two_le (show 2 ≤ s.thr.toNat by omega)]
    simp
    omega

theorem State.length_y_of_mem_points {s : State} {p : Point} (h : p ∈ s.points) : p.y.length = s.len.toNat := by
  obtain ⟨i, -, rfl⟩ := List.mem_map.1 h
  exact s.length_point_y i

/-- What a command leaves in SECRET[0..L-1] is LEN bytes long. -/
theorem length_secretResult {i : Instr} {s : State} {bytes : List Byte} (hc : firstError (commandChecks i s) = none)
    (h : secretResult i s = .ok bytes) : bytes.length = s.len.toNat := by
  cases i with
  | fenc | fdec =>
    obtain ⟨⟨-, -, heven⟩, -, -⟩ := (firstError_cipherChecks_eq_none s).1 hc
    cases h
    exact (length_feistel (s.length_roundFunction s.hash) _ (by simpa using heven)).trans s.length_secret
  | recover =>
    obtain ⟨⟨hthr, -⟩, -, hscnt, -⟩ := (firstError_recoverChecks_eq_none s).1 hc
    refine length_recoverSecret ?_ (fun p => State.length_y_of_mem_points) h
    apply List.ne_nil_of_length_pos
    rw [State.length_points, hscnt]
    exact hthr
  | interp =>
    cases h
    exact length_interpolate (fun p => State.length_y_of_mem_points) _
  | _ =>
    cases h
    exact s.length_secret

theorem legalLength_of_mem_secretWriters {i : Instr} (hi : i ∈ secretWriters) {s : State}
    (hc : firstError (commandChecks i s) = none) : LegalLength s := by
  cases i with
  | fenc | fdec => exact ((firstError_cipherChecks_eq_none s).1 hc).1
  | recover =>
    obtain ⟨-, hlen, -⟩ := (firstError_recoverChecks_eq_none s).1 hc
    exact hlen
  | interp =>
    obtain ⟨-, hlen, -⟩ := (firstError_interpChecks_eq_none s).1 hc
    exact hlen
  | _ => exact absurd hi (by decide)

/-- What a completed command that writes SECRET has left there. -/
theorem secretResult_eq_secret {i : Instr} (hi : i ∈ secretWriters) {s t : State} (hm : s.mem.wf = true)
    (hc : firstError (commandChecks i s) = none) (ht : commandResult i s = .ok t) :
    secretResult i s = .ok t.secret := by
  obtain ⟨bytes, hres, rfl⟩ := setSecret_of_commandResult hi ht
  have hlen := length_secretResult hc hres
  rw [hres, State.secret_setSecret s.beginCommand bytes hm hlen]

end Sys2Proof.Machine
end

section
/-! PROOFS of the family 10_state, the window: which element an access reaches, and what writing one element does to the
others (spec/10_state R25, R36; spec/20_memory R51, R52). -/

namespace Sys2Proof.Machine

/-! ### The window map (R51, R52) -/

theorem lmax_le (p : Params) : p.lmax ≤ 256 := by
  have := p.lmaxCode.isLt
  unfold Params.lmax
  omega

theorem pmax_le (p : Params) : p.pmax ≤ 256 := by
  have := p.pmaxCode.isLt
  unfold Params.pmax
  omega

theorem registerAt_eq_some_iff {p : Params} {a : Nat} {e : Element} :
    registerAt a = some e ↔ e.Mapped p ∧ e.offset = a ∧ e.width = .word := by
  constructor
  · intro h
    unfold registerAt at h
    split at h
    case h_16 =>
      split at h <;> cases h
      exact ⟨show (a - 0x0040) / 4 < 16 by omega, show 0x0040 + 4 * ((a - 0x0040) / 4) = a by omega, rfl⟩
    all_goals
      cases h
      exact ⟨trivial, rfl, rfl⟩
  · rintro ⟨hm, rfl, hw⟩
    cases e with
    | shx i =>
      have hi : i < 16 := hm
      interval_cases i <;> rfl
    | secret | pass | wbuf | shv => cases hw
    | _ => rfl

theorem byteAt_eq_some_iff {p : Params} {a : Nat} {e : Element} :
    byteAt p a = some e ↔ e.Mapped p ∧ e.offset = a ∧ e.width = .byte := by
  have hlmax := lmax_le p
  have hpmax := pmax_le p
  have hsecret : secretBase = 0x0100 := rfl
  have hpass : passBase = 0x0200 := rfl
  have hshv (i : Nat) : shvBase i = 0x1000 + 0x100 * i := rfl
  unfold byteAt
  constructor
  · intro h
    split at h
    · cases h
      exact ⟨show a - secretBase < p.lmax by omega, show secretBase + (a - secretBase) = a by omega, rfl⟩
    split at h
    · cases h
      exact ⟨show a - passBase < p.pmax by omega, show passBase + (a - passBase) = a by omega, rfl⟩
    split at h <;> cases h
    exact ⟨⟨by omega, by omega⟩, show shvBase (a / 0x100 - 0x10) + a % 0x100 = a by rw [hshv]; omega, rfl⟩
  · rintro ⟨hm, ho, hw⟩
    cases e with
    | secret k =>
      have hk : k < p.lmax := hm
      have ha : secretBase + k = a := ho
      rw [if_pos (by omega), show a - secretBase = k by omega]
    | pass k =>
      have hk : k < p.pmax := hm
      have ha : passBase + k = a := ho
      rw [if_neg (by omega), if_pos (by omega), show a - passBase = k by omega]
    | shv i k =>
      obtain ⟨hi, hk⟩ : i < 16 ∧ k < p.lmax := hm
      have ha : 0x1000 + 0x100 * i + k = a := ho
      rw [if_neg (by omega), if_neg (by omega), if_pos (by omega), show a / 0x100 - 0x10 = i by omega,
        show a % 0x100 = k by omega]
    | _ => cases hw

theorem halfAt_eq_some_iff {p : Params} {a : Nat} {e : Element} :
    halfAt p a = some e ↔ e.Mapped p ∧ e.offset = a ∧ e.width = .half := by
  unfold halfAt
  constructor
  · intro h
    split at h <;> cases h
    exact ⟨show (a - 0x0400) / 2 < p.wmax by omega, show 0x0400 + 2 * ((a - 0x0400) / 2) = a by omega, rfl⟩
  · rintro ⟨hm, ho, hw⟩
    cases e with
    | wbuf k =>
      have hk : k < p.wmax := hm
      have ha : 0x0400 + 2 * k = a := ho
      rw [if_pos (by omega), show (a - 0x0400) / 2 = k by omega]
    | _ => cases hw

/-- An access reaches an element exactly at its offset and width, when the element is mapped. -/
theorem elementAt_eq_some_iff {p : Params} {a : Nat} {w : Width} {e : Element} :
    elementAt p a w = some e ↔ e.Mapped p ∧ e.offset = a ∧ e.width = w := by
  cases w with
  | word => exact registerAt_eq_some_iff
  | half => exact halfAt_eq_some_iff
  | byte => exact byteAt_eq_some_iff

/-- Mapped elements of one width at one offset are one element. -/
theorem Element.eq_of_offset {p : Params} {e e' : Element} (h : e.Mapped p) (h' : e'.Mapped p) (hw : e.width = e'.width)
    (ho : e.offset = e'.offset) : e = e' := by
  have he := elementAt_eq_some_iff.2 ⟨h, ho, hw⟩
  rw [elementAt_eq_some_iff.2 ⟨h', rfl, rfl⟩] at he
  exact (Option.some.inj he).symm

/-! ### Reading an element after a write (R25, R36) -/

theorem writeElement_shx (v : Word) (s : State) (i : Nat) :
    writeElement v s (.shx i) = s.setShare i (v.setWidth 8) [] := rfl

theorem readElement_shx (s : State) (i : Nat) : readElement s (.shx i) = (s.shxAt i).setWidth 32 := rfl

/-- Storing a buffer byte is seen through no element but the byte's own. -/
theorem readElement_write_byte_other (s : State) {a : Nat} (b : Byte) {e : Element}
    (h : e.width = .byte → e.offset ≠ a) : readElement { s with mem := s.mem.write a b } e = readElement s e := by
  cases e with
  | secret k | pass k | shv i k => exact congrArg (BitVec.setWidth 32) (Memory.read_write_other _ _ (h rfl))
  | _ => rfl

theorem readElement_write_word_other (s : State) {k : Nat} (w : RsWord) {e : Element} (h : e ≠ .wbuf k) :
    readElement { s with wbuf := s.wbuf.write k w } e = readElement s e := by
  cases e with
  | wbuf j => exact congrArg (BitVec.setWidth 32) (Sparse.read_write_other _ (fun hj => h (congrArg Element.wbuf hj)) _)
  | _ => rfl

/-- No element aliases another. -/
theorem readElement_writeElement_other (v : Word) (s : State) {e e' : Element} (h : e.Mapped s.cfg)
    (h' : e'.Mapped s.cfg) (hne : e' ≠ e) : readElement (writeElement v s e) e' = readElement s e' := by
  cases e with
  | cmd | status | gfr | chk => rfl
  -- a register's write changes one field, which no other element shows
  | gfa => cases e' with | gfa => exact absurd rfl hne | _ => rfl
  | gfb => cases e' with | gfb => exact absurd rfl hne | _ => rfl
  | len => cases e' with | len => exact absurd rfl hne | _ => rfl
  | thr => cases e' with | thr => exact absurd rfl hne | _ => rfl
  | cnt => cases e' with | cnt => exact absurd rfl hne | _ => rfl
  | scnt => cases e' with | scnt => exact absurd rfl hne | _ => rfl
  | xsel => cases e' with | xsel => exact absurd rfl hne | _ => rfl
  | ident => cases e' with | ident => exact absurd rfl hne | _ => rfl
  | itexp => cases e' with | itexp => exact absurd rfl hne | _ => rfl
  | plen => cases e' with | plen => exact absurd rfl hne | _ => rfl
  | wlen => cases e' with | wlen => exact absurd rfl hne | _ => rfl
  | shx i =>
    cases e' with
    | shx j =>
      have hij : i ≠ j := fun hij => hne (congrArg Element.shx hij.symm)
      simp [writeElement_shx, readElement_shx, State.shxAt_setShare, hij]
    | _ => rfl
  | wbuf k => exact readElement_write_word_other s _ hne
  | secret k | pass k | shv i k =>
    exact readElement_write_byte_other s _ (fun hw ho => hne (Element.eq_of_offset h' h hw ho))

theorem toNat_setWidth_kept (v : Word) {w : Nat} (h : w ≤ 32) :
    ((v.setWidth w).setWidth 32).toNat = v.toNat % 2 ^ w := by
  have := Nat.pow_le_pow_right (n := 2) (by decide) h
  have := Nat.mod_lt v.toNat (Nat.two_pow_pos w)
  rw [BitVec.toNat_setWidth, BitVec.toNat_setWidth, Nat.mod_eq_of_lt (by omega)]

/-- A read-write element reads as the low bits of what was written to it. -/
theorem readElement_writeElement_same (v : Word) (s : State) {e : Element} {w : Nat} (h : e.Mapped s.cfg)
    (hm : s.mem.wf = true) (hb : s.wbuf.wf = true) (hw : e.storedBits = some w) :
    (readElement (writeElement v s e) e).toNat = v.toNat % 2 ^ w := by
  cases e with
  | cmd | status | gfr | chk => cases hw
  | shx i =>
    cases hw
    rw [writeElement_shx, readElement_shx, State.shxAt_setShare, if_pos ⟨rfl, h⟩]
    exact toNat_setWidth_kept v (by decide)
  | wbuf k =>
    cases hw
    simp only [readElement, writeElement, Sparse.read_write _ _ _ hb, if_pos]
    exact toNat_setWidth_kept v (by decide)
  | secret k | pass k | shv i k =>
    cases hw
    simp only [readElement, writeElement, Memory.read_write _ _ _ hm, if_pos]
    exact toNat_setWidth_kept v (by decide)
  | _ =>
    cases hw
    exact toNat_setWidth_kept v (by decide)

theorem writeElement_of_readOnly (v : Word) (s : State) {e : Element} (h : e.storedBits = none) :
    writeElement v s e = s := by
  cases e with
  | cmd | status | gfr | chk => rfl
  | _ => cases h

/-- Settles O7: the three clauses are the three rules above. -/
theorem writesKeepTheLowBits : Obligations.WritesKeepTheLowBits := by
  intro s e v h _ hm hb
  exact ⟨fun w hw => readElement_writeElement_same v s h hm hb hw, writeElement_of_readOnly v s,
    fun e' h' hne => readElement_writeElement_other v s h h' hne⟩

end Sys2Proof.Machine
end

section
/-! PROOFS of the family 10_state, the invariant: its three parts, what each way of storing does to them, and the step
lemma assembled from `runPending_cases` (spec/10_state R25, R35 to R38; spec/60_exceptions R201). -/

namespace Sys2Proof.Machine

/-! ### The parts of the invariant -/

/-- A canonical byte memory with nothing stored outside SECRET, PASS and SHV (R35, R37, R38). -/
def BytesInBuffers (p : Params) (m : Memory) : Prop := m.wf = true ∧ ∀ a, m.read a ≠ 0 → BufferOffset p a

/-- A canonical WBUF with nothing stored at WMAX or above (R36). -/
def WordsInBuffer (p : Params) (m : Sparse 10) : Prop := m.wf = true ∧ ∀ k, m.read k ≠ 0 → k < p.wmax

theorem inv_iff (s : State) :
    s.Inv ↔ BytesInBuffers s.cfg s.mem ∧ WordsInBuffer s.cfg s.wbuf ∧ LegalStatus s := by
  constructor
  · rintro ⟨hm, hw, hmem, hwbuf, hstatus⟩
    exact ⟨⟨hm, hmem⟩, ⟨hw, hwbuf⟩, hstatus⟩
  · rintro ⟨⟨hm, hmem⟩, ⟨hw, hwbuf⟩, hstatus⟩
    exact ⟨hm, hw, hmem, hwbuf, hstatus⟩

variable {p : Params}

theorem bytesInBuffers_nil : BytesInBuffers p [] := ⟨rfl, fun _ h => absurd rfl h⟩

theorem wordsInBuffer_nil : WordsInBuffer p [] := ⟨rfl, fun _ h => absurd rfl h⟩

theorem bufferOffset_secret {k : Nat} (h : k < p.lmax) : BufferOffset p (secretBase + k) := .inl ⟨k, h, rfl⟩

theorem bufferOffset_pass {k : Nat} (h : k < p.pmax) : BufferOffset p (passBase + k) := .inr (.inl ⟨k, h, rfl⟩)

theorem bufferOffset_shv {i k : Nat} (hi : i < 16) (hk : k < p.lmax) : BufferOffset p (shvBase i + k) :=
  .inr (.inr ⟨i, hi, k, hk, rfl⟩)

/-- A byte string stored inside a buffer puts nothing outside the buffers. -/
theorem BytesInBuffers.writeBytes {m : Memory} (h : BytesInBuffers p m) {a : Nat} {bs : List Byte}
    (hbs : ∀ k < bs.length, BufferOffset p (a + k)) : BytesInBuffers p (m.writeBytes a bs) := by
  refine ⟨Memory.wf_writeBytes _ _ h.1, fun b hb => ?_⟩
  by_cases hin : a ≤ b ∧ b < a + bs.length
  · obtain ⟨k, rfl⟩ := Nat.exists_eq_add_of_le hin.1
    exact hbs k (by omega)
  · rw [Memory.read_writeBytes_other _ _ _ _ hin] at hb
    exact h.2 b hb

theorem BytesInBuffers.write {m : Memory} (h : BytesInBuffers p m) {a : Nat} (ha : BufferOffset p a) (v : Byte) :
    BytesInBuffers p (m.write a v) :=
  h.writeBytes (bs := [v]) (fun k hk => by simpa [show k = 0 by simpa using hk] using ha)

theorem WordsInBuffer.writeWords {m : Sparse 10} (h : WordsInBuffer p m) {k : Nat} {ws : List RsWord}
    (hws : k + ws.length ≤ p.wmax) : WordsInBuffer p (writeWords m k ws) := by
  refine ⟨wf_writeWords _ _ h.1, fun j hj => ?_⟩
  by_cases hin : k ≤ j ∧ j < k + ws.length
  · omega
  · rw [read_writeWords_other _ _ _ _ hin] at hj
    exact h.2 j hj

theorem WordsInBuffer.write {m : Sparse 10} (h : WordsInBuffer p m) {k : Nat} (hk : k < p.wmax) (w : RsWord) :
    WordsInBuffer p (m.write k w) :=
  h.writeWords (ws := [w]) hk

/-- Points whose values fit put into entries below 16 of the share table store nothing outside the buffers. -/
theorem BytesInBuffers.setShares {ps : List Point} {i : Nat} {s : State} (h : BytesInBuffers p s.mem)
    (hi : i + ps.length ≤ 16) (hy : ∀ q ∈ ps, q.y.length ≤ p.lmax) : BytesInBuffers p (s.setShares i ps).mem := by
  induction ps generalizing i s with
  | nil => exact h
  | cons q ps ih =>
    rw [List.length_cons] at hi
    refine ih (h.writeBytes fun k hk => ?_) (by omega) (fun r hr => hy r (by simp [hr]))
    exact bufferOffset_shv (by omega) (Nat.lt_of_lt_of_le hk (hy q (by simp)))

theorem legalStatus_of_err_eq_zero {s : State} (h : s.err = 0) : LegalStatus s := ⟨.inl h, fun hne => absurd h hne⟩

theorem CmdError.code_mem_raisedCodes (e : CmdError) : e.code ∈ raisedCodes := by cases e <;> decide

/-- Error entry shows a code of R200, sets STICKY and clears RES (R201). -/
theorem legalStatus_takeError (s : State) (e : CmdError) : LegalStatus (s.takeError e) :=
  ⟨.inr (s.takeError_err e ▸ e.code_mem_raisedCodes), fun _ => ⟨s.takeError_sticky e, s.takeError_res e⟩⟩

/-! ### Every way a step changes the block keeps the invariant -/

/-- Settles O14: the memories are empty and ERR is 0. -/
theorem resetMeetsTheInvariant : Obligations.ResetMeetsTheInvariant := fun _ =>
  (inv_iff _).2 ⟨bytesInBuffers_nil, wordsInBuffer_nil, legalStatus_of_err_eq_zero rfl⟩

theorem takeError_keeps_inv {s : State} (h : s.Inv) (e : CmdError) : (s.takeError e).Inv := by
  obtain ⟨hbytes, hwords, -⟩ := (inv_iff s).1 h
  exact (inv_iff _).2 ⟨hbytes, hwords, legalStatus_takeError s e⟩

theorem writeElement_keeps_inv {s : State} (h : s.Inv) {e : Element} (he : e.Mapped s.cfg) (v : Word) :
    (writeElement v s e).Inv := by
  obtain ⟨hbytes, hwords, hstatus⟩ := (inv_iff s).1 h
  cases e with
  | secret k => exact (inv_iff _).2 ⟨hbytes.write (bufferOffset_secret he) _, hwords, hstatus⟩
  | pass k => exact (inv_iff _).2 ⟨hbytes.write (bufferOffset_pass he) _, hwords, hstatus⟩
  | shv i k => exact (inv_iff _).2 ⟨hbytes.write (bufferOffset_shv he.1 he.2) _, hwords, hstatus⟩
  | wbuf k => exact (inv_iff _).2 ⟨hbytes, hwords.write he _, hstatus⟩
  | _ => exact h

/-- RSCREATE's check leaves room for three words (R115). -/
theorem room_of_rscreate_checks {s : State} (hc : firstError (commandChecks .rscreate s) = none) :
    s.wlen.toNat + 3 ≤ s.cfg.wmax := by
  have hc : firstError [(decide (s.cfg.wmax < s.wlen.toNat + 3), CmdError.bufferRange)] = none := hc
  simpa [firstError_cons] using hc

/-- A completed command has stored nothing outside the buffers: its checks keep LEN, CNT and WLEN in range. -/
theorem commandResult_keeps_storage {i : Instr} {s t : State} (hbytes : BytesInBuffers s.cfg s.mem)
    (hwords : WordsInBuffer s.cfg s.wbuf) (hc : firstError (commandChecks i s) = none)
    (ht : commandResult i s = .ok t) : BytesInBuffers t.cfg t.mem ∧ WordsInBuffer t.cfg t.wbuf := by
  cases i with
  | gfmul | gfdiv | gftest | rspoly | rsverify =>
    cases ht
    exact ⟨hbytes, hwords⟩
  | rscreate =>
    have hroom := room_of_rscreate_checks hc
    cases ht
    exact ⟨hbytes, hwords.writeWords hroom⟩
  | split =>
    have hlegal := (firstError_splitChecks_eq_none s).1 hc
    obtain ⟨⟨-, -, hcnt⟩, -, hlmax, -⟩ := (firstError_splitChecks_eq_none s).1 hc
    cases ht
    simp only [State.setShares_cfg, State.setShares_wbuf]
    refine ⟨BytesInBuffers.setShares hbytes (by simpa using hcnt) fun q hq => ?_, hwords⟩
    obtain ⟨j, hj, rfl⟩ := List.getElem_of_mem hq
    rw [State.length_y_getElem_splitPoints hlegal]
    exact hlmax
  | fenc | fdec | recover | interp =>
    obtain ⟨-, hlmax, -⟩ := legalLength_of_mem_secretWriters (by decide) hc
    obtain ⟨bytes, hres, rfl⟩ := setSecret_of_commandResult (by decide) ht
    have hlen := length_secretResult hc hres
    exact ⟨hbytes.writeBytes fun k hk => bufferOffset_secret (hk.trans_le (hlen.trans_le hlmax)), hwords⟩

theorem exec_keeps_inv {i : Instr} {s t : State} (h : s.Inv) (ht : exec i s = .next t) : t.Inv := by
  obtain ⟨e, -, rfl⟩ | ⟨hnone, hok⟩ := exec_result_cases ht
  · exact takeError_keeps_inv h e
  · obtain ⟨hbytes, hwords, -⟩ := (inv_iff s).1 h
    obtain ⟨hbytes', hwords'⟩ :=
      commandResult_keeps_storage hbytes hwords (checks_pass_of_commandError_eq_none hnone) hok
    exact (inv_iff t).2 ⟨hbytes', hwords', legalStatus_of_err_eq_zero (err_of_commandResult hok)⟩

/-- Settles O15: case by case over what one step of the host can be. -/
theorem stepKeepsTheInvariant : Obligations.StepKeepsTheInvariant := by
  intro s t h ht
  obtain ⟨-, rfl⟩ | ⟨hd, rest, r, -, rfl, hcase⟩ := runPending_cases ht
  · exact h
  -- taking the step off the host's list changes nothing the invariant speaks of
  have hr : State.Inv { s with host := { s.host with pending := rest } } := h
  obtain ⟨-, rfl⟩ | ⟨a, w, e, -, -, rfl⟩ | ⟨a, w, v, e, -, he, -, rfl⟩ | ⟨a, w, v, -, -, hrun⟩ := hcase
  · exact resetMeetsTheInvariant s.cfg
  · exact hr
  · exact writeElement_keeps_inv hr (elementAt_eq_some_iff.1 he).1 v
  · obtain ⟨-, -, rfl⟩ | ⟨i, -, hexec⟩ := runCommand_cases hrun
    · exact takeError_keeps_inv hr _
    · exact exec_keeps_inv hr hexec

end Sys2Proof.Machine
end

section
/-! PROOFS of the family 10_state, what a command reads, writes and draws (spec/10_state R39, R40). -/

namespace Sys2Proof.Machine

/-! ### What a completed command writes -/

/-- After a completed command TOK differs only by GFTEST and RES is set only by RSVERIFY. -/
theorem tok_res_of_completedStatus {i : Instr} {s t : State} (h : t.status = completedStatus i s) :
    (i ≠ .gftest → t.tok = s.tok) ∧ (i ≠ .rsverify → t.res = false) := by
  cases i with
  | gftest =>
    obtain ⟨-, hres, -, -⟩ := fields_of_status h
    exact ⟨fun hne => absurd rfl hne, fun _ => hres⟩
  | rsverify =>
    obtain ⟨-, -, htok, -⟩ := fields_of_status h
    exact ⟨fun _ => htok, fun hne => absurd rfl hne⟩
  | _ =>
    obtain ⟨-, hres, htok, -⟩ := fields_of_status h
    exact ⟨fun _ => htok, fun _ => hres⟩

/-- Error entry writes nothing, so it writes nothing outside a command's row. -/
theorem writesOnly_takeError (i : Instr) (s : State) (e : CmdError) : WritesOnly i s (s.takeError e) := by
  cases i with
  | fenc | fdec | recover | interp | rscreate => exact ⟨rfl, fun _ _ => rfl⟩
  | split => exact ⟨rfl, fun _ _ => rfl, fun _ _ => rfl⟩
  | _ => rfl

theorem writesSecretOnly_setSecret {s : State} {bytes : List Byte} (h : bytes.length = s.len.toNat) :
    WritesSecretOnly s (s.beginCommand.setSecret bytes) :=
  ⟨rfl, fun a ha => State.read_setSecret_other _ _ a (h.symm ▸ ha)⟩

/-- Putting points into the share table changes SHX and the byte memory only. -/
theorem State.setShares_frame (ps : List Point) (i : Nat) (s : State) :
    s.setShares i ps = { s with shx := (s.setShares i ps).shx, mem := (s.setShares i ps).mem } := by
  induction ps generalizing i s with
  | nil => rfl
  | cons q ps ih => exact ih (i + 1) (s.setShare i q.x q.y)

/-- A completed SPLIT writes its row of R39 only: CNT entries, LEN bytes each. -/
theorem writesShareTableOnly_split {s : State} (hs : LegalSplit s) :
    WritesShareTableOnly s
      { s.beginCommand.setShares 0 s.splitPoints with scnt := s.cnt, random := s.splitDraws.2 } := by
  refine ⟨?_, fun i hi => ?_, fun a ha => ?_⟩
  · rw [State.setShares_frame]
    rfl
  · exact State.shxAt_setShares_other _ _ s.beginCommand i (by simp; omega)
  · refine State.read_setShares_other _ _ s.beginCommand a fun j hj => ?_
    rw [Nat.zero_add, State.length_y_getElem_splitPoints hs]
    exact ha j (by simpa using hj)

theorem writesChecksumOnly_rscreate {s t : State} (ht : commandResult .rscreate s = .ok t) :
    WritesChecksumOnly s t := by
  cases ht
  exact ⟨rfl, fun k hk => read_writeWords_other _ _ _ _ hk⟩

/-- A completed command has written its row of R39 only. -/
theorem writesOnly_of_commandResult {i : Instr} {s t : State} (hc : firstError (commandChecks i s) = none)
    (ht : commandResult i s = .ok t) : WritesOnly i s t := by
  cases i with
  | fenc | fdec | recover | interp =>
    obtain ⟨bytes, hres, rfl⟩ := setSecret_of_commandResult (by decide) ht
    exact writesSecretOnly_setSecret (length_secretResult hc hres)
  | split =>
    cases ht
    exact writesShareTableOnly_split ((firstError_splitChecks_eq_none s).1 hc)
  | rscreate => exact writesChecksumOnly_rscreate ht
  | _ =>
    cases ht
    rfl

/-- A command changes nothing outside its "writes" column, and on error nothing but STATUS. -/
theorem exec_writes {i : Instr} {s t : State} (h : exec i s = .next t) :
    WritesOnly i s t ∧ (i ≠ .gftest → t.tok = s.tok) ∧ (i ≠ .rsverify → t.res = false) ∧
      (t.err ≠ 0 → OnlyStatusDiffers s t) := by
  obtain ⟨e, -, rfl⟩ | ⟨hnone, hok⟩ := exec_result_cases h
  · exact ⟨writesOnly_takeError i s e, fun _ => s.takeError_tok e, fun _ => s.takeError_res e, fun _ => rfl⟩
  · obtain ⟨htok, hres⟩ := tok_res_of_completedStatus (status_of_commandResult hok)
    exact ⟨writesOnly_of_commandResult (checks_pass_of_commandError_eq_none hnone) hok, htok, hres,
      fun herr => absurd (err_of_commandResult hok) herr⟩

/-! ### What a command draws (R40) -/

theorem random_of_commandResult {i : Instr} (hi : i ≠ .split) {s t : State} (ht : commandResult i s = .ok t) :
    t.random = s.random := by
  cases i with
  | split => exact absurd rfl hi
  | fenc | fdec | recover | interp =>
    obtain ⟨bytes, -, rfl⟩ := setSecret_of_commandResult (by decide) ht
    rfl
  | _ =>
    cases ht
    rfl

/-- Settles O22: SPLIT is the one command with another random source, and with T < 2 its draws are none. -/
theorem onlySplitDraws : Obligations.OnlySplitDraws := by
  intro i s t h hne
  obtain ⟨e, -, rfl⟩ | ⟨-, hok⟩ := exec_result_cases h
  · exact absurd rfl hne
  have hi : i = .split := by
    by_contra hi
    exact hne (random_of_commandResult hi hok)
  subst hi
  refine ⟨rfl, ?_, err_of_commandResult hok⟩
  by_contra hthr
  cases hok
  exact hne (congrArg Prod.snd (splitDraws_of_lt_two (Nat.lt_of_not_le hthr) s.len.toNat s.random))

/-! ### What a command reads -/

theorem xs_eq_of_points_eq {s u : State} (h : s.points = u.points) : s.xs = u.xs := by
  rw [← s.map_x_points, h, u.map_x_points]

theorem hash_eq_of_cfg_hash_eq {s u : State} (h : s.cfg.hash = u.cfg.hash) : s.hash = u.hash := congrArg hashPair h

theorem lengthChecks_congr {s u : State} (hlmax : s.cfg.lmax = u.cfg.lmax) (hlen : s.len = u.len) :
    lengthChecks s = lengthChecks u := by
  rw [lengthChecks, lengthChecks, hlmax, hlen]

theorem cipherChecks_congr {s u : State} (hlmax : s.cfg.lmax = u.cfg.lmax) (hpmax : s.cfg.pmax = u.cfg.pmax)
    (hlen : s.len = u.len) (hplen : s.plen = u.plen) (hpass : s.passphrase = u.passphrase) :
    cipherChecks s = cipherChecks u := by
  rw [cipherChecks, cipherChecks, lengthChecks_congr hlmax hlen, hpmax, hplen, hpass]

/-- The checks of a command depend on its "reads" column and the capacities only. -/
theorem commandChecks_congr {i : Instr} {s u : State} (h : SameReads i s u) :
    commandChecks i s = commandChecks i u := by
  cases i with
  | gfmul | gftest => rfl
  | gfdiv =>
    obtain ⟨-, hb⟩ := h
    exact congrArg (fun b : Byte => [(b == 0, CmdError.divideByZero)]) hb
  | rspoly =>
    obtain ⟨hwmax, -, hwlen, -⟩ := h
    show [(decide (s.cfg.wmax < s.wlen.toNat), _)] = [(decide (u.cfg.wmax < u.wlen.toNat), _)]
    rw [hwmax, hwlen]
  | rscreate =>
    obtain ⟨hwmax, -, -, hwlen, -⟩ := h
    show [(decide (s.cfg.wmax < s.wlen.toNat + 3), _)] = [(decide (u.cfg.wmax < u.wlen.toNat + 3), _)]
    rw [hwmax, hwlen]
  | rsverify =>
    obtain ⟨hwmax, -, -, hwlen, -⟩ := h
    show [(decide (s.cfg.wmax < s.wlen.toNat), _)] = [(decide (u.cfg.wmax < u.wlen.toNat), _)]
    rw [hwmax, hwlen]
  | fenc | fdec =>
    obtain ⟨hlmax, hpmax, -, hlen, hplen, hpass, -⟩ := h
    exact cipherChecks_congr hlmax hpmax hlen hplen hpass
  | split =>
    obtain ⟨hlmax, -, hthr, hcnt, hlen, -⟩ := h
    show splitChecks s = splitChecks u
    rw [splitChecks, splitChecks, lengthChecks_congr hlmax hlen, hthr, hcnt]
  | recover =>
    obtain ⟨hlmax, -, hthr, hscnt, hlen, hpoints⟩ := h
    show recoverChecks s = recoverChecks u
    rw [recoverChecks, recoverChecks, lengthChecks_congr hlmax hlen, hthr, hscnt, xs_eq_of_points_eq hpoints]
  | interp =>
    obtain ⟨hlmax, -, hscnt, hlen, hpoints⟩ := h
    show interpChecks s = interpChecks u
    rw [interpChecks, interpChecks, lengthChecks_congr hlmax hlen, hscnt, xs_eq_of_points_eq hpoints]

/-- What a command leaves in SECRET depends on its "reads" column and the hash configuration only. -/
theorem secretResult_congr {i : Instr} (hi : i ∈ secretWriters) {s u : State} (h : SameReads i s u) :
    secretResult i s = secretResult i u := by
  cases i with
  | fenc =>
    obtain ⟨-, -, hhash, -, -, hpass, hitexp, hident, hsecret⟩ := h
    show Except.ok (feistelEncrypt (roundFunction s.hash s.passphrase s.itexp s.ident) s.secret) = _
    rw [hash_eq_of_cfg_hash_eq hhash, hpass, hitexp, hident, hsecret]
    rfl
  | fdec =>
    obtain ⟨-, -, hhash, -, -, hpass, hitexp, hident, hsecret⟩ := h
    show Except.ok (feistelDecrypt (roundFunction s.hash s.passphrase s.itexp s.ident) s.secret) = _
    rw [hash_eq_of_cfg_hash_eq hhash, hpass, hitexp, hident, hsecret]
    rfl
  | recover =>
    obtain ⟨-, hhash, hthr, -, hlen, hpoints⟩ := h
    show recoverSecret s.hash s.len.toNat s.thr.toNat s.points = recoverSecret u.hash u.len.toNat u.thr.toNat u.points
    rw [hash_eq_of_cfg_hash_eq hhash, hthr, hlen, hpoints]
  | interp =>
    obtain ⟨-, hxsel, -, hlen, hpoints⟩ := h
    show Except.ok (interpolate s.len.toNat s.points s.xsel) = .ok (interpolate u.len.toNat u.points u.xsel)
    rw [hxsel, hlen, hpoints]
  | _ => exact absurd hi (by decide)

/-- The error a command ends with, if any, depends on its "reads" column only. -/
theorem commandError_congr {i : Instr} {s u : State} (h : SameReads i s u) : commandError i s = commandError i u := by
  have hlate : lateError (secretResult i s) = lateError (secretResult i u) := by
    by_cases hi : i ∈ secretWriters
    · rw [secretResult_congr hi h]
    · rw [secretResult_of_not_mem_secretWriters hi, secretResult_of_not_mem_secretWriters hi]
      rfl
  exact congrArg₂ (fun checks late => (firstError checks).or late) (commandChecks_congr h) hlate

/-! ### The share table after SPLIT -/

/-- The share table holds the points put into it, as long as no value reaches into the next entry. -/
theorem State.readBytes_setShares {ps : List Point} {i j n : Nat} {s : State} (hm : s.mem.wf = true)
    (hy : ∀ q ∈ ps, q.y.length = n) (hn : n ≤ 0x100) (hj : j < ps.length) :
    (s.setShares i ps).mem.readBytes (shvBase (i + j)) n = ps[j].y := by
  induction ps generalizing i j s with
  | nil => simp at hj
  | cons q ps ih =>
    have hq : q.y.length = n := hy q (by simp)
    rw [State.setShares]
    cases j with
    | zero =>
      trans (s.setShare i q.x q.y).mem.readBytes (shvBase i) n
      · refine List.map_congr_left fun k hk => State.read_setShares_other _ _ _ _ fun l hl => ?_
        rw [List.mem_range] at hk
        unfold shvBase
        omega
      · rw [State.setShare_mem, ← hq]
        exact Memory.readBytes_writeBytes _ _ hm
    | succ j =>
      rw [show i + (j + 1) = i + 1 + j by omega]
      exact ih (Memory.wf_writeBytes _ _ hm) (fun r hr => hy r (by simp [hr])) (by simpa using hj)

/-- Entry j of the share table after the points of a legal SPLIT have been put there (R158). -/
theorem State.point_setShares_splitPoints {s : State} (hs : LegalSplit s) (hm : s.mem.wf = true) {j : Nat}
    (hj : j < s.splitPoints.length) : (s.beginCommand.setShares 0 s.splitPoints).point j = s.splitPoints[j] := by
  have hcnt : j < 16 := by
    obtain ⟨⟨-, -, hcnt⟩, -⟩ := hs
    rw [State.length_splitPoints] at hj
    omega
  have hlen : s.len.toNat ≤ 0x100 := by
    obtain ⟨-, -, hlen, -⟩ := hs
    exact hlen.trans (lmax_le s.cfg)
  have hy : ∀ q ∈ s.splitPoints, q.y.length = s.len.toNat := fun q hq => by
    obtain ⟨l, hl, rfl⟩ := List.getElem_of_mem hq
    exact State.length_y_getElem_splitPoints hs l hl
  have hshx := State.shxAt_setShares s.splitPoints 0 j s.beginCommand hj (by omega)
  have hshv := State.readBytes_setShares (i := 0) (s := s.beginCommand) hm hy hlen hj
  rw [Nat.zero_add] at hshx hshv
  rw [State.point, hshx, State.setShares_len, State.beginCommand_len, hshv]

theorem splitDraws_congr {s u : State} (h : SameReads .split s u) : s.splitDraws = u.splitDraws := by
  obtain ⟨-, -, hthr, -, hlen, -, hrandom⟩ := h
  show splitDraws s.thr.toNat s.len.toNat s.random = splitDraws u.thr.toNat u.len.toNat u.random
  rw [hthr, hlen, hrandom]

theorem splitPoints_congr {s u : State} (h : SameReads .split s u) : s.splitPoints = u.splitPoints := by
  have hdraws := splitDraws_congr h
  obtain ⟨-, hhash, hthr, hcnt, -, hsecret, -⟩ := h
  show splitSecret s.hash s.thr.toNat s.cnt.toNat s.secret s.splitDraws.1.1 s.splitDraws.1.2 = _
  rw [hash_eq_of_cfg_hash_eq hhash, hthr, hcnt, hsecret, hdraws]
  rfl

/-! ### The written values depend on the "reads" column only -/

theorem checksumPolymod_congr {p q : Params} (hgen : p.gen = q.gen) (hcust : p.cust = q.cust) (data : List RsWord) :
    checksumPolymod p data = checksumPolymod q data := by
  rw [checksumPolymod, checksumPolymod, hgen, hcust]

theorem verifyPolymod_congr {p q : Params} (hgen : p.gen = q.gen) (hcust : p.cust = q.cust) (data : List RsWord) :
    verifyPolymod p data = verifyPolymod q data := by
  rw [verifyPolymod, verifyPolymod, hgen, hcust]

theorem readWords_writeWords {m : Sparse 10} (k : Nat) (ws : List RsWord) (hm : m.wf = true) :
    readWords (writeWords m k ws) k ws.length = ws := by
  apply List.ext_getElem (by simp)
  intro j _ hj
  simp only [readWords, List.getElem_map, List.getElem_range]
  exact read_writeWords k j ws hm hj

/-- Two SPLITs on one row of R39 fill the share table alike. -/
theorem sameWrites_split {s u : State} (hms : s.mem.wf = true) (hmu : u.mem.wf = true) (h : SameReads .split s u)
    (hs : LegalSplit s) (hu : LegalSplit u) :
    SameWrites .split s { s.beginCommand.setShares 0 s.splitPoints with scnt := s.cnt, random := s.splitDraws.2 }
      { u.beginCommand.setShares 0 u.splitPoints with scnt := u.cnt, random := u.splitDraws.2 } := by
  have hpoints := splitPoints_congr h
  have hdraws := congrArg Prod.snd (splitDraws_congr h)
  obtain ⟨-, -, -, hcnt, -⟩ := h
  refine ⟨hcnt, hdraws, fun i hi => ?_⟩
  have hi : i < s.splitPoints.length := by rwa [State.length_splitPoints]
  exact (State.point_setShares_splitPoints hs hms hi).trans
    ((List.getElem_of_eq hpoints hi).trans (State.point_setShares_splitPoints hu hmu (hpoints ▸ hi)).symm)

theorem sameWrites_of_commandResult {i : Instr} {s u t v : State} (hms : s.mem.wf = true) (hmu : u.mem.wf = true)
    (hws : s.wbuf.wf = true) (hwu : u.wbuf.wf = true) (h : SameReads i s u)
    (hcs : firstError (commandChecks i s) = none) (hcu : firstError (commandChecks i u) = none)
    (ht : commandResult i s = .ok t) (hv : commandResult i u = .ok v) : SameWrites i s t v := by
  cases i with
  | gfmul =>
    obtain ⟨ha, hb⟩ := h
    cases ht
    cases hv
    exact congrArg₂ gfMul ha hb
  | gfdiv =>
    obtain ⟨ha, hb⟩ := h
    cases ht
    cases hv
    exact congrArg₂ gfDiv ha hb
  | gftest =>
    cases ht
    cases hv
    exact (packStatus_tok ..).trans (packStatus_tok ..).symm
  | rspoly =>
    obtain ⟨-, hgen, -, hwords⟩ := h
    cases ht
    cases hv
    exact congrArg₂ polymod hgen hwords
  | rscreate =>
    obtain ⟨-, hgen, hcust, hwlen, hwords⟩ := h
    cases ht
    cases hv
    have hpoly : checksumPolymod s.cfg s.words = checksumPolymod u.cfg u.words := by
      rw [hwords, checksumPolymod_congr hgen hcust]
    refine ⟨hpoly, congrArg (· + 3) hwlen, ?_⟩
    refine (readWords_writeWords s.wlen.toNat (createChecksum s.cfg s.words) hws).trans ?_
    rw [hwlen, createChecksum, hpoly]
    exact (readWords_writeWords u.wlen.toNat (createChecksum u.cfg u.words) hwu).symm
  | rsverify =>
    obtain ⟨-, hgen, hcust, -, hwords⟩ := h
    cases ht
    cases hv
    have hpoly : verifyPolymod s.cfg s.words = verifyPolymod u.cfg u.words := by
      rw [hwords, verifyPolymod_congr hgen hcust]
    refine ⟨hpoly, (packStatus_res ..).trans (Eq.trans ?_ (packStatus_res ..).symm)⟩
    rw [verifyChecksum, hpoly]
    rfl
  | split =>
    cases ht
    cases hv
    exact sameWrites_split hms hmu h ((firstError_splitChecks_eq_none s).1 hcs) ((firstError_splitChecks_eq_none u).1 hcu)
  | fenc | fdec | recover | interp =>
    have hs := secretResult_eq_secret (by decide) hms hcs ht
    rw [secretResult_congr (by decide) h, secretResult_eq_secret (by decide) hmu hcu hv] at hs
    exact (Except.ok.inj hs).symm

/-- Settles O21: the frame is `exec_writes`; two runs end with one `commandError`, and where it is none with the same
written values. -/
theorem readAndWriteSets : Obligations.ReadAndWriteSets := by
  refine ⟨fun i s t => exec_writes, fun i s u t v hms hmu hws hwu h ht hv => ?_⟩
  have herr := commandError_congr h
  obtain ⟨e, he, rfl⟩ | ⟨hs, hok⟩ := exec_result_cases ht
  all_goals obtain ⟨f, hf, rfl⟩ | ⟨hu, hok'⟩ := exec_result_cases hv
  · have hef : e = f := by simpa [he, hf] using herr
    subst hef
    exact ⟨by simp, fun h0 => absurd ((s.takeError_err e).symm.trans h0) e.code_ne_zero⟩
  · simp [he, hu] at herr
  · simp [hs, hf] at herr
  · refine ⟨(err_of_commandResult hok).trans (err_of_commandResult hok').symm, fun _ => ?_⟩
    exact sameWrites_of_commandResult hms hmu hws hwu h (checks_pass_of_commandError_eq_none hs)
      (checks_pass_of_commandError_eq_none hu) hok hok'

end Sys2Proof.Machine
end

section
/-! PROOFS of the family 10_state, a command written to CMD (spec/10_state R33) and the hash configuration as a parameter of
the step (R20, spec/45_hash_primitives R190). -/

namespace Sys2Proof.Machine

/-- A step that takes a write of a command's word to CMD is that command, whatever way commands are run. -/
theorem runPending_of_command (run : Instr → State → Result) {s : State} {rest : List HostStep} {c : Word} {i : Instr}
    (hc : decode c = .ok i) (hp : s.host.pending = .write 0x0000 .word c :: rest) :
    runPending run s = run i { s with host := { s.host with pending := rest } } := by
  unfold runPending
  rw [hp]
  show runCommand run c _ = _
  unfold runCommand
  rw [hc]

theorem runPending_of_read_cmd (run : Instr → State → Result) {s : State} {rest : List HostStep}
    (hp : s.host.pending = .read 0x0000 .word :: rest) :
    runPending run s = .next { s with host := { pending := rest, returned := 0 :: s.host.returned } } := by
  unfold runPending
  rw [hp]
  rfl

theorem decode_of_decodeTableWord {n w : Nat} {i : Instr} (h : decodeTableWord n w = some i) :
    decode (commandWord n w) = .ok i := by
  rw [decodeTableWord] at h
  cases hd : decode (commandWord n w) with
  | error d => rw [hd] at h; cases h
  | ok j => rw [hd] at h; cases h; rfl

/-- Settles O3: `withFetchWord` puts such a write first, and taking it off again gives the state back. -/
theorem cmdWriteRunsDecodedCommand : Obligations.CmdWriteRunsDecodedCommand := by
  refine fun s rest => ⟨fun c i hc hp => ?_, fun w i hw => ?_, fun hp => ?_⟩
  · exact runPending_of_command exec hc hp
  · exact runPending_of_command exec (decode_of_decodeTableWord hw) rfl
  · exact runPending_of_read_cmd exec hp

theorem exec_eq_execWith (i : Instr) (s : State) : exec i s = execWith s.hash i s := by cases i <;> rfl

/-- A command that calls no hash does not depend on the hash pair. -/
theorem execWith_eq_exec_of_no_hash (hash : HashConfig) {i : Instr} (s : State) (hfenc : i ≠ .fenc) (hfdec : i ≠ .fdec)
    (hsplit : i ≠ .split) (hrecover : i ≠ .recover) : execWith hash i s = exec i s := by
  cases i with
  | fenc => exact absurd rfl hfenc
  | fdec => exact absurd rfl hfdec
  | split => exact absurd rfl hsplit
  | recover => exact absurd rfl hrecover
  | _ => rfl

/-! A write of CMD uses the way commands are run on the state it finds only, so a step uses it on the state with the host's
step taken off only. -/

theorem runCommand_congr {run run' : Instr → State → Result} {s : State} (h : ∀ i, run i s = run' i s) (c : Word) :
    runCommand run c s = runCommand run' c s := by
  unfold runCommand
  cases decode c with
  | error d => rfl
  | ok i => exact h i

theorem hostStep_congr {run run' : Instr → State → Result} {s : State} (h : ∀ i, run i s = run' i s) (hd : HostStep) :
    hostStep run hd s = hostStep run' hd s := by
  cases hd with
  | reset => rfl
  | read a w => rfl
  | write a w v =>
    rw [hostStep, hostStep]
    cases elementAt s.cfg a w with
    | none => rfl
    | some e =>
      cases e with
      | cmd => exact runCommand_congr h v
      | _ => rfl

theorem runPending_congr {run run' : Instr → State → Result} {s : State}
    (h : ∀ (i : Instr) (rest : List HostStep), run i { s with host := { s.host with pending := rest } } =
      run' i { s with host := { s.host with pending := rest } }) : runPending run s = runPending run' s := by
  unfold runPending
  cases s.host.pending with
  | nil => rfl
  | cons hd rest => exact hostStep_congr (fun i => h i rest) hd

/-- Settles O59: command by command, and the step by what it runs. -/
theorem stepTakesTheHashConfiguration : Obligations.StepTakesTheHashConfiguration := by
  refine ⟨fun s => ⟨fun i => exec_eq_execWith i s, ?_⟩, fun s h => ?_, fun hash i s => ?_, fun hash s rest c i hc hp => ?_⟩
  · exact runPending_congr fun i rest => exec_eq_execWith i _
  · rw [State.hash, h]
    exact ⟨rfl, rfl⟩
  · exact execWith_eq_exec_of_no_hash hash s
  · exact runPending_of_command (execWith hash) hc hp

end Sys2Proof.Machine
end

section
/-! PROOFS of the family 10_state, the tables EXP and LOG (spec/10_state R21, R22) and the block after reset (R42). The
finite facts about the tables are evaluated row by row, as the spec prints them. -/

namespace Sys2Proof.Machine

/-! ### The tables -/

/-- What holds of every row and column of a table holds of every entry. -/
theorem forall_entry_of_forall_row_col {P : Nat → Prop} (h : ∀ r < 16, ∀ c < 16, P (16 * r + c)) (i : Nat)
    (hi : i < 256) : P i := by
  have hrc := h (i / 16) (by omega) (i % 16) (by omega)
  rwa [Nat.div_add_mod] at hrc

theorem logAt_expAt (i : Nat) (hi : i < 255) : logAt (expAt i) = i :=
  forall_entry_of_forall_row_col (P := fun i => i < 255 → logAt (expAt i) = i) (by decide) i (by omega) hi

theorem expAt_logAt : ∀ v : Byte, v ≠ 0 → logAt v ≤ 254 ∧ expAt (logAt v) = v := by decide

/-- Each entry of EXP but the last is followed by its product with the generator (R21). -/
theorem expAt_succ (i : Nat) (hi : i < 255) : expAt (i + 1) = timesGenerator (expAt i) :=
  forall_entry_of_forall_row_col (P := fun i => i < 255 → expAt (i + 1) = timesGenerator (expAt i)) (by decide) i
    (by omega) hi

/-- The multiplication by the generator in integers: t = (v << 1) XOR v, reduced by 0x11B when bit 8 is set (R21). -/
theorem toNat_timesGenerator : ∀ v : Byte,
    let t := (v.toNat <<< 1) ^^^ v.toNat
    (timesGenerator v).toNat = t ^^^ (if t.testBit 8 then 0x11B else 0) := by decide

/-- GFTEST's loop runs along EXP and finds every entry right (R98). -/
theorem foldl_selfTestStep (n : Nat) (hn : n ≤ 255) :
    (List.range n).foldl selfTestStep (true, 0x01) = (true, expAt n) := by
  induction n with
  | zero => rfl
  | succ n ih =>
    rw [List.range_succ, List.foldl_append, ih (by omega), expAt_succ n (by omega)]
    simp [selfTestStep, logAt_expAt n (by omega)]

theorem tablesOk_eq_true : tablesOk = true := by
  simp only [tablesOk, foldl_selfTestStep 255 le_rfl]
  decide

/-- Settles O24: each table inverts the other. -/
theorem logTableInvertsExp : Obligations.LogTableInvertsExp := ⟨logAt_expAt, expAt_logAt, rfl⟩

/-- Settles O23: LOG gives the one index of a nonzero byte, since each table inverts the other. -/
theorem expTableFollowsTheConstruction : Obligations.ExpTableFollowsTheConstruction := by
  refine ⟨rfl, rfl, fun i hi => ?_, fun v hv => ?_⟩
  · rw [expAt_succ i (by omega)]
    exact toNat_timesGenerator (expAt i)
  obtain ⟨hle, hv⟩ := expAt_logAt v hv
  refine ⟨logAt v, by omega, hv, fun j hj he => ?_⟩
  rw [← he, logAt_expAt j hj]

/-! ### The block after reset -/

theorem State.shxAt_resetOf (p : Params) (i : Nat) : (State.resetOf p).shxAt i = 0 := by
  unfold State.shxAt
  by_cases hi : i < 16
  · simp [State.resetOf, hi]
  · simp [hi]

/-- Settles O12: the fields are those of `resetOf`, and an empty memory reads 0 everywhere. -/
theorem resetValues : Obligations.ResetValues := fun p =>
  ⟨rfl, rfl, rfl, rfl, rfl, rfl, rfl, rfl, rfl, rfl, rfl, rfl, rfl, rfl, State.shxAt_resetOf p, fun _ => rfl,
    fun _ => rfl, rfl, rfl, rfl, rfl⟩

/-- A command whose result is known completes in it. -/
theorem exec_of_commandResult {i : Instr} {s t : State} (hc : firstError (commandChecks i s) = none)
    (ht : commandResult i s = .ok t) : exec i s = .next t := by
  rw [exec_eq_command_of_result]
  exact command_of_completion hc ht

/-- A command ends with the error of its first failing check. -/
theorem endsInError_of_failed_check {i : Instr} {s : State} {e : CmdError}
    (hc : firstError (commandChecks i s) = some e) : EndsInError e i s := by
  apply endsInError_of_eq
  rw [exec_eq_command_of_result]
  exact command_of_failed_check hc

theorem verifyPolymod_reference_nil : verifyPolymod referenceParams [] = 0x244A8EE3 := by decide

theorem createChecksum_reference_nil : createChecksum referenceParams [] = [413, 424, 113] := rfl

/-- Settles O13: five commands complete in the result their rule gives; six fail the check their rule puts first. -/
theorem firstCommandsAfterReset : Obligations.FirstCommandsAfterReset := by
  refine ⟨?gfmul, ?_, ?gftest, ?rspoly, ?rsverify, ?rscreate, ?_, ?_, ?_, ?_, ?_⟩
  case gfmul => exact ⟨_, exec_of_commandResult rfl rfl, rfl, rfl⟩
  case gftest =>
    have hres : commandResult .gftest State.reset =
        .ok { State.reset.beginCommand with status := testedStatus true State.reset.beginCommand } := by
      rw [← tablesOk_eq_true]
      rfl
    exact ⟨_, exec_of_commandResult rfl hres, rfl, rfl, rfl⟩
  case rspoly => exact ⟨_, exec_of_commandResult rfl rfl, rfl, rfl⟩
  case rsverify =>
    refine ⟨_, exec_of_commandResult rfl rfl, rfl, ?_, verifyPolymod_reference_nil⟩
    refine (packStatus_res ..).trans ?_
    exact beq_eq_false_iff_ne.2 (verifyPolymod_reference_nil.trans_ne (by decide))
  case rscreate =>
    have hres : commandResult .rscreate State.reset = .ok { State.reset.beginCommand with
        wbuf := writeWords [] 0 [413, 424, 113], chk := checksumPolymod referenceParams [], wlen := 3 } := by
      rw [← createChecksum_reference_nil]
      rfl
    exact ⟨_, exec_of_commandResult rfl hres, rfl, rfl, rfl⟩
  all_goals exact endsInError_of_failed_check rfl

end Sys2Proof.Machine
end

section
/-! PROOFS of the family 20_memory: what a host step does with an access that reaches an element and with one that reaches
none (spec/20_memory R51 to R54, R57), and the canonical form of a memory (log 13, log 14). -/

namespace Sys2Proof.Machine

/-! ### The canonical form -/

/-- A canonical memory holds nothing below its first key. -/
theorem Sparse.le_of_read_ne_zero {w lo a : Nat} {m : Sparse w} (hm : Sparse.wfFrom lo m = true)
    (h : m.read a ≠ 0) : lo ≤ a :=
  Nat.le_of_not_lt fun ha => h (Sparse.read_below hm ha)

/-- The cells of a canonical memory are fixed by its reads: an empty one reads 0 everywhere, and of two others each has
its first key at most the other's, since both read as nonzero there. -/
theorem Sparse.eq_of_read_eq {w lo : Nat} {m n : Sparse w} (hm : Sparse.wfFrom lo m = true)
    (hn : Sparse.wfFrom lo n = true) (h : ∀ a, m.read a = n.read a) : m = n := by
  induction m generalizing lo n with
  | nil =>
    cases n with
    | nil => rfl
    | cons c n =>
      obtain ⟨k, v⟩ := c
      obtain ⟨-, hv, -⟩ := (Sparse.wfFrom_cons ..).1 hn
      have hk : Sparse.read ((k, v) :: n) k = v := if_pos rfl
      exact absurd (hk.symm.trans (h k).symm) hv
  | cons c m ih =>
    obtain ⟨j, u⟩ := c
    obtain ⟨-, hu, hm'⟩ := (Sparse.wfFrom_cons ..).1 hm
    have hj : Sparse.read ((j, u) :: m) j = u := if_pos rfl
    cases n with
    | nil => exact absurd (hj.symm.trans (h j)) hu
    | cons c n =>
      obtain ⟨k, v⟩ := c
      obtain ⟨-, hv, hn'⟩ := (Sparse.wfFrom_cons ..).1 hn
      have hk : Sparse.read ((k, v) :: n) k = v := if_pos rfl
      have hkj : k ≤ j := Sparse.le_of_read_ne_zero ((Sparse.wfFrom_cons ..).2 ⟨le_rfl, hv, hn'⟩) (by rwa [← h, hj])
      have hjk : j ≤ k := Sparse.le_of_read_ne_zero ((Sparse.wfFrom_cons ..).2 ⟨le_rfl, hu, hm'⟩) (by rwa [h, hk])
      obtain rfl : j = k := Nat.le_antisymm hjk hkj
      obtain rfl : u = v := by rw [← hj, h, hk]
      have hrest : ∀ a, Sparse.read m a = Sparse.read n a := by
        intro a
        by_cases ha : j = a
        · subst a
          rw [Sparse.read_below hm' (Nat.lt_succ_self j), Sparse.read_below hn' (Nat.lt_succ_self j)]
        · have hcons := h a
          rwa [Sparse.read_cons, Sparse.read_cons, if_neg ha, if_neg ha] at hcons
      rw [ih hm' hn' hrest]

/-- Settles O17: the byte memory and WBUF are two memories of that kind. -/
theorem canonicalMemoriesAreEqualByReads : Obligations.CanonicalMemoriesAreEqualByReads := by
  have hmem (m n : Memory) (hm : m.wf = true) (hn : n.wf = true) (h : ∀ a, m.read a = n.read a) : m = n :=
    Sparse.eq_of_read_eq hm hn h
  refine ⟨fun _ _ _ => Sparse.eq_of_read_eq, hmem, fun s t hsm htm hsb htb hm hb => ?_⟩
  rw [← hmem s.mem t.mem hsm htm hm, ← Sparse.eq_of_read_eq hsb htb hb]

/-! ### Accesses that reach an element -/

/-- Settles O8: the register, half-word and byte maps are exact each. -/
theorem windowMapIsExact : Obligations.WindowMapIsExact := fun _ _ _ _ => elementAt_eq_some_iff

theorem elementAt_of_mapped {p : Params} {e : Element} (h : e.Mapped p) : elementAt p e.offset e.width = some e :=
  elementAt_eq_some_iff.2 ⟨h, rfl, rfl⟩

theorem elementAt_eq_none {p : Params} {a : Nat} {w : Width}
    (h : ∀ e : Element, e.Mapped p → ¬(e.offset = a ∧ e.width = w)) : elementAt p a w = none := by
  refine Option.eq_none_iff_forall_ne_some.2 fun e he => ?_
  obtain ⟨hm, hat⟩ := elementAt_eq_some_iff.1 he
  exact h e hm hat

/-! ### What one access does -/

theorem runPending_of_pending (run : Instr → State → Result) {s : State} {hd : HostStep} {rest : List HostStep}
    (hp : s.host.pending = hd :: rest) :
    runPending run s = hostStep run hd { s with host := { s.host with pending := rest } } := by
  unfold runPending
  rw [hp]

theorem runPending_of_no_pending (run : Instr → State → Result) {s : State} (hp : s.host.pending = []) :
    runPending run s = .next s := by
  unfold runPending
  rw [hp]

theorem hostStep_read (run : Instr → State → Result) {s : State} {e : Element} (he : e.Mapped s.cfg) :
    hostStep run (.read e.offset e.width) s = .next (s.returnToHost (readElement s e)) := by
  unfold hostStep
  simp only [elementAt_of_mapped he]

theorem hostStep_write (run : Instr → State → Result) {s : State} {e : Element} {v : Word} (he : e.Mapped s.cfg)
    (hne : e ≠ .cmd) : hostStep run (.write e.offset e.width v) s = .next (writeElement v s e) := by
  have hat := elementAt_of_mapped he
  unfold hostStep
  cases e with
  | cmd => exact absurd rfl hne
  | _ => simp only [hat]

theorem hostStep_read_of_elementAt_eq_none (run : Instr → State → Result) {s : State} {a : Nat} {w : Width}
    (h : elementAt s.cfg a w = none) : hostStep run (.read a w) s = .refused .busError := by
  unfold hostStep
  simp only [h]

theorem hostStep_write_of_elementAt_eq_none (run : Instr → State → Result) {s : State} {a : Nat} {w : Width}
    {v : Word} (h : elementAt s.cfg a w = none) : hostStep run (.write a w v) s = .refused .busError := by
  unfold hostStep
  simp only [h]

/-- The host is no part of what an element reads as. -/
theorem readElement_host (s : State) (host : HostPort) (e : Element) :
    readElement { s with host := host } e = readElement s e := by
  cases e with
  | _ => rfl

/-- STATUS reads with each of its fields in its place and zeros above (R34). -/
theorem readElement_status_fields (s : State) :
    (readElement s .status).extractLsb' 0 8 = s.err ∧ (readElement s .status).getLsbD 8 = s.res ∧
    (readElement s .status).getLsbD 9 = s.tok ∧ (readElement s .status).getLsbD 10 = s.sticky ∧
    ∀ i, 11 ≤ i → (readElement s .status).getLsbD i = false := by
  have hbit (i : Nat) : (readElement s .status).getLsbD i = (decide (i < 32) && s.status.getLsbD i) :=
    BitVec.getLsbD_setWidth ..
  refine ⟨?_, hbit 8, hbit 9, hbit 10, fun i hi => ?_⟩
  · exact BitVec.extractLsb'_setWidth_of_le (by decide)
  · rw [hbit, BitVec.getLsbD_of_ge _ _ hi, Bool.and_false]

/-- Settles O5: a mapped element is reached at its own offset and width. -/
theorem legalReadReturnsTheElement : Obligations.LegalReadReturnsTheElement := by
  refine ⟨fun s rest e he hp => ?_, fun s => ?_, readElement_status_fields⟩
  · have hread := (runPending_of_pending exec hp).trans (hostStep_read exec he)
    rwa [readElement_host] at hread
  · exact ⟨BitVec.toNat_setWidth_of_le (by decide), BitVec.toNat_setWidth_of_le (by decide),
      BitVec.toNat_setWidth_of_le (by decide), rfl⟩

/-- Settles O6: as for a read, the access reaches the element. -/
theorem legalWriteStoresTheElement : Obligations.LegalWriteStoresTheElement :=
  fun _ _ _ _ he hne hp => (runPending_of_pending exec hp).trans (hostStep_write exec he hne)

/-- Settles O9: such an access reaches no element. -/
theorem otherAccessesAreBusErrors : Obligations.OtherAccessesAreBusErrors := by
  intro s a w rest h
  have hnone := elementAt_eq_none h
  constructor
  · intro hp
    exact (runPending_of_pending exec hp).trans (hostStep_read_of_elementAt_eq_none exec hnone)
  · intro v hp
    exact (runPending_of_pending exec hp).trans (hostStep_write_of_elementAt_eq_none exec hnone)

/-- Settles O11, whatever way commands are run. -/
theorem blockStandsStillWithoutTheHost : Obligations.BlockStandsStillWithoutTheHost :=
  fun _ => runPending_of_no_pending exec

end Sys2Proof.Machine
end

section
/-! PROOFS of the family 30_encoding: the decoder is the inverse of the encoder on the words of the opcode map and
refuses every other word (spec/30_encoding R70 to R72), and a refused word written to CMD (R74). -/

namespace Sys2Proof

/-! ### The word of a command -/

theorem Laws.Encoding.statement (i : Instr) : Laws.Encoding.Statement i := by
  cases i with
  | gfmul => exact gfmul
  | gfdiv => exact gfdiv
  | gftest => exact gftest
  | rspoly => exact rspoly
  | rscreate => exact rscreate
  | rsverify => exact rsverify
  | fenc => exact fenc
  | fdec => exact fdec
  | split => exact split
  | recover => exact recover
  | interp => exact interp

@[simp] theorem decode_encode (i : Instr) : decode (encode i) = .ok i := (Laws.Encoding.statement i).2.1

theorem encode_injective : Function.Injective encode := fun i j h =>
  Except.ok.inj <| calc
    Except.ok i = decode (encode i) := (decode_encode i).symm
    _ = decode (encode j) := congrArg decode h
    _ = Except.ok j := decode_encode j

/-- The two columns of R72: a command's word is its opcode with ZERO = 0. -/
theorem encode_of_mem_opcodeMap : ∀ row ∈ opcodeMap, encode row.2 = row.1.setWidth 32 := by decide

/-! ### The words that decode -/

/-- ZERO and OPC are the whole word (R70). -/
theorem setWidth_opcField {w : Word} (h : zeroField w = 0) : (opcField w).setWidth 32 = w := by
  have hz : w.toNat / 256 % 16777216 = 0 := by
    simpa [zeroField, Nat.shiftRight_eq_div_pow] using congrArg BitVec.toNat h
  have hw := w.isLt
  apply BitVec.eq_of_toNat_eq
  simp only [opcField, BitVec.toNat_setWidth, BitVec.extractLsb'_toNat, Nat.shiftRight_zero]
  omega

/-- All a word that decodes can be: ZERO is 0 and a row of the opcode map has its OPC. -/
theorem opcodeMap_row_of_decode {w : Word} {i : Instr} (h : decode w = .ok i) :
    zeroField w = 0 ∧ (opcField w, i) ∈ opcodeMap := by
  unfold decode at h
  split at h
  · cases h
  · rename_i hz
    refine ⟨not_not.1 hz, ?_⟩
    split at h
    · rename_i row hrow
      cases h
      have hopc : row.1 = opcField w := by simpa using List.find?_some hrow
      exact hopc ▸ List.mem_of_find?_eq_some hrow
    · cases h

theorem decode_eq_ok_iff {w : Word} {i : Instr} : decode w = .ok i ↔ w = encode i := by
  constructor
  · intro h
    obtain ⟨hzero, hrow⟩ := opcodeMap_row_of_decode h
    exact (setWidth_opcField hzero).symm.trans (encode_of_mem_opcodeMap _ hrow).symm
  · rintro rfl
    exact decode_encode i

theorem decode_eq_error_of_ne_encode {w : Word} (h : ∀ i, w ≠ encode i) : ∃ e, decode w = .error e := by
  cases hd : decode w with
  | error e => exact ⟨e, rfl⟩
  | ok i => exact absurd (decode_eq_ok_iff.1 hd) (h i)

namespace Machine

/-- Settles O2: a word that decodes is the word of the opcode map's row, and every command's word decodes back to it. -/
theorem decodeAcceptsExactlyTheCommandWords : Obligations.DecodeAcceptsExactlyTheCommandWords := fun _ =>
  ⟨fun _ => decode_eq_ok_iff, fun _ _ hi hj => encode_injective (hi.symm.trans hj), decode_eq_error_of_ne_encode⟩

/-! ### A refused word written to CMD -/

theorem runCommand_of_decode_eq_error (run : Instr → State → Result) {c : Word} {e : DecodeError}
    (h : decode c = .error e) (s : State) : runCommand run c s = .next (s.takeError .illegalCommand) := by
  unfold runCommand
  rw [h]

theorem hostStep_write_cmd (run : Instr → State → Result) (c : Word) (s : State) :
    hostStep run (.write 0x0000 .word c) s = runCommand run c s := rfl

theorem zero_ne_encode (i : Instr) : (0 : Word) ≠ encode i := fun h => by
  have hd : decode 0 = .error .unassignedOpcode := by decide
  rw [decode_eq_ok_iff.2 h] at hd
  cases hd

/-- Settles O4: such a word does not decode, so the write takes the error IllegalCommand and nothing more. -/
theorem illegalWordOnlyRecordsTheError : Obligations.IllegalWordOnlyRecordsTheError := by
  refine ⟨zero_ne_encode, fun s c rest hc hp => ?_⟩
  obtain ⟨e, he⟩ := decode_eq_error_of_ne_encode hc
  have hrun (r : State) : hostStep exec (.write 0x0000 .word c) r = .next (r.takeError .illegalCommand) :=
    (hostStep_write_cmd exec c r).trans (runCommand_of_decode_eq_error exec he r)
  exact ⟨_, (runPending_of_pending exec hp).trans (hrun _), State.takeError_err .., State.takeError_res ..,
    State.takeError_sticky .., State.takeError_tok .., rfl⟩

/-- Settles O1: six rows of the opcode map and three words outside it, evaluated. -/
theorem sampleWordsDecode : Obligations.SampleWordsDecode :=
  ⟨decode_encode .gfmul, decode_encode .gfdiv, decode_encode .rscreate, decode_encode .fdec, decode_encode .split,
    decode_encode .interp, by decide, by decide, by decide⟩

end Machine
end Sys2Proof
end

section
/-! PROOFS of the family 40_gf256 (spec/40_gf256 R90 to R98). The one idea: for a nonzero byte a, multiply(a, ·) is
LOG[a] multiplications by the generator, since EXP lists the generator's powers and their order divides 255. The laws of
multiply are then laws of iteration; the product of R90 is the same iteration because it commutes with the generator,
which, as both of its factors enter it linearly, has to be seen on the powers of x only. -/

namespace Sys2Proof.Machine

/-! ### Maps that are linear over GF(2) -/

/-- `f` takes the sum of R90, bitwise XOR, to the sum. -/
abbrev XorLinear {m n : Nat} (f : BitVec m → BitVec n) : Prop := Function.Semiconj₂ f (· ^^^ ·) (· ^^^ ·)

theorem XorLinear.map_zero {m n : Nat} {f : BitVec m → BitVec n} (hf : XorLinear f) : f 0 = 0 :=
  calc f 0 = f (0 ^^^ 0) := by rw [BitVec.xor_self]; rfl
    _ = f 0 ^^^ f 0 := hf 0 0
    _ = 0 := BitVec.xor_self

theorem xorLinear_zero (m n : Nat) : XorLinear (fun _ : BitVec m => (0 : BitVec n)) := fun _ _ =>
  BitVec.xor_self.symm

theorem xorLinear_setWidth (m n : Nat) : XorLinear (BitVec.setWidth n : BitVec m → BitVec n) := fun _ _ =>
  BitVec.setWidth_xor

theorem xorLinear_shiftLeft (n k : Nat) : XorLinear (fun v : BitVec n => v <<< k) := fun _ _ =>
  BitVec.shiftLeft_xor_distrib ..

theorem XorLinear.xor {m n : Nat} {f g : BitVec m → BitVec n} (hf : XorLinear f) (hg : XorLinear g) :
    XorLinear (fun v => f v ^^^ g v) := fun a b => by
  simp only [hf.eq, hg.eq]
  ac_rfl

/-- A loop whose turns are linear is linear. -/
theorem xorLinear_foldl {n : Nat} {turn : BitVec n → Nat → BitVec n} (h : ∀ k, XorLinear (turn · k)) (ks : List Nat) :
    XorLinear (fun r => ks.foldl turn r) := by
  induction ks with
  | nil => exact Function.Semiconj₂.id_left _
  | cons k ks ih => exact Function.Semiconj₂.comp ih (h k)

/-- Nonzero bytes have a power of x whose removal leaves a smaller byte. -/
theorem exists_xor_twoPow_lt : ∀ v : Byte, v ≠ 0 → ∃ i < 8, (v ^^^ BitVec.twoPow 8 i).toNat < v.toNat := by decide

/-- Linear maps of bytes are equal when they agree on the powers of x. -/
theorem XorLinear.ext {n : Nat} {f g : Byte → BitVec n} (hf : XorLinear f) (hg : XorLinear g)
    (h : ∀ i < 8, f (BitVec.twoPow 8 i) = g (BitVec.twoPow 8 i)) (v : Byte) : f v = g v := by
  by_cases hv : v = 0
  · rw [hv, hf.map_zero, hg.map_zero]
  obtain ⟨i, hi, hlt⟩ := exists_xor_twoPow_lt v hv
  have hsum : v = (v ^^^ BitVec.twoPow 8 i) ^^^ BitVec.twoPow 8 i := by simp
  calc f v = f (v ^^^ BitVec.twoPow 8 i) ^^^ f (BitVec.twoPow 8 i) := by rw [← hf.eq, ← hsum]
    _ = g (v ^^^ BitVec.twoPow 8 i) ^^^ g (BitVec.twoPow 8 i) := by rw [XorLinear.ext hf hg h, h i hi]
    _ = g v := by rw [← hg.eq, ← hsum]
termination_by v.toNat
decreasing_by exact hlt

/-! ### Terms chosen by a coefficient -/

/-- The term `t` when its coefficient is 1, else nothing. -/
def termIf {n : Nat} (c : Bool) (t : BitVec n) : BitVec n := if c then t else 0

theorem termIf_true {n : Nat} (t : BitVec n) : termIf true t = t := rfl

theorem termIf_false {n : Nat} (t : BitVec n) : termIf false t = 0 := rfl

theorem xor_termIf {n : Nat} (c : Bool) (r t : BitVec n) : (if c then r ^^^ t else r) = r ^^^ termIf c t := by
  cases c <;> simp [termIf_true, termIf_false]

/-- A term is linear in its polynomial. -/
theorem xorLinear_termIf {n : Nat} (c : Bool) : XorLinear (termIf c : BitVec n → BitVec n) := fun _ _ => by
  cases c <;> simp [termIf_true, termIf_false]

/-- A term is linear in the polynomial its coefficient is taken from. -/
theorem xorLinear_termIf_getLsbD {m n : Nat} (i : Nat) (t : BitVec n) :
    XorLinear (fun v : BitVec m => termIf (v.getLsbD i) t) := fun a b => by
  simp only [BitVec.getLsbD_xor]
  cases a.getLsbD i <;> cases b.getLsbD i <;> simp [termIf_true, termIf_false]

/-- One step of a reduction (R90): the multiple `m` of the modulus is added when bit `i` is set. -/
def reductionStep {n : Nat} (i : Nat) (m r : BitVec n) : BitVec n := if r.getLsbD i then r ^^^ m else r

theorem reductionStep_eq_xor {n : Nat} (i : Nat) (m r : BitVec n) :
    reductionStep i m r = r ^^^ termIf (r.getLsbD i) m := xor_termIf ..

theorem xorLinear_reductionStep {n : Nat} (i : Nat) (m : BitVec n) : XorLinear (reductionStep i m) := by
  rw [funext (reductionStep_eq_xor i m)]
  exact XorLinear.xor (Function.Semiconj₂.id_left _) (xorLinear_termIf_getLsbD i m)

/-! ### The product of R90 is linear in both factors -/

theorem polyProduct_eq_foldl (a b : Byte) :
    polyProduct a b = (List.range 8).foldl (fun r i => r ^^^ termIf (b.getLsbD i) (a.setWidth 16 <<< i)) 0 :=
  congrArg (List.foldl · 0 (List.range 8)) (funext₂ fun _ _ => xor_termIf ..)

/-- A sum of terms that are linear in `v`, added to something linear in `v`, is linear in `v`. -/
theorem xorLinear_sum {m n : Nat} {term : Nat → BitVec m → BitVec n} (h : ∀ i, XorLinear (term i)) (is : List Nat)
    {start : BitVec m → BitVec n} (hstart : XorLinear start) :
    XorLinear (fun v => is.foldl (fun r i => r ^^^ term i v) (start v)) := by
  induction is generalizing start with
  | nil => exact hstart
  | cons i is ih => exact ih (hstart.xor (h i))

theorem polyReduce_eq_foldl (v : BitVec 16) :
    polyReduce v =
      ([7, 6, 5, 4, 3, 2, 1, 0].foldl (fun r k => reductionStep (8 + k) (0x11B#16 <<< k) r) v).setWidth 8 := rfl

theorem xorLinear_polyReduce : XorLinear polyReduce := by
  rw [funext polyReduce_eq_foldl]
  exact (xorLinear_setWidth 16 8).comp (xorLinear_foldl (fun k => xorLinear_reductionStep (8 + k) (0x11B#16 <<< k)) _)

theorem xorLinear_fieldProduct_left (b : Byte) : XorLinear (fieldProduct · b) := by
  refine Function.Semiconj₂.comp xorLinear_polyReduce (f := (polyProduct · b)) ?_
  simp only [polyProduct_eq_foldl]
  exact xorLinear_sum (fun i =>
    (xorLinear_termIf _).comp ((xorLinear_shiftLeft 16 i).comp (xorLinear_setWidth 8 16))) _ (xorLinear_zero 8 16)

theorem xorLinear_fieldProduct_right (a : Byte) : XorLinear (fieldProduct a) := by
  refine Function.Semiconj₂.comp xorLinear_polyReduce (f := polyProduct a) ?_
  rw [funext (polyProduct_eq_foldl a)]
  exact xorLinear_sum (fun i => xorLinear_termIf_getLsbD i _) _ (xorLinear_zero 8 16)

/-! ### The generator x + 1 -/

theorem timesGenerator_eq_reductionStep (v : Byte) :
    timesGenerator v = (reductionStep 8 0x11B ((v.setWidth 9 <<< 1) ^^^ v.setWidth 9)).setWidth 8 :=
  (apply_ite (BitVec.setWidth 8) ..).symm

theorem xorLinear_timesGenerator : XorLinear timesGenerator := by
  have hshift : XorLinear (fun v : Byte => (v.setWidth 9 <<< 1) ^^^ v.setWidth 9) :=
    XorLinear.xor ((xorLinear_shiftLeft 9 1).comp (xorLinear_setWidth 8 9)) (xorLinear_setWidth 8 9)
  rw [funext timesGenerator_eq_reductionStep]
  exact (xorLinear_setWidth 9 8).comp ((xorLinear_reductionStep 8 0x11B).comp hshift)

theorem timesGenerator_zero : timesGenerator 0 = 0 := rfl

/-- A multiplication by the generator can be moved out of the product of R90: both sides are linear in both factors, and
agree on the powers of x. -/
theorem fieldProduct_timesGenerator (a b : Byte) :
    fieldProduct (timesGenerator a) b = timesGenerator (fieldProduct a b) := by
  have hpowers : ∀ i < 8, ∀ j < 8, fieldProduct (timesGenerator (BitVec.twoPow 8 i)) (BitVec.twoPow 8 j) =
      timesGenerator (fieldProduct (BitVec.twoPow 8 i) (BitVec.twoPow 8 j)) := by decide
  have hleft : XorLinear (fun a => fieldProduct (timesGenerator a) b) :=
    (xorLinear_fieldProduct_left b).comp xorLinear_timesGenerator
  have hright (c : Byte) : XorLinear (fun b => timesGenerator (fieldProduct c b)) :=
    Function.Semiconj₂.comp xorLinear_timesGenerator (xorLinear_fieldProduct_right c)
  refine hleft.ext (Function.Semiconj₂.comp xorLinear_timesGenerator (xorLinear_fieldProduct_left b)) (fun i hi => ?_) a
  exact (xorLinear_fieldProduct_right _).ext (hright _) (hpowers i hi) b

theorem one_fieldProduct (b : Byte) : fieldProduct 1 b = b :=
  (xorLinear_fieldProduct_right 1).ext (g := id) (Function.Semiconj₂.id_left _) (by decide) b

theorem zero_fieldProduct (b : Byte) : fieldProduct 0 b = 0 := (xorLinear_fieldProduct_left b).map_zero

/-! ### EXP lists the powers of the generator -/

theorem iterate_timesGenerator_one_of_le (i : Nat) (hi : i ≤ 255) : timesGenerator^[i] 1 = expAt i := by
  induction i with
  | zero => rfl
  | succ i ih => rw [Function.iterate_succ_apply', ih (by omega), expAt_succ i (by omega)]

/-- The generator's order divides 255, so its powers are read from EXP modulo 255 (R92). -/
theorem iterate_timesGenerator_one (n : Nat) : timesGenerator^[n] 1 = expAt (n % 255) := by
  have horder : timesGenerator^[255] 1 = 1 := iterate_timesGenerator_one_of_le 255 le_rfl
  calc timesGenerator^[n] 1 = timesGenerator^[n % 255] ((timesGenerator^[255])^[n / 255] 1) := by
        rw [← Function.iterate_mul, ← Function.iterate_add_apply, Nat.mod_add_div]
    _ = timesGenerator^[n % 255] 1 := by rw [Function.iterate_fixed horder]
    _ = expAt (n % 255) := iterate_timesGenerator_one_of_le _ (by omega)

theorem iterate_timesGenerator_logAt {v : Byte} (hv : v ≠ 0) : timesGenerator^[logAt v] 1 = v := by
  obtain ⟨hle, hexp⟩ := expAt_logAt v hv
  rw [iterate_timesGenerator_one_of_le _ (by omega), hexp]

theorem expAt_ne_zero {i : Nat} (hi : i < 255) : expAt i ≠ 0 := fun h => by
  have hlog : (0 : Nat) = i := (congrArg logAt h).symm.trans (logAt_expAt i hi)
  subst hlog
  exact absurd h (by decide)

/-! ### The laws of multiply (R92) -/

theorem gfMul_zero (a : Byte) : gfMul a 0 = 0 := if_pos (.inr rfl)

theorem zero_gfMul (b : Byte) : gfMul 0 b = 0 := if_pos (.inl rfl)

theorem gfMul_of_ne_zero {a b : Byte} (ha : a ≠ 0) (hb : b ≠ 0) : gfMul a b = expAt ((logAt a + logAt b) % 255) :=
  if_neg (not_or.2 ⟨ha, hb⟩)

theorem gfMul_comm (a b : Byte) : gfMul a b = gfMul b a := by
  by_cases ha : a = 0
  · rw [ha, zero_gfMul, gfMul_zero]
  by_cases hb : b = 0
  · rw [hb, zero_gfMul, gfMul_zero]
  rw [gfMul_of_ne_zero ha hb, gfMul_of_ne_zero hb ha, Nat.add_comm]

/-- Multiplying by a nonzero byte is multiplying by the generator as often as its logarithm says. -/
theorem gfMul_eq_iterate {a : Byte} (ha : a ≠ 0) (b : Byte) : gfMul a b = timesGenerator^[logAt a] b := by
  by_cases hb : b = 0
  · rw [hb, gfMul_zero, Function.iterate_fixed timesGenerator_zero]
  · rw [gfMul_of_ne_zero ha hb, ← iterate_timesGenerator_one, Function.iterate_add_apply,
      iterate_timesGenerator_logAt hb]

theorem one_gfMul (b : Byte) : gfMul 1 b = b := gfMul_eq_iterate (by decide) b

theorem gfMul_one (a : Byte) : gfMul a 1 = a := (gfMul_comm a 1).trans (one_gfMul a)

/-- A loop of multiplications by the generator can be moved out of a product. -/
theorem iterate_gfMul (n : Nat) (a b : Byte) : gfMul (timesGenerator^[n] a) b = timesGenerator^[n] (gfMul a b) := by
  by_cases hb : b = 0
  · rw [hb, gfMul_zero, gfMul_zero, Function.iterate_fixed timesGenerator_zero]
  · simp only [gfMul_comm _ b, gfMul_eq_iterate hb]
    rw [← Function.iterate_add_apply, Nat.add_comm, Function.iterate_add_apply]

theorem gfMul_assoc (a b c : Byte) : gfMul (gfMul a b) c = gfMul a (gfMul b c) := by
  by_cases ha : a = 0
  · simp only [ha, zero_gfMul]
  · rw [gfMul_eq_iterate ha, iterate_gfMul, gfMul_eq_iterate ha]

theorem gfMul_xor (a b c : Byte) : gfMul a (b ^^^ c) = gfMul a b ^^^ gfMul a c := by
  by_cases ha : a = 0
  · simp only [ha, zero_gfMul, BitVec.xor_self]; rfl
  · simp only [gfMul_eq_iterate ha]
    exact Function.Semiconj₂.iterate xorLinear_timesGenerator (logAt a) b c

theorem xor_gfMul (a b c : Byte) : gfMul (a ^^^ b) c = gfMul a c ^^^ gfMul b c := by
  simp only [gfMul_comm _ c, gfMul_xor]

theorem gfMul_ne_zero {a b : Byte} (ha : a ≠ 0) (hb : b ≠ 0) : gfMul a b ≠ 0 := by
  rw [gfMul_of_ne_zero ha hb]
  exact expAt_ne_zero (by omega)

theorem gfMul_eq_zero {a b : Byte} (h : gfMul a b = 0) : a = 0 ∨ b = 0 := by
  by_contra hne
  obtain ⟨ha, hb⟩ := not_or.1 hne
  exact gfMul_ne_zero ha hb h

theorem gfMul_right_cancel {a b c : Byte} (hc : c ≠ 0) (h : gfMul a c = gfMul b c) : a = b := by
  have hzero : gfMul (a ^^^ b) c = 0 := by rw [xor_gfMul, h, BitVec.xor_self]; rfl
  exact BitVec.xor_eq_zero_iff.1 ((gfMul_eq_zero hzero).resolve_right hc)

/-- Settles O25: both are LOG[a] multiplications of b by the generator. -/
theorem multiplyIsTheFieldProduct : Obligations.MultiplyIsTheFieldProduct := fun a b => by
  by_cases ha : a = 0
  · rw [ha, zero_gfMul, zero_fieldProduct]
  have hcomm : Function.Semiconj (fieldProduct · b) timesGenerator timesGenerator := (fieldProduct_timesGenerator · b)
  calc gfMul a b = timesGenerator^[logAt a] b := gfMul_eq_iterate ha b
    _ = timesGenerator^[logAt a] (fieldProduct 1 b) := by rw [one_fieldProduct]
    _ = fieldProduct (timesGenerator^[logAt a] 1) b := ((hcomm.iterate_right _).eq 1).symm
    _ = fieldProduct a b := by rw [iterate_timesGenerator_logAt ha]

/-- Settles O26: the laws above, one by one. -/
theorem multiplyFieldLaws : Obligations.MultiplyFieldLaws := fun a b c =>
  ⟨gfMul_comm a b, gfMul_assoc a b c, gfMul_xor a b c, gfMul_one a, gfMul_zero a, gfMul_eq_zero⟩

/-! ### divide (R94) and the normalised modulus (R96) -/

/-- The remainder of the integer division by 255 is never negative. -/
theorem natCast_mod255 (v : Int) : (mod255 v : Int) = v % 255 := Int.toNat_of_nonneg (Int.emod_nonneg v (by decide))

theorem mod255_lt (v : Int) : mod255 v < 255 := by
  have hmod := natCast_mod255 v
  omega

theorem dvd_sub_mod255 (v : Int) : (255 : Int) ∣ v - (mod255 v : Int) := by
  rw [natCast_mod255]
  exact Int.dvd_self_sub_emod

/-- Settles O28: for every integer, and its three examples evaluated. -/
theorem modulusIsNormalised : Obligations.ModulusIsNormalised :=
  ⟨fun v => ⟨mod255_lt v, dvd_sub_mod255 v⟩, rfl, rfl, rfl⟩

/-- R94's two ways to write the index of a quotient. -/
theorem mod255_sub {m n : Nat} (hn : n ≤ 254) : mod255 ((m : Int) - n) = (m + 255 - n) % 255 := by
  have hmod := natCast_mod255 ((m : Int) - n)
  omega

theorem zero_gfDiv (b : Byte) : gfDiv 0 b = 0 := rfl

theorem gfDiv_of_ne_zero {a b : Byte} (ha : a ≠ 0) (hb : b ≠ 0) :
    gfDiv a b = expAt ((logAt a + 255 - logAt b) % 255) :=
  (if_neg ha).trans (congrArg expAt (mod255_sub (expAt_logAt b hb).1))

theorem gfMul_gfDiv (a : Byte) {b : Byte} (hb : b ≠ 0) : gfMul (gfDiv a b) b = a := by
  by_cases ha : a = 0
  · rw [ha, zero_gfDiv, zero_gfMul]
  have hlt : (logAt a + 255 - logAt b) % 255 < 255 := Nat.mod_lt _ (by decide)
  obtain ⟨hlea, hexp⟩ := expAt_logAt a ha
  obtain ⟨hleb, -⟩ := expAt_logAt b hb
  have hindex : ((logAt a + 255 - logAt b) % 255 + logAt b) % 255 = logAt a := by omega
  rw [gfDiv_of_ne_zero ha hb, gfMul_of_ne_zero (expAt_ne_zero hlt) hb, logAt_expAt _ hlt, hindex, hexp]

theorem eq_gfDiv_of_gfMul_eq {a b q : Byte} (hb : b ≠ 0) (h : gfMul q b = a) : q = gfDiv a b :=
  gfMul_right_cancel hb (h.trans (gfMul_gfDiv a hb).symm)

/-- Settles O27: the logarithms cancel, and a nonzero divisor can be cancelled. -/
theorem divideIsTheUniqueQuotient : Obligations.DivideIsTheUniqueQuotient := fun a _ hb =>
  ⟨gfMul_gfDiv a hb, fun _ => eq_gfDiv_of_gfMul_eq hb⟩

theorem gfDiv_self {b : Byte} (hb : b ≠ 0) : gfDiv b b = 1 := (eq_gfDiv_of_gfMul_eq hb (one_gfMul b)).symm

theorem gfDiv_one (b : Byte) : gfDiv b 1 = b := (eq_gfDiv_of_gfMul_eq (by decide) (gfMul_one b)).symm

/-! ### The commands (R93, R95, R98) -/

/-- A command whose checks pass and whose result has the flags `beginCommand` left completes in its result. -/
theorem completes_of_commandResult {i : Instr} {s t : State} {P : State → Prop}
    (hc : firstError (commandChecks i s) = none) (ht : commandResult i s = .ok t) (hst : t.status = clearedStatus s)
    (hP : P t) : Completes i s P :=
  ⟨t, exec_of_commandResult hc ht, fields_of_status hst, hP⟩

theorem gfdivChecks_of_zero {s : State} (h : s.gfb = 0) :
    firstError (commandChecks .gfdiv s) = some .divideByZero := if_pos (beq_iff_eq.2 h)

theorem gfdivChecks_of_ne_zero {s : State} (h : s.gfb ≠ 0) : firstError (commandChecks .gfdiv s) = none :=
  if_neg (mt beq_iff_eq.1 h)

/-- Settles O29: GFMUL has no check, and its result differs from the state it finds in GFR and the flags. -/
theorem gfmulResult : Obligations.GfmulResult :=
  ⟨decode_encode .gfmul, fun _ => completes_of_commandResult rfl rfl rfl ⟨rfl, rfl⟩, fun _ _ => gfMul_of_ne_zero,
    fun b => ⟨zero_gfMul b, gfMul_zero b, one_gfMul b⟩, by decide, by decide⟩

/-- Settles O30: GFDIV's one check is that GFB is not 0, and its result differs in GFR and the flags. -/
theorem gfdivResult : Obligations.GfdivResult :=
  ⟨decode_encode .gfdiv, fun _ h => endsInError_of_failed_check (gfdivChecks_of_zero h),
    fun _ h => completes_of_commandResult (gfdivChecks_of_ne_zero h) rfl rfl ⟨rfl, rfl⟩, fun _ _ => gfDiv_of_ne_zero,
    fun b hb => ⟨zero_gfDiv b, gfDiv_self hb, gfDiv_one b⟩, by decide, by decide, by decide⟩

/-- Settles O31: GFTEST has no check, and its loop finds the tables good. -/
theorem gftestResult : Obligations.GftestResult := by
  refine ⟨decode_encode .gftest, fun s => ?_⟩
  have hstatus : completedStatus .gftest s = packStatus 0 false true s.sticky :=
    congrArg (packStatus 0 false · s.sticky) tablesOk_eq_true
  obtain ⟨herr, hres, htok, hsticky⟩ := fields_of_status ((status_of_commandResult rfl).trans hstatus)
  exact ⟨_, exec_of_commandResult rfl rfl, herr, hres, htok, hsticky, rfl⟩

end Sys2Proof.Machine
end

section
/-! PROOFS of the family 41_rs1024, the functions (spec/41_rs1024 R111 to R118). The one idea: a step of polymod is linear
over GF(2) in the accumulator and the word together (`polymodStep_xor`), so a fold over a wordwise XOR is the XOR of two
folds; and the words of a 30-bit value, fed to the accumulator 0, never reach the selector, so they rebuild the value. -/

namespace Sys2Proof.Machine

/-! ### One step (R111) -/

theorem xorSelected_eq_foldl (gen : Vector Acc 10) (b c : Acc) :
    xorSelected gen b c = gen.toList.zipIdx.foldl (fun r g => r ^^^ termIf (b.getLsbD g.2) g.1) c :=
  congrArg (List.foldl · c gen.toList.zipIdx) (funext₂ fun _ _ => xor_termIf ..)

/-- The shift, the mask and the word of R111 are the low 20 bits with the word below them. -/
theorem polymodStep_eq_xorSelected_append (gen : Vector Acc 10) (c : Acc) (w : RsWord) :
    polymodStep gen c w = xorSelected gen (c >>> 20) (c.extractLsb' 0 20 ++ w) := by
  refine congrArg (xorSelected gen (c >>> 20)) (BitVec.eq_of_getLsbD_eq fun i hi => ?_)
  have hmask : ∀ j < 20, (0xFFFFF#30).getLsbD j = true := by decide
  rw [BitVec.getLsbD_append]
  by_cases hlow : i < 10
  · simp [hlow, hi]
  · have hi' : i - 10 < 20 := by omega
    simp [hlow, hi, hi', hmask, BitVec.getLsbD_of_ge w i (by omega), -BitVec.getLsbD_eq_getElem]

/-- Settles O32: the XORs of the ten constants, in the order the loop of R111 takes them. -/
theorem polymodStepSelectsByTheTopTenBits : Obligations.PolymodStepSelectsByTheTopTenBits := by
  intro g0 g1 g2 g3 g4 g5 g6 g7 g8 g9 c w
  rw [polymodStep_eq_xorSelected_append, xorSelected_eq_foldl]
  simp only [BitVec.getLsbD_ushiftRight]
  rfl

/-- With no selector bit set no constant is XORed in. -/
theorem xorSelected_zero (gen : Vector Acc 10) (c : Acc) : xorSelected gen 0 c = c := by
  simp [xorSelected_eq_foldl, termIf_false]

/-! ### polymod is affine (R118 (b)) -/

/-- The XOR of the selected constants is linear in the selector and the value it goes onto. -/
theorem xorSelected_xor (gen : Vector Acc 10) (a b c d : Acc) :
    xorSelected gen (a ^^^ b) (c ^^^ d) = xorSelected gen a c ^^^ xorSelected gen b d := by
  simp only [xorSelected_eq_foldl]
  induction gen.toList.zipIdx generalizing c d with
  | nil => rfl
  | cons g gs ih =>
    have hturn : (c ^^^ d) ^^^ termIf ((a ^^^ b).getLsbD g.2) g.1 =
        (c ^^^ termIf (a.getLsbD g.2) g.1) ^^^ (d ^^^ termIf (b.getLsbD g.2) g.1) := by
      rw [(xorLinear_termIf_getLsbD g.2 g.1).eq a b]
      ac_rfl
    rw [List.foldl_cons, hturn, ih]
    rfl

/-- A step of polymod is linear in the accumulator and the word together. -/
theorem polymodStep_xor (gen : Vector Acc 10) (c d : Acc) (v w : RsWord) :
    polymodStep gen (c ^^^ d) (v ^^^ w) = polymodStep gen c v ^^^ polymodStep gen d w := by
  have happend : ((c ^^^ d).extractLsb' 0 20 ++ (v ^^^ w) : Acc) =
      (c.extractLsb' 0 20 ++ v) ^^^ (d.extractLsb' 0 20 ++ w) := by
    rw [BitVec.extractLsb'_xor]
    exact BitVec.xor_append.symm
  simp only [polymodStep_eq_xorSelected_append, BitVec.ushiftRight_xor_distrib, happend]
  exact xorSelected_xor ..

theorem foldl_polymodStep_xor (gen : Vector Acc 10) (c d : Acc) {u v : List RsWord} (h : u.length = v.length) :
    (List.zipWith (fun a b => a ^^^ b) u v).foldl (polymodStep gen) (c ^^^ d) =
      u.foldl (polymodStep gen) c ^^^ v.foldl (polymodStep gen) d := by
  induction u generalizing c d v with
  | nil =>
    obtain rfl := List.length_eq_zero_iff.1 h.symm
    rfl
  | cons a u ih =>
    obtain ⟨b, v, rfl⟩ := List.exists_cons_of_length_eq_add_one h.symm
    rw [List.zipWith_cons_cons, List.foldl_cons, polymodStep_xor, ih _ _ (Nat.succ.inj h)]
    rfl

theorem zipWith_xor_zeros (v : List RsWord) :
    List.zipWith (fun a b => a ^^^ b) v (List.replicate v.length 0) = v := by
  induction v with
  | nil => rfl
  | cons a v ih => exact congrArg₂ List.cons BitVec.xor_zero ih

/-- A change `v` of a sequence changes its polymod by what `v` does to the accumulator 0, whatever the sequence is. -/
theorem polymod_zipWith_xor (gen : Vector Acc 10) {u v : List RsWord} (h : u.length = v.length) :
    polymod gen (List.zipWith (fun a b => a ^^^ b) u v) = polymod gen u ^^^ v.foldl (polymodStep gen) 0 :=
  foldl_polymodStep_xor gen 1 0 h

/-- Settles O33: v is itself a change, of the zero words. -/
theorem polymodIsAffine : Obligations.PolymodIsAffine := by
  intro gen u v h
  have hv : polymod gen v = v.foldl (polymodStep gen) 0 ^^^ polymod gen (List.replicate u.length 0) := by
    have hzeros := foldl_polymodStep_xor gen 0 1 (u := v) (v := List.replicate v.length 0) (by simp)
    rw [zipWith_xor_zeros] at hzeros
    rw [h]
    exact hzeros
  rw [polymod_zipWith_xor gen h, hv, BitVec.xor_assoc]

/-! ### Created checksums verify (R118 (a)) -/

/-- While the top ten bits are 0, a step takes one 10-bit group of a value in. -/
theorem polymodStep_ushiftRight (gen : Vector Acc 10) (p : Acc) (k : Nat) :
    polymodStep gen (p >>> (k + 10)) (p.extractLsb' k 10) = p >>> k := by
  have hselector : p >>> (k + 10) >>> 20 = 0 := by
    rw [← BitVec.shiftRight_add]
    exact BitVec.ushiftRight_eq_zero (by omega)
  rw [polymodStep_eq_xorSelected_append, hselector, xorSelected_zero]
  refine BitVec.eq_of_getLsbD_eq fun i hi => ?_
  rw [BitVec.getLsbD_append]
  by_cases hlow : i < 10
  · simp [hlow]
  · simp [hlow, show i - 10 < 20 by omega, show k + 10 + (i - 10) = k + i by omega]

theorem foldl_splitWords (gen : Vector Acc 10) (p : Acc) : (splitWords p).foldl (polymodStep gen) 0 = p :=
  calc (splitWords p).foldl (polymodStep gen) 0
      = polymodStep gen (polymodStep gen (polymodStep gen (p >>> 30) (p.extractLsb' 20 10)) (p.extractLsb' 10 10))
          (p.extractLsb' 0 10) := by rw [BitVec.ushiftRight_eq_zero le_rfl]; rfl
    _ = p := by
      rw [polymodStep_ushiftRight gen p 20, polymodStep_ushiftRight gen p 10, polymodStep_ushiftRight gen p 0,
        BitVec.ushiftRight_zero]

/-- The words that follow a sequence in place of three zero words are XORed into its polymod. -/
theorem polymod_append_splitWords (gen : Vector Acc 10) (v : List RsWord) (p : Acc) :
    polymod gen (v ++ splitWords p) = polymod gen (v ++ [0, 0, 0]) ^^^ p := by
  have hwords : List.zipWith (fun a b => a ^^^ b) [0, 0, 0] (splitWords p) = splitWords p := by simp [splitWords]
  have hxor := foldl_polymodStep_xor gen (polymod gen v) 0 (u := [0, 0, 0]) (v := splitWords p) rfl
  have hstart : polymod gen v ^^^ 0 = polymod gen v := BitVec.xor_zero
  rw [hwords, foldl_splitWords, hstart] at hxor
  simpa only [polymod_append] using hxor

theorem verifyPolymod_append_createChecksum (p : Params) (data : List RsWord) :
    verifyPolymod p (data ++ createChecksum p data) = 1 := by
  rw [verifyPolymod, createChecksum, ← List.append_assoc, polymod_append_splitWords, ← BitVec.xor_assoc, checksumPolymod,
    BitVec.xor_self, BitVec.zero_xor]

/-- Settles O34: the checksum XORed onto its own polymod leaves the 1 it was XORed with. -/
theorem createdChecksumsVerify : Obligations.CreatedChecksumsVerify := fun p data =>
  (verifyChecksum_iff p _).2 (verifyPolymod_append_createChecksum p data)

end Sys2Proof.Machine
end

section
/-! PROOFS of the family 41_rs1024, the commands RSPOLY, RSCREATE and RSVERIFY (spec/41_rs1024 R113, R115, R117). -/

namespace Sys2Proof.Machine

/-! ### The one check of the three commands (R113, R115, R117) -/

theorem firstError_capacityCheck_of_lt {a b : Nat} (h : a < b) (e : CmdError) :
    firstError [(decide (a < b), e)] = some e := if_pos (decide_eq_true h)

theorem firstError_capacityCheck_of_le {a b : Nat} (h : b ≤ a) (e : CmdError) :
    firstError [(decide (a < b), e)] = none := if_neg (by simpa using h)

/-! ### The state RSCREATE completes in -/

theorem wmax_le (p : Params) : p.wmax ≤ 512 := by
  have hcode := p.wmaxCode.isLt
  unfold Params.wmax
  omega

/-- WLEN has room for three more (R5, R30). -/
theorem toNat_wlen_add_three {s : State} (h : s.wlen.toNat + 3 ≤ s.cfg.wmax) :
    (s.wlen + 3).toNat = s.wlen.toNat + 3 := by
  have hwmax := wmax_le s.cfg
  have hlt : s.wlen.toNat + 3 < 2 ^ 10 := by omega
  exact BitVec.toNat_add_of_lt hlt

@[simp] theorem length_createChecksum (p : Params) (data : List RsWord) : (createChecksum p data).length = 3 := rfl

theorem readWords_add (m : Sparse 10) (k n l : Nat) :
    readWords m k (n + l) = readWords m k n ++ readWords m (k + n) l := by
  simp [readWords, List.range_add, Nat.add_assoc]

/-- Words below a stored sequence read as before. -/
theorem readWords_writeWords_below (m : Sparse 10) (n : Nat) (ws : List RsWord) :
    readWords (writeWords m n ws) 0 n = readWords m 0 n := by
  refine List.map_congr_left fun i hi => read_writeWords_other _ _ _ _ ?_
  rw [List.mem_range] at hi
  omega

/-- A completed RSCREATE leaves the data words with their checksum behind them (R115). -/
theorem words_of_rscreate {s t : State} (hw : s.wbuf.wf = true) (hroom : s.wlen.toNat + 3 ≤ s.cfg.wmax)
    (ht : commandResult .rscreate s = .ok t) : t.words = s.words ++ createChecksum s.cfg s.words := by
  cases ht
  have hchecksum := readWords_writeWords s.wlen.toNat (createChecksum s.cfg s.words) hw
  rw [length_createChecksum] at hchecksum
  rw [State.words, toNat_wlen_add_three hroom, readWords_add, readWords_writeWords_below, Nat.zero_add, hchecksum]
  rfl

/-! ### The spec's examples: polymod goes on from its value on CUST -/

theorem verifyPolymod_eq_foldl (p : Params) (data : List RsWord) :
    verifyPolymod p data = data.foldl (polymodStep p.gen) (verifyPolymod p []) := by
  rw [verifyPolymod, verifyPolymod, List.append_nil, polymod_append]

theorem checksumPolymod_eq_verifyPolymod (p : Params) (data : List RsWord) :
    checksumPolymod p data = verifyPolymod p (data ++ [0, 0, 0]) := by
  rw [checksumPolymod, verifyPolymod, List.append_assoc]

theorem verifyPolymod_reference_of_foldl {data : List RsWord} {q : Acc}
    (h : data.foldl (polymodStep genReference) 0x244A8EE3 = q) : verifyPolymod referenceParams data = q := by
  rw [verifyPolymod_eq_foldl, verifyPolymod_reference_nil]
  exact h

theorem createChecksum_reference_example : createChecksum referenceParams [0, 1, 2, 3] = [516, 196, 110] := by
  have hpoly : checksumPolymod referenceParams [0, 1, 2, 3] = 0x2043106F :=
    (checksumPolymod_eq_verifyPolymod ..).trans (verifyPolymod_reference_of_foldl (by decide))
  rw [createChecksum, hpoly]
  rfl

theorem verifyPolymod_reference_flipped :
    verifyPolymod referenceParams [1, 1, 2, 3, 516, 196, 110] = 0x1067D3B8 :=
  verifyPolymod_reference_of_foldl (by decide)

/-! ### RSPOLY, RSCREATE, RSVERIFY -/

/-- Settles O35: WLEN within the capacity is the one check, and the result differs in CHK and the flags. -/
theorem rspolyResult : Obligations.RspolyResult :=
  ⟨decode_encode .rspoly, fun _ h => endsInError_of_failed_check (firstError_capacityCheck_of_lt h _),
    fun _ h => completes_of_commandResult (firstError_capacityCheck_of_le h _) rfl rfl ⟨rfl, rfl⟩, polymod_nil,
    by decide⟩

/-- Settles O36: the words written are read back one by one. -/
theorem rscreateResult : Obligations.RscreateResult := by
  refine ⟨decode_encode .rscreate, fun s h => endsInError_of_failed_check (firstError_capacityCheck_of_lt h _),
    fun s hroom hw => ?_, createChecksum_reference_nil, createChecksum_reference_example⟩
  have hread (j : Nat) (hj : j < 3) := read_writeWords s.wlen.toNat j (createChecksum s.cfg s.words) hw hj
  exact completes_of_commandResult (firstError_capacityCheck_of_le hroom _) rfl rfl
    ⟨rfl, hread 0 (by decide), hread 1 (by decide), hread 2 (by decide), toNat_wlen_add_three hroom,
      writesChecksumOnly_rscreate rfl⟩

/-- All a completed RSVERIFY does (R117). -/
theorem rsverify_completes {s : State} (h : s.wlen.toNat ≤ s.cfg.wmax) :
    ∃ t, exec .rsverify s = .next t ∧ t.chk = verifyPolymod s.cfg s.words ∧ t.res = verifyChecksum s.cfg s.words ∧
      t.err = 0 ∧ t.tok = s.tok ∧ t.sticky = s.sticky ∧ { t with status := s.status, chk := s.chk } = s := by
  have hc : firstError (commandChecks .rsverify s) = none := firstError_capacityCheck_of_le h _
  obtain ⟨herr, hres, htok, hsticky⟩ := fields_of_status (status_of_commandResult (i := .rsverify) (s := s) rfl)
  exact ⟨_, exec_of_commandResult hc rfl, rfl, hres, herr, htok, hsticky, rfl⟩

/-- Settles O37: RES is the comparison of CHK with 1; the first example is a created checksum. -/
theorem rsverifyResult : Obligations.RsverifyResult := by
  refine ⟨decode_encode .rsverify, fun s h => endsInError_of_failed_check (firstError_capacityCheck_of_lt h _),
    fun s h => ?_, ?_, ?_, verifyPolymod_reference_nil⟩
  · obtain ⟨t, hexec, hchk, hres, hflags⟩ := rsverify_completes h
    refine ⟨t, hexec, hchk, ?_, hflags⟩
    rw [hres, hchk]
    exact verifyChecksum_iff s.cfg s.words
  · rw [← verifyPolymod_append_createChecksum referenceParams [0, 1, 2, 3], createChecksum_reference_example]
    rfl
  · rw [verifyPolymod_reference_flipped]
    decide

/-- Settles O38: RSVERIFY finds the data with their created checksum behind them. -/
theorem rscreateThenRsverifySucceeds : Obligations.RscreateThenRsverifySucceeds := by
  intro s hw hroom
  have hc : firstError (commandChecks .rscreate s) = none := firstError_capacityCheck_of_le hroom _
  obtain ⟨t, ht⟩ : ∃ t, commandResult .rscreate s = .ok t := ⟨_, rfl⟩
  have hwords := words_of_rscreate hw hroom ht
  have hwlen : t.wlen.toNat = s.wlen.toNat + 3 := by simpa using congrArg List.length hwords
  obtain ⟨htframe, -⟩ := writesChecksumOnly_rscreate ht
  have hcfg : t.cfg = s.cfg := (congrArg State.cfg htframe :)
  have hpoly : verifyPolymod t.cfg t.words = 1 := by
    rw [hcfg, hwords]
    exact verifyPolymod_append_createChecksum s.cfg s.words
  obtain ⟨u, hverify, hchk, hres, herr, -, -, huframe⟩ := rsverify_completes (s := t) (by rwa [hwlen, hcfg])
  have huwlen : u.wlen = t.wlen := (congrArg State.wlen huframe :)
  have huwords : u.words = t.words := (congrArg State.words huframe :)
  refine ⟨t, u, exec_of_commandResult hc ht, hverify, herr, ?_, hchk.trans hpoly, by rw [huwlen, hwlen], ?_⟩
  · exact hres.trans ((verifyChecksum_iff _ _).2 hpoly)
  · rw [huwords, hwords]
    exact List.take_left' s.length_words

end Sys2Proof.Machine
end

section
/-! PROOFS of the family 42_feistel, the functions (spec/42_feistel R131 to R135, R139). The one idea: a round run on
its own output with the halves swapped gives its input with the halves swapped (`feistelRound_swap`), and the output
IR ++ IL is that swap, so the rounds in the other order undo one another from the last one back. -/

namespace Sys2Proof.Machine

/-! ### The iteration count and the round function (R132, R134) -/

theorem iters_eq (e : Nat) : iters e = 2500 * 2 ^ e := by
  rw [iters, Nat.shiftLeft_eq]
  omega

/-- Settles O39: the shift is a multiplication by 2^E, and 10000 is divisible by 4. -/
theorem iterationCountIsExact : Obligations.IterationCountIsExact := by
  refine ⟨fun e => ⟨iters_eq e, ?_⟩, iters_eq 0, iters_eq 1, iters_eq 31⟩
  rw [iters_eq, Nat.shiftLeft_eq]
  omega

/-- The two bytes of the identifier, as R134 computes them. -/
theorem idBytes_eq (ident : BitVec 15) :
    idBytes ident = [BitVec.ofNat 8 (ident.toNat / 256), BitVec.ofNat 8 (ident.toNat % 256)] := by
  have hhigh : (ident >>> 8).setWidth 8 = BitVec.ofNat 8 (ident.toNat / 256) :=
    BitVec.eq_of_toNat_eq (by simp [Nat.shiftRight_eq_div_pow])
  have hlow : ident.setWidth 8 = BitVec.ofNat 8 (ident.toNat % 256) := BitVec.eq_of_toNat_eq (by simp)
  rw [idBytes, hhigh, hlow]

/-- Settles O41: the identifier's bytes and the iteration count are the two parts the model writes otherwise. -/
theorem roundFunctionAsWritten : Obligations.RoundFunctionAsWritten := by
  intro hash pass e ident i r _
  rw [roundFunction, iters_eq, idBytes_eq]
  rfl

/-! ### The rounds (R131, R133, R135) -/

/-- On a secret given by its halves the rounds run on these, and the output is the last IR ++ IL. -/
theorem feistel_append (f : Nat → List Byte → List Byte) (order : List Nat) {il ir : List Byte}
    (h : il.length = ir.length) :
    feistel f order (il ++ ir) =
      (order.foldl (feistelRound f) (il, ir)).2 ++ (order.foldl (feistelRound f) (il, ir)).1 := by
  have hhalf : (il ++ ir).length / 2 = il.length := by
    rw [List.length_append]
    omega
  rw [feistel, hhalf, List.take_left, List.drop_left]

/-- Settles O40: the four rounds, run on the halves. -/
theorem feistelRoundsAsWritten : Obligations.FeistelRoundsAsWritten :=
  fun f _ _ h => ⟨feistel_append f [0, 1, 2, 3] h, feistel_append f [3, 2, 1, 0] h⟩

/-! ### Undoing the rounds (R139 (a)) -/

/-- A round on its own output with the halves swapped XORs the same F onto the same half again. -/
theorem feistelRound_swap {f : Nat → List Byte → List Byte} (hf : ∀ i r, (f i r).length = r.length) (i : Nat)
    {halves : List Byte × List Byte} (h : halves.1.length = halves.2.length) :
    feistelRound f (feistelRound f halves i).swap i = halves.swap :=
  Prod.ext rfl (xorBytes_cancel _ _ (by rw [hf, h]))

theorem foldl_reverse_feistelRound_swap {f : Nat → List Byte → List Byte} (hf : ∀ i r, (f i r).length = r.length)
    (order : List Nat) {halves : List Byte × List Byte} (h : halves.1.length = halves.2.length) :
    order.reverse.foldl (feistelRound f) (order.foldl (feistelRound f) halves).swap = halves.swap := by
  induction order generalizing halves with
  | nil => rfl
  | cons i order ih =>
    have hround : (feistelRound f halves i).1.length = (feistelRound f halves i).2.length := by
      simp [feistelRound, hf, h]
    rw [List.foldl_cons, List.reverse_cons, List.foldl_append, ih hround]
    exact feistelRound_swap hf i h

/-- The cipher with its rounds in the other order undoes the cipher, whatever the rounds are. -/
theorem feistel_reverse_feistel {f : Nat → List Byte → List Byte} (hf : ∀ i r, (f i r).length = r.length)
    (order : List Nat) {secret : List Byte} (heven : secret.length % 2 = 0) :
    feistel f order.reverse (feistel f order secret) = secret := by
  obtain ⟨il, ir, rfl, h⟩ : ∃ il ir, secret = il ++ ir ∧ il.length = ir.length :=
    ⟨_, _, (List.take_append_drop (secret.length / 2) secret).symm, by simp; omega⟩
  obtain ⟨hl, hr⟩ := length_foldl_feistelRound hf order (halves := (il, ir)) rfl h.symm
  have hundo := foldl_reverse_feistelRound_swap hf order (halves := (il, ir)) h
  rw [feistel_append f order h, feistel_append f order.reverse (hr.trans hl.symm)]
  exact congrArg (fun halves : List Byte × List Byte => halves.2 ++ halves.1) hundo

/-- Settles O42: the index orders of encryption and decryption are each other's reverse. -/
theorem feistelRoundTrip : Obligations.FeistelRoundTrip := fun _ _ hf heven =>
  ⟨feistel_reverse_feistel hf [0, 1, 2, 3] heven, feistel_reverse_feistel hf [3, 2, 1, 0] heven⟩

end Sys2Proof.Machine
end

section
/-! PROOFS of the family 42_feistel, the commands FENC and FDEC (spec/42_feistel R136 to R138). -/

namespace Sys2Proof.Machine

/-! ### The first failing check (R136) -/

variable {s : State}

theorem firstError_cipherChecks_of_length (h : ¬(16 ≤ s.len.toNat ∧ s.len.toNat ≤ s.cfg.lmax)) :
    firstError (cipherChecks s) = some .invalidSecretLength := by
  rw [firstError_cipherChecks, if_pos h]

theorem firstError_cipherChecks_of_parity (hmin : 16 ≤ s.len.toNat) (hmax : s.len.toNat ≤ s.cfg.lmax)
    (hodd : s.len.toNat % 2 = 1) : firstError (cipherChecks s) = some .invalidSecretParity := by
  rw [firstError_cipherChecks, if_neg (not_not.2 ⟨hmin, hmax⟩), if_pos hodd]

/-- With a legal LEN the two checks of the passphrase decide. -/
theorem firstError_cipherChecks_of_legalLength (h : LegalLength s) :
    firstError (cipherChecks s) =
      if s.cfg.pmax < s.plen.toNat then some .bufferRange
      else if s.passphrase.any (fun c => decide (c.toNat < 32) || decide (126 < c.toNat)) = true then
        some .invalidPassphraseCharset
      else none := by
  obtain ⟨hmin, hmax, heven⟩ := h
  rw [firstError_cipherChecks, if_neg (not_not.2 ⟨hmin, hmax⟩), if_neg (by omega)]

theorem firstError_cipherChecks_of_passphrase_length (hlen : LegalLength s) (h : s.cfg.pmax < s.plen.toNat) :
    firstError (cipherChecks s) = some .bufferRange := by
  rw [firstError_cipherChecks_of_legalLength hlen, if_pos h]

theorem firstError_cipherChecks_of_charset (hlen : LegalLength s) (hplen : s.plen.toNat ≤ s.cfg.pmax)
    (h : ¬LegalCharset s) : firstError (cipherChecks s) = some .invalidPassphraseCharset := by
  rw [firstError_cipherChecks_of_legalLength hlen, if_neg (Nat.not_lt.2 hplen), if_pos (s.passphrase_any_iff.2 h)]

/-! ### The result -/

/-- A command that writes SECRET completes with what it computes there, and changes nothing else (R39). -/
theorem completes_of_secretResult {i : Instr} (hi : i ∈ secretWriters) {bytes : List Byte} (hm : s.mem.wf = true)
    (hc : firstError (commandChecks i s) = none) (hres : secretResult i s = .ok bytes) :
    Completes i s (fun t => t.secret = bytes ∧ WritesSecretOnly s t) := by
  have hlen := length_secretResult hc hres
  have ht : commandResult i s = .ok (s.beginCommand.setSecret bytes) := by
    rw [commandResult_of_mem_secretWriters hi, hres]
    rfl
  exact completes_of_commandResult hc ht rfl
    ⟨State.secret_setSecret s.beginCommand bytes hm hlen, writesSecretOnly_setSecret hlen⟩

/-- What R137 and R138 say of a command with the checks of R136 that leaves `bytes` in SECRET. -/
theorem cipherCommand_result {i : Instr} {bytes : List Byte} (hi : i ∈ secretWriters)
    (hchecks : commandChecks i s = cipherChecks s) (hres : secretResult i s = .ok bytes) :
    (¬(16 ≤ s.len.toNat ∧ s.len.toNat ≤ s.cfg.lmax) → EndsInError .invalidSecretLength i s) ∧
    (16 ≤ s.len.toNat → s.len.toNat ≤ s.cfg.lmax → s.len.toNat % 2 = 1 → EndsInError .invalidSecretParity i s) ∧
    (LegalLength s → s.cfg.pmax < s.plen.toNat → EndsInError .bufferRange i s) ∧
    (LegalLength s → s.plen.toNat ≤ s.cfg.pmax → ¬LegalCharset s → EndsInError .invalidPassphraseCharset i s) ∧
    (LegalCipher s → s.mem.wf = true → Completes i s (fun t => t.secret = bytes ∧ WritesSecretOnly s t)) := by
  have hfails {e : CmdError} (h : firstError (cipherChecks s) = some e) : EndsInError e i s :=
    endsInError_of_failed_check (hchecks ▸ h)
  refine ⟨fun h => hfails (firstError_cipherChecks_of_length h),
    fun hmin hmax hodd => hfails (firstError_cipherChecks_of_parity hmin hmax hodd),
    fun hlen h => hfails (firstError_cipherChecks_of_passphrase_length hlen h),
    fun hlen hplen h => hfails (firstError_cipherChecks_of_charset hlen hplen h), fun h hm => ?_⟩
  exact completes_of_secretResult hi hm (hchecks ▸ (firstError_cipherChecks_eq_none s).2 h) hres

/-- Settles O43: FENC has those checks and leaves the encryption. -/
theorem fencResult : Obligations.FencResult :=
  ⟨decode_encode .fenc, fun _ => cipherCommand_result (by decide) rfl rfl⟩

/-- Settles O44: so has FDEC, none of them looks whether the key is right, and it leaves the decryption. -/
theorem fdecResult : Obligations.FdecResult :=
  ⟨decode_encode .fdec, fun _ => cipherCommand_result (by decide) rfl rfl⟩

end Sys2Proof.Machine
end

section
/-! PROOFS of the family 43_shamir_split, the Lagrange formula (spec/43_shamir_split R150 to R152). At a given point one basis
value of R151 is 1 and the others are 0; at any other x the factors are nonzero, and a basis value is the power of the generator
whose exponent R152 computes. -/

namespace Sys2Proof.Machine

/-! ### Sums and products of field elements -/

/-- A loop that adds nothing but zeros. -/
theorem foldl_xor_of_forall_eq_zero {α : Type} {g : α → Byte} {l : List α} (h : ∀ a ∈ l, g a = 0) (r : Byte) :
    l.foldl (fun r a => r ^^^ g a) r = r := by
  rw [List.foldl_ext _ (fun r _ => r) r fun r a ha => by rw [h a ha]; exact BitVec.xor_zero, List.foldl_fixed]

/-- The order of a sum does not matter. -/
theorem foldl_xor_perm {α : Type} (g : α → Byte) {l l' : List α} (h : l.Perm l') (r : Byte) :
    l.foldl (fun r a => r ^^^ g a) r = l'.foldl (fun r a => r ^^^ g a) r :=
  h.foldl_eq (rcomm := ⟨fun r _ _ => by ac_rfl⟩) r

/-- A product with a nonzero factor adds its logarithm to the exponent (R92). -/
theorem gfMul_expAt_mod {a : Byte} (ha : a ≠ 0) (n : Nat) : gfMul a (expAt (n % 255)) = expAt ((logAt a + n) % 255) := by
  have hlt : n % 255 < 255 := Nat.mod_lt _ (by decide)
  rw [gfMul_of_ne_zero ha (expAt_ne_zero hlt), logAt_expAt _ hlt, Nat.add_mod_mod]

/-- A quotient of powers of the generator subtracts the exponents (R94). -/
theorem gfDiv_expAt_mod (m n : Nat) : gfDiv (expAt (m % 255)) (expAt (n % 255)) = expAt (mod255 ((m : Int) - n)) := by
  have hm : m % 255 < 255 := Nat.mod_lt _ (by decide)
  have hn : n % 255 < 255 := Nat.mod_lt _ (by decide)
  have hindex : mod255 (((m % 255 : Nat) : Int) - (n % 255 : Nat)) = mod255 ((m : Int) - n) := by
    have hleft := natCast_mod255 (((m % 255 : Nat) : Int) - (n % 255 : Nat))
    have hright := natCast_mod255 ((m : Int) - n)
    omega
  refine (if_neg (expAt_ne_zero hm)).trans ?_
  rw [logAt_expAt _ hm, logAt_expAt _ hn, hindex]

theorem gfProduct_cons (a : Byte) (l : List Byte) : gfProduct (a :: l) = gfMul a (gfProduct l) := rfl

/-- The logarithm of a product of nonzero factors is the sum of theirs, modulo 255. -/
theorem gfProduct_eq_expAt {l : List Byte} (h : ∀ a ∈ l, a ≠ 0) : gfProduct l = expAt ((l.map logAt).sum % 255) := by
  induction l with
  | nil => rfl
  | cons a l ih =>
    obtain ⟨ha, hl⟩ := List.forall_mem_cons.1 h
    rw [gfProduct_cons, ih hl, gfMul_expAt_mod ha, List.map_cons, List.sum_cons]

theorem gfProduct_ne_zero {l : List Byte} (h : ∀ a ∈ l, a ≠ 0) : gfProduct l ≠ 0 := by
  rw [gfProduct_eq_expAt h]
  exact expAt_ne_zero (Nat.mod_lt _ (by decide))

theorem gfProduct_eq_zero {l : List Byte} (h : 0 ∈ l) : gfProduct l = 0 := by
  induction l with
  | nil => cases h
  | cons a l ih =>
    rw [gfProduct_cons]
    rcases List.mem_cons.1 h with rfl | h
    · exact zero_gfMul _
    · rw [ih h, gfMul_zero]

/-! ### The other points of a point set (R150) -/

/-- The points with an x-coordinate other than `xi`: those the product of R151 and the sum of R152 line 3 run over. -/
def otherPoints (points : List Point) (xi : Byte) : List Point := points.filter (fun p => p.x != xi)

/-- A product of R151, the differences of `x` to the other points: the numerator, and at `x = xi` the denominator. -/
def differenceProduct (points : List Point) (xi x : Byte) : Byte :=
  gfProduct ((otherPoints points xi).map (fun p => x ^^^ p.x))

theorem lagrangeBasis_eq_gfDiv (points : List Point) (x xi : Byte) :
    lagrangeBasis points x xi = gfDiv (differenceProduct points xi x) (differenceProduct points xi xi) := rfl

theorem lagrangeByte_eq_foldl (points : List Point) (x : Byte) (b : Nat) :
    lagrangeByte points x b =
      points.foldl (fun r p => r ^^^ gfMul (p.y.getD b 0) (lagrangeBasis points x p.x)) 0 := rfl

theorem logProd_eq_sum (points : List Point) (x : Byte) :
    logProd points x = (points.map (fun p => logAt (p.x ^^^ x))).sum := rfl

theorem logProd_cons (p : Point) (points : List Point) (x : Byte) :
    logProd (p :: points) x = logAt (p.x ^^^ x) + logProd points x := rfl

theorem logProd_perm {points others : List Point} (h : points.Perm others) (x : Byte) :
    logProd points x = logProd others x := by
  rw [logProd_eq_sum, logProd_eq_sum, (h.map _).sum_eq]

/-- R152's two sums of logarithms are one, over all points and over the others. -/
theorem logSum_eq_logProd (points : List Point) (xi : Byte) :
    logSum points xi = logProd (otherPoints points xi) xi :=
  congrArg List.sum (List.map_congr_left fun p _ => by rw [BitVec.xor_comm])

theorem basisLog_eq_mod255 (points : List Point) (x xi : Byte) :
    basisLog points x xi = mod255 ((logProd points x : Int) - (logAt (xi ^^^ x) : Int) - (logSum points xi : Int)) := rfl

theorem basisLog_lt (points : List Point) (x xi : Byte) : basisLog points x xi < 255 := mod255_lt _

theorem differences_ne_zero {points : List Point} {x xi : Byte} (hx : ∀ p ∈ otherPoints points xi, x ≠ p.x) :
    ∀ a ∈ (otherPoints points xi).map (fun p => x ^^^ p.x), a ≠ 0 :=
  List.forall_mem_map.2 fun p hp => mt BitVec.xor_eq_zero_iff.1 (hx p hp)

theorem differenceProduct_eq_expAt {points : List Point} {x xi : Byte} (hx : ∀ p ∈ otherPoints points xi, x ≠ p.x) :
    differenceProduct points xi x = expAt (logProd (otherPoints points xi) x % 255) := by
  refine (gfProduct_eq_expAt (differences_ne_zero hx)).trans (congrArg (fun n => expAt (n % 255)) ?_)
  rw [List.map_map]
  exact congrArg List.sum (List.map_congr_left fun p _ => congrArg logAt (BitVec.xor_comm ..))

theorem ne_x_of_mem_otherPoints {points : List Point} {xi : Byte} : ∀ p ∈ otherPoints points xi, xi ≠ p.x :=
  fun _ hp => Ne.symm (by simpa using (List.mem_filter.1 hp).2)

theorem differenceProduct_self_ne_zero (points : List Point) (xi : Byte) : differenceProduct points xi xi ≠ 0 :=
  gfProduct_ne_zero (differences_ne_zero ne_x_of_mem_otherPoints)

/-- A point set is one of its points and the others. -/
theorem perm_cons_otherPoints {points : List Point} {p : Point} (hnodup : (points.map (fun p => p.x)).Nodup)
    (hp : p ∈ points) : points.Perm (p :: otherPoints points p.x) := by
  have hothers : points.erase p = otherPoints points p.x := by
    rw [hnodup.of_map.erase_eq_filter]
    refine List.filter_congr fun q hq => ?_
    have hx : q = p ↔ q.x = p.x := ⟨congrArg Point.x, List.inj_on_of_nodup_map hnodup hq hp⟩
    rw [Bool.eq_iff_iff, bne_iff_ne, bne_iff_ne, not_iff_not]
    exact hx
  exact hothers ▸ List.perm_cons_erase hp

theorem length_otherPoints {points : List Point} {p : Point} (hnodup : (points.map (fun p => p.x)).Nodup)
    (hp : p ∈ points) : (otherPoints points p.x).length + 1 = points.length :=
  (perm_cons_otherPoints hnodup hp).length_eq.symm

/-! ### At a given x-coordinate -/

theorem lagrangeBasis_self (points : List Point) (xi : Byte) : lagrangeBasis points xi xi = 1 :=
  gfDiv_self (differenceProduct_self_ne_zero points xi)

theorem lagrangeBasis_of_ne {points : List Point} {p : Point} (hp : p ∈ points) {xi : Byte} (h : p.x ≠ xi) :
    lagrangeBasis points p.x xi = 0 := by
  have hzero : differenceProduct points xi p.x = 0 :=
    gfProduct_eq_zero (List.mem_map.2 ⟨p, List.mem_filter.2 ⟨hp, bne_iff_ne.2 h⟩, BitVec.xor_self⟩)
  rw [lagrangeBasis_eq_gfDiv, hzero, zero_gfDiv]

/-- The Lagrange formula goes through the points. -/
theorem lagrangeByte_of_mem {points : List Point} {p : Point} (hnodup : (points.map (fun p => p.x)).Nodup)
    (hp : p ∈ points) (b : Nat) : lagrangeByte points p.x b = p.y.getD b 0 := by
  have hothers : ∀ q ∈ otherPoints points p.x, gfMul (q.y.getD b 0) (lagrangeBasis points p.x q.x) = 0 := fun q hq => by
    rw [lagrangeBasis_of_ne hp (ne_x_of_mem_otherPoints q hq), gfMul_zero]
  rw [lagrangeByte_eq_foldl, foldl_xor_perm _ (perm_cons_otherPoints hnodup hp), List.foldl_cons,
    foldl_xor_of_forall_eq_zero hothers, lagrangeBasis_self, gfMul_one]
  exact BitVec.zero_xor

/-! ### At any other x -/

/-- The exponent of R152 lines 2 to 4 is the logarithm of the basis value of R151. -/
theorem lagrangeBasis_eq_expAt {points : List Point} {p : Point} (hnodup : (points.map (fun p => p.x)).Nodup)
    (hp : p ∈ points) {x : Byte} (hx : x ∉ points.map (fun p => p.x)) :
    lagrangeBasis points x p.x = expAt (basisLog points x p.x) := by
  have hne : ∀ q ∈ otherPoints points p.x, x ≠ q.x := fun q hq hxq =>
    hx (List.mem_map.2 ⟨q, List.mem_of_mem_filter hq, hxq.symm⟩)
  have hexponent : (logProd points x : Int) - logAt (p.x ^^^ x) - logSum points p.x =
      (logProd (otherPoints points p.x) x : Int) - logProd (otherPoints points p.x) p.x := by
    rw [logProd_perm (perm_cons_otherPoints hnodup hp), logProd_cons, logSum_eq_logProd]
    omega
  rw [lagrangeBasis_eq_gfDiv, differenceProduct_eq_expAt hne, differenceProduct_eq_expAt ne_x_of_mem_otherPoints,
    gfDiv_expAt_mod, basisLog_eq_mod255, hexponent]

theorem logTerm_eq_gfMul (y : Byte) {e : Nat} (he : e < 255) : logTerm y e = gfMul y (expAt e) := by
  by_cases hy : y = 0
  · rw [hy, zero_gfMul]
    exact if_pos rfl
  · have hmul := gfMul_expAt_mod hy e
    rw [Nat.mod_eq_of_lt he] at hmul
    exact (if_neg hy).trans hmul.symm

theorem interpolateByte_eq_lagrangeByte {points : List Point} (hnodup : (points.map (fun p => p.x)).Nodup) {x : Byte}
    (hx : x ∉ points.map (fun p => p.x)) (b : Nat) :
    interpolateByte points x b = lagrangeByte points x b :=
  List.foldl_ext _ _ _ fun r p hp => by
    rw [logTerm_eq_gfMul _ (basisLog_lt points x p.x), lagrangeBasis_eq_expAt hnodup hp hx]

/-! ### Both together -/

/-- Byte b of the interpolation, whether the x-coordinate is given or not. -/
theorem getD_interpolate {len : Nat} {points : List Point} (hnodup : (points.map (fun p => p.x)).Nodup) {b : Nat}
    (hb : b < len) (x : Byte) : (interpolate len points x).getD b 0 = lagrangeByte points x b := by
  by_cases hx : x ∈ points.map (fun p => p.x)
  · obtain ⟨p, hp, rfl⟩ := List.mem_map.1 hx
    rw [interpolate_of_mem hnodup hp, lagrangeByte_of_mem hnodup hp]
  · rw [interpolate_of_not_mem hx, ← interpolateByte_eq_lagrangeByte hnodup hx]
    simp [hb]

/-- Settles O50: at a given x-coordinate the formula is the given value, elsewhere the two agree term by term. -/
theorem interpolateIsTheLagrangeFormula : Obligations.InterpolateIsTheLagrangeFormula := by
  rintro len points x ⟨-, -, hnodup, hlen⟩
  exact ⟨length_interpolate hlen x, fun b hb => getD_interpolate hnodup hb x⟩

end Sys2Proof.Machine
end

section
/-! PROOFS of the family 43_shamir_split, the polynomial through the points (spec/43_shamir_split R151). The Lagrange formula is
a sum of products of differences, so a polynomial of degree below the number of points; two such polynomials that agree at
all of the points agree everywhere, since a root can be divided out. -/

namespace Sys2Proof.Machine

/-! ### Polynomials of bounded degree -/

/-- `f` is a polynomial over GF(256) of degree below `n`. -/
def DegreeBelow (n : Nat) (f : Byte → Byte) : Prop :=
  ∃ coeffs : List Byte, coeffs.length = n ∧ ∀ x, f x = polyEval coeffs x

theorem degreeBelow_polyEval (coeffs : List Byte) : DegreeBelow coeffs.length (polyEval coeffs) :=
  ⟨coeffs, rfl, fun _ => rfl⟩

theorem degreeBelow_zero_iff {f : Byte → Byte} : DegreeBelow 0 f ↔ ∀ x, f x = 0 := by
  refine ⟨fun ⟨coeffs, hlen, hf⟩ => ?_, fun hf => ⟨[], rfl, hf⟩⟩
  obtain rfl := List.eq_nil_of_length_eq_zero hlen
  exact hf

/-- A constant term and x times the rest. -/
theorem degreeBelow_succ_iff {n : Nat} {f : Byte → Byte} :
    DegreeBelow (n + 1) f ↔ ∃ c g, DegreeBelow n g ∧ ∀ x, f x = c ^^^ gfMul x (g x) := by
  constructor
  · rintro ⟨coeffs, hlen, hf⟩
    obtain ⟨c, cs, rfl⟩ := List.exists_of_length_succ coeffs hlen
    exact ⟨c, polyEval cs, ⟨cs, by simpa using hlen, fun _ => rfl⟩, hf⟩
  · rintro ⟨c, g, ⟨cs, rfl, hg⟩, hf⟩
    exact ⟨c :: cs, rfl, fun x => (hf x).trans (hg x ▸ rfl)⟩

theorem degreeBelow_const_zero (n : Nat) : DegreeBelow n (fun _ => 0) := by
  induction n with
  | zero => exact degreeBelow_zero_iff.2 fun _ => rfl
  | succ n ih => exact degreeBelow_succ_iff.2 ⟨0, _, ih, fun x => by rw [gfMul_zero]; rfl⟩

theorem degreeBelow_const (n : Nat) (c : Byte) : DegreeBelow (n + 1) (fun _ => c) :=
  degreeBelow_succ_iff.2 ⟨c, _, degreeBelow_const_zero n, fun x => by rw [gfMul_zero]; exact BitVec.xor_zero.symm⟩

theorem DegreeBelow.congr {n : Nat} {f g : Byte → Byte} (hg : DegreeBelow n g) (h : ∀ x, f x = g x) :
    DegreeBelow n f :=
  (funext h : f = g) ▸ hg

theorem DegreeBelow.xor {n : Nat} {f g : Byte → Byte} (hf : DegreeBelow n f) (hg : DegreeBelow n g) :
    DegreeBelow n (fun x => f x ^^^ g x) := by
  induction n generalizing f g with
  | zero =>
    rw [degreeBelow_zero_iff] at *
    exact fun x => by rw [hf, hg]; rfl
  | succ n ih =>
    obtain ⟨c, f', hf', hf⟩ := degreeBelow_succ_iff.1 hf
    obtain ⟨d, g', hg', hg⟩ := degreeBelow_succ_iff.1 hg
    refine degreeBelow_succ_iff.2 ⟨c ^^^ d, _, ih hf' hg', fun x => ?_⟩
    rw [hf, hg, gfMul_xor]
    ac_rfl

theorem DegreeBelow.const_mul {n : Nat} {f : Byte → Byte} (a : Byte) (hf : DegreeBelow n f) :
    DegreeBelow n (fun x => gfMul a (f x)) := by
  induction n generalizing f with
  | zero =>
    rw [degreeBelow_zero_iff] at *
    exact fun x => by rw [hf, gfMul_zero]
  | succ n ih =>
    obtain ⟨c, f', hf', hf⟩ := degreeBelow_succ_iff.1 hf
    refine degreeBelow_succ_iff.2 ⟨gfMul a c, _, ih hf', fun x => ?_⟩
    rw [hf, gfMul_xor, ← gfMul_assoc, gfMul_comm a x, gfMul_assoc]

theorem DegreeBelow.succ {n : Nat} {f : Byte → Byte} (hf : DegreeBelow n f) : DegreeBelow (n + 1) f := by
  induction n generalizing f with
  | zero => exact (degreeBelow_const_zero 1).congr (degreeBelow_zero_iff.1 hf)
  | succ n ih =>
    obtain ⟨c, f', hf', hf⟩ := degreeBelow_succ_iff.1 hf
    exact degreeBelow_succ_iff.2 ⟨c, f', ih hf', hf⟩

theorem DegreeBelow.mono {m n : Nat} {f : Byte → Byte} (hf : DegreeBelow m f) (h : m ≤ n) : DegreeBelow n f :=
  Nat.le_induction hf (fun _ _ ih => ih.succ) n h

/-- A linear factor raises the degree by one. -/
theorem DegreeBelow.linear_mul {n : Nat} {f : Byte → Byte} (a : Byte) (hf : DegreeBelow n f) :
    DegreeBelow (n + 1) (fun x => gfMul (x ^^^ a) (f x)) := by
  have hx : DegreeBelow (n + 1) (fun x => gfMul x (f x)) :=
    degreeBelow_succ_iff.2 ⟨0, f, hf, fun _ => BitVec.zero_xor.symm⟩
  exact (hx.xor (hf.const_mul a).succ).congr fun x => xor_gfMul x a (f x)

/-- A sum of polynomials. -/
theorem degreeBelow_foldl_xor {α : Type} {n : Nat} {term : α → Byte → Byte} {l : List α}
    (h : ∀ a ∈ l, DegreeBelow n (term a)) {start : Byte → Byte} (hstart : DegreeBelow n start) :
    DegreeBelow n (fun x => l.foldl (fun r a => r ^^^ term a x) (start x)) := by
  induction l generalizing start with
  | nil => exact hstart
  | cons a l ih =>
    obtain ⟨ha, hl⟩ := List.forall_mem_cons.1 h
    exact ih hl (hstart.xor ha)

/-! ### A polynomial is determined by its values at as many points as its degree bound -/

/-- A root can be divided out: x - a divides f(x) - f(a). -/
theorem DegreeBelow.exists_quotient {n : Nat} {f : Byte → Byte} (hf : DegreeBelow (n + 1) f) (a : Byte) :
    ∃ g, DegreeBelow n g ∧ ∀ x, f x ^^^ f a = gfMul (x ^^^ a) (g x) := by
  induction n generalizing f with
  | zero =>
    obtain ⟨c, g, hg, hf⟩ := degreeBelow_succ_iff.1 hf
    rw [degreeBelow_zero_iff] at hg
    refine ⟨g, degreeBelow_zero_iff.2 hg, fun x => ?_⟩
    simp only [hf, hg, gfMul_zero, BitVec.xor_self]
    rfl
  | succ n ih =>
    obtain ⟨c, f', hf', hf⟩ := degreeBelow_succ_iff.1 hf
    obtain ⟨g, hg, hquot⟩ := ih hf'
    refine ⟨_, hf'.xor (hg.const_mul a).succ, fun x => ?_⟩
    have hfa : f' a = f' x ^^^ gfMul (x ^^^ a) (g x) := by rw [← hquot, ← BitVec.xor_assoc]; simp
    calc f x ^^^ f a = (c ^^^ c) ^^^ (gfMul x (f' x) ^^^ gfMul a (f' a)) := by rw [hf, hf]; ac_rfl
      _ = gfMul x (f' x) ^^^ gfMul a (f' a) := by rw [BitVec.xor_self]; exact BitVec.zero_xor
      _ = gfMul (x ^^^ a) (f' x) ^^^ gfMul a (gfMul (x ^^^ a) (g x)) := by
        rw [hfa, gfMul_xor, xor_gfMul x a (f' x), BitVec.xor_assoc]
      _ = gfMul (x ^^^ a) (f' x ^^^ gfMul a (g x)) := by
        rw [gfMul_xor, ← gfMul_assoc a, gfMul_comm a, gfMul_assoc]

/-- A polynomial with as many distinct roots as its degree bound is 0. -/
theorem DegreeBelow.eq_zero_of_roots {roots : List Byte} (hnodup : roots.Nodup) {f : Byte → Byte}
    (hf : DegreeBelow roots.length f) (hroots : ∀ a ∈ roots, f a = 0) (x : Byte) : f x = 0 := by
  induction roots generalizing f x with
  | nil => exact degreeBelow_zero_iff.1 hf x
  | cons a roots ih =>
    obtain ⟨ha, hnodup⟩ := List.nodup_cons.1 hnodup
    obtain ⟨hfa, hroots⟩ := List.forall_mem_cons.1 hroots
    obtain ⟨g, hg, hquot⟩ := hf.exists_quotient a
    have hfactor (y : Byte) : f y = gfMul (y ^^^ a) (g y) := by
      rw [← hquot, hfa]
      exact BitVec.xor_zero.symm
    have hgroots : ∀ b ∈ roots, g b = 0 := fun b hb =>
      (gfMul_eq_zero ((hfactor b).symm.trans (hroots b hb))).resolve_left
        (mt BitVec.xor_eq_zero_iff.1 (ne_of_mem_of_not_mem hb ha))
    rw [hfactor, ih hnodup hg hgroots, gfMul_zero]

/-- Two polynomials that agree at as many distinct points as their degree bound agree everywhere. -/
theorem DegreeBelow.eq_of_eq_at {xs : List Byte} (hnodup : xs.Nodup) {f g : Byte → Byte}
    (hf : DegreeBelow xs.length f) (hg : DegreeBelow xs.length g) (h : ∀ a ∈ xs, f a = g a) (x : Byte) : f x = g x :=
  BitVec.xor_eq_zero_iff.1
    ((hf.xor hg).eq_zero_of_roots hnodup (fun a ha => BitVec.xor_eq_zero_iff.2 (h a ha)) x)

/-! ### The Lagrange formula is a polynomial -/

/-- A product of as many differences as there are points. -/
theorem degreeBelow_gfProduct (points : List Point) :
    DegreeBelow (points.length + 1) (fun x => gfProduct (points.map (fun p => x ^^^ p.x))) := by
  induction points with
  | nil => exact degreeBelow_const 0 1
  | cons p points ih => exact ih.linear_mul p.x

theorem gfDiv_eq_gfMul_inverse (a : Byte) {b : Byte} (hb : b ≠ 0) : gfDiv a b = gfMul (gfDiv 1 b) a := by
  refine (eq_gfDiv_of_gfMul_eq hb ?_).symm
  rw [gfMul_comm (gfDiv 1 b), gfMul_assoc, gfMul_gfDiv 1 hb, gfMul_one]

/-- A basis value is its numerator times the inverse of its denominator, which does not depend on x. -/
theorem degreeBelow_lagrangeBasis {points : List Point} {p : Point} (hnodup : (points.map (fun p => p.x)).Nodup)
    (hp : p ∈ points) : DegreeBelow points.length (fun x => lagrangeBasis points x p.x) := by
  have hprod : DegreeBelow ((otherPoints points p.x).length + 1) (differenceProduct points p.x) :=
    degreeBelow_gfProduct _
  rw [length_otherPoints hnodup hp] at hprod
  refine (hprod.const_mul (gfDiv 1 (differenceProduct points p.x p.x))).congr fun x => ?_
  rw [lagrangeBasis_eq_gfDiv, gfDiv_eq_gfMul_inverse _ (differenceProduct_self_ne_zero points p.x)]

theorem degreeBelow_lagrangeByte {points : List Point} (hnodup : (points.map (fun p => p.x)).Nodup) (b : Nat) :
    DegreeBelow points.length (fun x => lagrangeByte points x b) :=
  degreeBelow_foldl_xor (fun p hp => (degreeBelow_lagrangeBasis hnodup hp).const_mul (p.y.getD b 0))
    (degreeBelow_const_zero _)

theorem degreeBelow_interpolate {len : Nat} {points : List Point} (hnodup : (points.map (fun p => p.x)).Nodup) {b : Nat}
    (hb : b < len) : DegreeBelow points.length (fun x => (interpolate len points x).getD b 0) :=
  (degreeBelow_lagrangeByte hnodup b).congr (getD_interpolate hnodup hb)

/-- Settles O52: the Lagrange formula is one. -/
theorem interpolateIsAPolynomial : Obligations.InterpolateIsAPolynomial := by
  rintro len points b ⟨-, -, hnodup, -⟩ hb
  exact degreeBelow_interpolate hnodup hb

/-- Settles O51: `interpolate` is a polynomial through the points too, and there is only one. -/
theorem interpolateFollowsThePolynomial : Obligations.InterpolateFollowsThePolynomial := by
  rintro len points b coeffs ⟨-, -, hnodup, -⟩ hb hlen hthrough
  have hinterp := degreeBelow_interpolate hnodup hb
  have hpoly := (degreeBelow_polyEval coeffs).mono hlen
  rw [← List.length_map (fun p : Point => p.x)] at hinterp hpoly
  refine hinterp.eq_of_eq_at hnodup hpoly (List.forall_mem_map.2 fun p hp => ?_)
  rw [interpolate_of_mem hnodup hp, hthrough p hp]

end Sys2Proof.Machine
end

section
/-! PROOFS of the family 43_shamir_split, the command SPLIT (spec/43_shamir_split R156 to R159). -/

namespace Sys2Proof.Machine

variable {s : State}

/-! ### The first failing check (R158) -/

theorem firstError_splitChecks_of_count (h : ¬LegalSplitCount s) :
    firstError (splitChecks s) = some .invalidShareCount :=
  (firstError_splitChecks s).trans (if_pos h)

/-- With a legal share count the two length checks decide. -/
theorem firstError_splitChecks_of_legalCount (hcount : LegalSplitCount s) :
    firstError (splitChecks s) =
      if ¬(16 ≤ s.len.toNat ∧ s.len.toNat ≤ s.cfg.lmax) then some .invalidSecretLength
      else if s.len.toNat % 2 = 1 then some .invalidSecretParity
      else none :=
  (firstError_splitChecks s).trans (if_neg (not_not.2 hcount))

theorem firstError_splitChecks_of_length (hcount : LegalSplitCount s)
    (h : ¬(16 ≤ s.len.toNat ∧ s.len.toNat ≤ s.cfg.lmax)) :
    firstError (splitChecks s) = some .invalidSecretLength := by
  rw [firstError_splitChecks_of_legalCount hcount, if_pos h]

theorem firstError_splitChecks_of_parity (hcount : LegalSplitCount s) (hmin : 16 ≤ s.len.toNat)
    (hmax : s.len.toNat ≤ s.cfg.lmax) (hodd : s.len.toNat % 2 = 1) :
    firstError (splitChecks s) = some .invalidSecretParity := by
  rw [firstError_splitChecks_of_legalCount hcount, if_neg (not_not.2 ⟨hmin, hmax⟩), if_pos hodd]

/-! ### The draws and the shares (R156, R157) -/

theorem State.splitDraws_of_one (hthr : s.thr.toNat = 1) : s.splitDraws = (([], []), s.random) :=
  splitDraws_of_lt_two (by omega) ..

theorem State.splitDraws_of_two_le (hthr : 2 ≤ s.thr.toNat) :
    s.splitDraws = (((List.range (s.thr.toNat - 2)).map (randomShare s), randomPadding s),
      s.random.after ((s.thr.toNat - 2) * s.len.toNat + (s.len.toNat - 4))) :=
  Machine.splitDraws_of_two_le hthr ..

/-- The value of share `i` of SPLIT on `s` (R157). -/
def State.shareValue (s : State) (i : Nat) : List Byte :=
  Machine.shareValue s.hash s.thr.toNat s.secret s.splitDraws.1.1 s.splitDraws.1.2 i

theorem State.shareValue_of_one (hthr : s.thr.toNat = 1) (i : Nat) : s.shareValue i = s.secret := if_pos hthr

/-- The base points of SPLIT on `s` with T ≥ 2: the random shares, the digest share and the secret (R157). -/
def State.basePoints (s : State) : List Point :=
  (List.range (s.thr.toNat - 2)).map (fun i => { x := BitVec.ofNat 8 i, y := randomShare s i }) ++
    [{ x := digestX, y := digestShare s.hash (randomPadding s) s.secret }, { x := secretX, y := s.secret }]

theorem basePoints_eq_basePoints (s : State) :
    Machine.basePoints s.hash s.thr.toNat s.secret ((List.range (s.thr.toNat - 2)).map (randomShare s))
      (randomPadding s) = s.basePoints := by
  refine congrArg (· ++ _) (List.map_congr_left fun i hi => ?_)
  rw [List.mem_range] at hi
  simp [hi]

theorem State.shareValue_of_two_le (hthr : 2 ≤ s.thr.toNat) (i : Nat) :
    s.shareValue i = if i < s.thr.toNat - 2 then randomShare s i
      else interpolate s.len.toNat s.basePoints (BitVec.ofNat 8 i) := by
  refine (if_neg (by omega)).trans ?_
  rw [State.splitDraws_of_two_le hthr]
  by_cases hi : i < s.thr.toNat - 2
  · rw [if_pos hi, if_pos (by omega)]
    simp [hi]
  · rw [if_neg hi, if_neg (by omega), basePoints_eq_basePoints, State.length_secret]

/-! ### The result -/

theorem Completes.mono {i : Instr} {P Q : State → Prop} (h : Completes i s P) (hPQ : ∀ t, P t → Q t) :
    Completes i s Q := by
  obtain ⟨t, hexec, hflags, hP⟩ := h
  exact ⟨t, hexec, hflags, hPQ t hP⟩

/-- A legal SPLIT fills the first CNT entries of the share table, sets SCNT and draws, and changes nothing else (R158). -/
theorem completes_split (hs : LegalSplit s) (hm : s.mem.wf = true) :
    Completes .split s (fun t => t.scnt = s.cnt ∧ t.random = s.splitDraws.2 ∧ WritesShareTableOnly s t ∧
      ∀ i < s.cnt.toNat, t.point i = { x := BitVec.ofNat 8 i, y := s.shareValue i }) := by
  refine completes_of_commandResult ((firstError_splitChecks_eq_none s).2 hs) rfl (State.setShares_status ..)
    ⟨rfl, rfl, writesShareTableOnly_split hs, fun i hi => ?_⟩
  have hi : i < s.splitPoints.length := by rwa [State.length_splitPoints]
  exact (State.point_setShares_splitPoints hs hm hi).trans (getElem_splitSecret ..)

/-- With threshold 1 every share is the secret, and nothing is drawn. -/
theorem completes_split_of_one (hs : LegalSplit s) (hm : s.mem.wf = true) (hthr : s.thr.toNat = 1) :
    Completes .split s (fun t => t.scnt = s.cnt ∧ t.random = s.random ∧ WritesShareTableOnly s t ∧
      ∀ i < s.cnt.toNat, t.point i = { x := BitVec.ofNat 8 i, y := s.secret }) := by
  have h := completes_split hs hm
  simpa only [State.splitDraws_of_one hthr, State.shareValue_of_one hthr] using h

theorem completes_split_of_two_le (hs : LegalSplit s) (hm : s.mem.wf = true) (hthr : 2 ≤ s.thr.toNat) :
    Completes .split s (fun t => t.scnt = s.cnt ∧ WritesShareTableOnly s t ∧
      t.random = s.random.after ((s.thr.toNat - 2) * s.len.toNat + (s.len.toNat - 4)) ∧
      ∀ i < s.cnt.toNat, t.point i =
        { x := BitVec.ofNat 8 i,
          y := if i < s.thr.toNat - 2 then randomShare s i
            else interpolate s.len.toNat s.basePoints (BitVec.ofNat 8 i) }) := by
  refine (completes_split hs hm).mono fun t ⟨hscnt, hrandom, hwrites, hpoint⟩ => ⟨hscnt, hwrites, ?_, fun i hi => ?_⟩
  · rw [hrandom, State.splitDraws_of_two_le hthr]
  · rw [hpoint i hi, State.shareValue_of_two_le hthr]

/-- Settles O54: the first failing check decides, and where none fails the threshold. -/
theorem splitResult : Obligations.SplitResult :=
  ⟨decode_encode .split, fun _ =>
    ⟨fun h => endsInError_of_failed_check (firstError_splitChecks_of_count h),
      fun hcount h => endsInError_of_failed_check (firstError_splitChecks_of_length hcount h),
      fun hcount hmin hmax hodd => endsInError_of_failed_check (firstError_splitChecks_of_parity hcount hmin hmax hodd),
      completes_split_of_one, completes_split_of_two_le⟩⟩

/-! ### Recovering from one share of a split with threshold 1 (R159 (b)) -/

/-- A share table of one entry with a share's x-coordinate is legal for RECOVER with THR = 1 (R173). -/
theorem legalRecover_of_points_eq_singleton {p : Point} (hlen : LegalLength s) (hthr : s.thr.toNat = 1)
    (hpoints : s.points = [p]) (hx : p.x.toNat ≤ 15) : LegalRecover s := by
  have hscnt : s.scnt.toNat = 1 := by rw [← State.length_points, hpoints, List.length_singleton]
  have hxs : s.xs = [p.x] := by rw [← State.map_x_points, hpoints, List.map_singleton]
  refine ⟨by omega, hlen, BitVec.eq_of_toNat_eq (hscnt.trans hthr.symm), ?_, ?_⟩
  · refine not_not.1 (mt s.xs_any_iff.2 ?_)
    simp [hxs, hx]
  · rw [← State.xs_nodup_iff, hxs]
    exact List.nodup_singleton _

/-- RECOVER with THR = 1 answers the value of the one share (R172). -/
theorem completes_recover_of_points_eq_singleton {p : Point} (hlen : LegalLength s) (hthr : s.thr.toNat = 1)
    (hm : s.mem.wf = true) (hpoints : s.points = [p]) (hx : p.x.toNat ≤ 15) :
    Completes .recover s (fun t => t.secret = p.y) := by
  have hrecovered : recoverSecret s.hash s.len.toNat s.thr.toNat s.points = .ok p.y := by
    refine (if_pos hthr).trans ?_
    rw [hpoints]
    rfl
  have hc := (firstError_recoverChecks_eq_none s).2 (legalRecover_of_points_eq_singleton hlen hthr hpoints hx)
  exact (completes_of_secretResult (i := .recover) (by decide) hm hc hrecovered).mono fun _ => And.left

/-- Settles O58: the one share is the secret, and RECOVER answers it. -/
theorem anySingleShareOfAOneThresholdSplitRecovers : Obligations.AnySingleShareOfAOneThresholdSplitRecovers := by
  intro s hs hthr hm
  obtain ⟨t, hexec, -, -, -, -, hpoint⟩ := completes_split_of_one hs hm hthr
  refine ⟨t, hexec, fun i u hi hcfg hulen huthr hum hpoints => ?_⟩
  obtain ⟨⟨-, -, hcnt⟩, hlen⟩ := hs
  rw [hpoint i hi] at hpoints
  have hx : (BitVec.ofNat 8 i).toNat ≤ 15 := by
    rw [BitVec.toNat_ofNat]
    omega
  have hulegal : LegalLength u := by rwa [LegalLength, hcfg, hulen]
  exact completes_recover_of_points_eq_singleton hulegal (huthr ▸ hthr) hum hpoints hx

end Sys2Proof.Machine
end

section
/-! PROOFS of the family 44_shamir_recover, the functions (spec/44_shamir_recover R172, R174, R176, R177). The one idea:
points on the polynomial through `base`, at least as many as `base` has, determine it (`interpolate_eq_of_onInterpolation`).
The base points in another order are such points (R176), and so are any T shares of a split (R177). -/

namespace Sys2Proof.Machine

/-! ### Point sets (R150) -/

theorem IsPointSet.nodup {len : Nat} {points : List Point} (h : IsPointSet len points) :
    (points.map (fun p => p.x)).Nodup := by
  obtain ⟨-, -, hnodup, -⟩ := h
  exact hnodup

theorem IsPointSet.length_interpolate {len : Nat} {points : List Point} (h : IsPointSet len points) (x : Byte) :
    (interpolate len points x).length = len := by
  obtain ⟨-, -, -, hy⟩ := h
  exact Machine.length_interpolate hy x

theorem IsPointSet.perm {len : Nat} {points others : List Point} (h : IsPointSet len points)
    (hperm : points.Perm others) : IsPointSet len others := by
  obtain ⟨hmin, hmax, hnodup, hy⟩ := h
  exact ⟨hperm.length_eq ▸ hmin, hperm.length_eq ▸ hmax, (hperm.map _).nodup_iff.1 hnodup,
    fun p hp => hy p (hperm.mem_iff.2 hp)⟩

/-! ### Points on an interpolating polynomial (R151) -/

/-- The only polynomial through the points gives every byte of the interpolation. -/
theorem getD_interpolate_of_degreeBelow {len : Nat} {points : List Point} (hpoints : IsPointSet len points) {b : Nat}
    (hb : b < len) {f : Byte → Byte} (hf : DegreeBelow points.length f)
    (hthrough : ∀ p ∈ points, p.y.getD b 0 = f p.x) (x : Byte) : (interpolate len points x).getD b 0 = f x := by
  obtain ⟨coeffs, hlen, hf⟩ := hf
  rw [hf]
  exact interpolateFollowsThePolynomial len points b coeffs hpoints hb hlen.le
    (fun p hp => (hthrough p hp).trans (hf p.x)) x

/-- A byte string of length `len` whose bytes are those of the interpolation is the interpolation. -/
theorem interpolate_eq_of_getD {len : Nat} {points : List Point} (hpoints : IsPointSet len points) {x : Byte}
    {bytes : List Byte} (hlen : bytes.length = len)
    (h : ∀ b < len, (interpolate len points x).getD b 0 = bytes.getD b 0) : interpolate len points x = bytes := by
  refine List.ext_getElem ((hpoints.length_interpolate x).trans hlen.symm) fun b hb hb' => ?_
  rw [← List.getD_eq_getElem _ 0 hb, ← List.getD_eq_getElem _ 0 hb', h b (hlen ▸ hb')]

/-- The values of `points` are those of the polynomial through `base`. -/
def OnInterpolation (len : Nat) (base points : List Point) : Prop :=
  ∀ p ∈ points, p.y = interpolate len base p.x

/-- At least as many points on the polynomial through `base` as `base` has give the same polynomial. -/
theorem interpolate_eq_of_onInterpolation {len : Nat} {base points : List Point} (hbase : IsPointSet len base)
    (hpoints : IsPointSet len points) (hcount : base.length ≤ points.length) (h : OnInterpolation len base points)
    (x : Byte) : interpolate len points x = interpolate len base x := by
  refine interpolate_eq_of_getD hpoints (hbase.length_interpolate x) fun b hb => ?_
  exact getD_interpolate_of_degreeBelow hpoints hb ((degreeBelow_interpolate hbase.nodup hb).mono hcount)
    (fun p hp => congrArg (List.getD · b 0) (h p hp)) x

/-- One point gives its value at every x. -/
theorem interpolate_singleton (p : Point) (x : Byte) : interpolate p.y.length [p] x = p.y := by
  have hp : IsPointSet p.y.length [p] := ⟨by simp, by simp, by simp, by simp⟩
  exact interpolate_eq_of_getD hp rfl fun b hb =>
    getD_interpolate_of_degreeBelow hp hb (degreeBelow_const 0 (p.y.getD b 0)) (by simp) x

/-- Settles O53: the points in the other order are as many points on the same polynomial. -/
theorem interpolateIgnoresTheOrder : Obligations.InterpolateIgnoresTheOrder := by
  intro len points others x hpoints hperm
  have hon : OnInterpolation len points others := fun p hp =>
    (interpolate_of_mem hpoints.nodup (hperm.mem_iff.2 hp) len).symm
  exact (interpolate_eq_of_onInterpolation hpoints (hpoints.perm hperm) hperm.length_eq.le hon x).symm

/-! ### The base points and the shares of a split (R157) -/

theorem map_x_basePoints (hash : HashConfig) (t : Nat) (secret : List Byte) (rs : List (List Byte)) (pad : List Byte) :
    (basePoints hash t secret rs pad).map (fun p => p.x) =
      (List.range (t - 2)).map (BitVec.ofNat 8) ++ [digestX, secretX] := by
  rw [basePoints, List.map_append, List.map_map]
  rfl

theorem length_basePoints {t : Nat} (ht : 2 ≤ t) (hash : HashConfig) (secret : List Byte) (rs : List (List Byte))
    (pad : List Byte) : (basePoints hash t secret rs pad).length = t := by
  simp only [basePoints, List.length_append, List.length_map, List.length_range, List.length_cons, List.length_nil]
  omega

/-- The x-coordinates of up to 14 random shares, the digest share and the secret. -/
theorem nodup_baseXs : ∀ n ≤ 14, ((List.range n).map (BitVec.ofNat 8) ++ [digestX, secretX]).Nodup := by decide

theorem isPointSet_basePoints {t : Nat} {secret pad : List Byte} {rs : List (List Byte)} (hash : HashConfig)
    (ht : 2 ≤ t) (hmax : t ≤ 16) (hpad : pad.length + 4 = secret.length) (hcount : rs.length = t - 2)
    (hrs : ∀ r ∈ rs, r.length = secret.length) :
    IsPointSet secret.length (basePoints hash t secret rs pad) := by
  have hlen := length_basePoints ht hash secret rs pad
  refine ⟨by omega, by omega, ?_, fun p hp => ?_⟩
  · rw [map_x_basePoints]
    exact nodup_baseXs _ (by omega)
  · simp only [basePoints, List.mem_append, List.mem_map, List.mem_range, List.mem_cons, List.not_mem_nil,
      or_false] at hp
    obtain ⟨j, hj, rfl⟩ | rfl | rfl := hp
    · rw [List.getD_eq_getElem _ _ (hcount ▸ hj)]
      exact hrs _ (List.getElem_mem _)
    · rw [length_digestShare, Nat.add_comm, hpad]
    · rfl

section
variable {hash : HashConfig} {t n : Nat} {secret pad : List Byte} {rs : List (List Byte)}

theorem randomShare_mem_basePoints {i : Nat} (hi : i < t - 2) :
    { x := BitVec.ofNat 8 i, y := rs.getD i [] } ∈ basePoints hash t secret rs pad :=
  List.mem_append_left _ (List.mem_map.2 ⟨i, List.mem_range.2 hi, rfl⟩)

theorem digestShare_mem_basePoints :
    { x := digestX, y := digestShare hash pad secret } ∈ basePoints hash t secret rs pad := by
  simp [basePoints]

theorem secret_mem_basePoints : { x := secretX, y := secret } ∈ basePoints hash t secret rs pad := by
  simp [basePoints]

/-- With T ≥ 2 every share, a random one too, is on the polynomial through the base points. -/
theorem shareValue_eq_interpolate (ht : 2 ≤ t)
    (hbase : IsPointSet secret.length (basePoints hash t secret rs pad)) (i : Nat) :
    shareValue hash t secret rs pad i =
      interpolate secret.length (basePoints hash t secret rs pad) (BitVec.ofNat 8 i) := by
  refine (if_neg (by omega)).trans ?_
  split
  next hi => exact (interpolate_of_mem hbase.nodup (randomShare_mem_basePoints (by omega)) _).symm
  next => rfl

theorem mem_splitSecret_iff {p : Point} : p ∈ splitSecret hash t n secret rs pad ↔
    ∃ i < n, p = { x := BitVec.ofNat 8 i, y := shareValue hash t secret rs pad i } := by
  simp [splitSecret, eq_comm]

theorem onInterpolation_of_mem_splitSecret {shares : List Point} (ht : 2 ≤ t)
    (hbase : IsPointSet secret.length (basePoints hash t secret rs pad))
    (hshares : ∀ p ∈ shares, p ∈ splitSecret hash t n secret rs pad) :
    OnInterpolation secret.length (basePoints hash t secret rs pad) shares := by
  intro p hp
  obtain ⟨i, -, rfl⟩ := mem_splitSecret_iff.1 (hshares p hp)
  exact shareValue_eq_interpolate ht hbase i

end

/-! ### recover_secret (R172, R174) -/

/-- With T = 1 the value of the single share. -/
theorem recoverSecret_one (hash : HashConfig) (len : Nat) (p : Point) (rest : List Point) :
    recoverSecret hash len 1 (p :: rest) = .ok p.y := rfl

/-- With T ≥ 2 the digest of the interpolated secret decides. -/
theorem recoverSecret_of_two_le {t : Nat} (ht : 2 ≤ t) (hash : HashConfig) (len : Nat) (shares : List Point) :
    recoverSecret hash len t shares =
      if digest hash ((interpolate len shares digestX).drop 4) (interpolate len shares secretX) =
          (interpolate len shares digestX).take 4 then .ok (interpolate len shares secretX)
      else .error .invalidDigest :=
  if_neg (by omega)

@[simp] theorem length_digest (hash : HashConfig) (pad secret : List Byte) : (digest hash pad secret).length = 4 := by
  simp [digest]

@[simp] theorem take_digestShare (hash : HashConfig) (pad secret : List Byte) :
    (digestShare hash pad secret).take 4 = digest hash pad secret :=
  List.take_left' (length_digest ..)

@[simp] theorem drop_digestShare (hash : HashConfig) (pad secret : List Byte) :
    (digestShare hash pad secret).drop 4 = pad :=
  List.drop_left' (length_digest ..)

/-- Shares whose polynomial has the secret and its digest share at their places recover the secret. -/
theorem recoverSecret_of_interpolate_eq {hash : HashConfig} {len t : Nat} {shares : List Point} {secret pad : List Byte}
    (ht : 2 ≤ t) (hsecret : interpolate len shares secretX = secret)
    (hdigest : interpolate len shares digestX = digestShare hash pad secret) :
    recoverSecret hash len t shares = .ok secret := by
  rw [recoverSecret_of_two_le ht, hsecret, hdigest, drop_digestShare, take_digestShare, if_pos rfl]

/-- Settles O60: the single share is the secret when T = 1; else the T shares have the polynomial of the base points, and
with it the secret and the digest share. -/
theorem recoverSecretUndoesSplitSecretForEveryHash : Obligations.RecoverSecretUndoesSplitSecretForEveryHash := by
  intro hash t n secret pad rs shares hmin htn hn hpad hcount hrs hlen hnodup hshares
  obtain rfl | ht : t = 1 ∨ 2 ≤ t := by omega
  · obtain ⟨p, rfl⟩ := List.length_eq_one_iff.1 hlen
    obtain ⟨i, -, rfl⟩ := mem_splitSecret_iff.1 (hshares p (List.mem_singleton_self p))
    exact recoverSecret_one ..
  · have hbase := isPointSet_basePoints hash ht (htn.trans hn) hpad hcount hrs
    have hon := onInterpolation_of_mem_splitSecret ht hbase hshares
    have hpoints : IsPointSet secret.length shares :=
      ⟨by omega, by omega, hnodup, fun p hp => (congrArg List.length (hon p hp)).trans (hbase.length_interpolate p.x)⟩
    have hsame := interpolate_eq_of_onInterpolation hbase hpoints ((length_basePoints ht ..).trans hlen.symm).le hon
    exact recoverSecret_of_interpolate_eq ht
      ((hsame secretX).trans (interpolate_of_mem hbase.nodup secret_mem_basePoints _))
      ((hsame digestX).trans (interpolate_of_mem hbase.nodup digestShare_mem_basePoints _))

end Sys2Proof.Machine
end

section
/-! PROOFS of the family 44_shamir_recover, the commands RECOVER and INTERP (spec/44_shamir_recover R173, R175). -/

namespace Sys2Proof.Machine

/-! ### The checks RECOVER and INTERP share (R204, R205) -/

section
variable {i : Instr} {s : State} {count : Nat} {rest : List (Bool × CmdError)}
  (hchecks : commandChecks i s =
    (decide (count < 1) || decide (16 < count), .invalidShareCount) :: lengthChecks s ++ rest)
include hchecks

theorem endsInError_of_count (h : ¬(1 ≤ count ∧ count ≤ 16)) : EndsInError .invalidShareCount i s := by
  refine endsInError_of_failed_check ?_
  rw [hchecks]
  exact if_pos (by simp; omega)

/-- With a legal count the checks of LEN and those after them decide. -/
theorem firstError_of_legalCount (hmin : 1 ≤ count) (hmax : count ≤ 16) :
    firstError (commandChecks i s) = firstError (lengthChecks s ++ rest) := by
  rw [hchecks]
  exact if_neg (by simp; omega)

theorem endsInError_of_length (hmin : 1 ≤ count) (hmax : count ≤ 16)
    (h : ¬(16 ≤ s.len.toNat ∧ s.len.toNat ≤ s.cfg.lmax)) : EndsInError .invalidSecretLength i s := by
  refine endsInError_of_failed_check ?_
  rw [firstError_of_legalCount hchecks hmin hmax, firstError_lengthChecks, if_pos h]

theorem endsInError_of_parity (hmin : 1 ≤ count) (hmax : count ≤ 16) (hlmin : 16 ≤ s.len.toNat)
    (hlmax : s.len.toNat ≤ s.cfg.lmax) (hodd : s.len.toNat % 2 = 1) : EndsInError .invalidSecretParity i s := by
  refine endsInError_of_failed_check ?_
  rw [firstError_of_legalCount hchecks hmin hmax, firstError_lengthChecks,
    if_neg (not_not.2 ⟨hlmin, hlmax⟩), if_pos hodd]

/-- With a legal count and a legal LEN the command's own checks decide. -/
theorem endsInError_of_later_check {e : CmdError} (hmin : 1 ≤ count) (hmax : count ≤ 16) (hlen : LegalLength s)
    (h : firstError rest = some e) : EndsInError e i s := by
  obtain ⟨hlmin, hlmax, heven⟩ := hlen
  refine endsInError_of_failed_check ?_
  rw [firstError_of_legalCount hchecks hmin hmax, firstError_lengthChecks, if_neg (not_not.2 ⟨hlmin, hlmax⟩),
    if_neg (by omega), h]

end

variable {s : State}

/-! ### INTERP (R175) -/

theorem nodup_x_points (h : DistinctXs s) : (s.points.map (fun p => p.x)).Nodup := by
  rwa [State.map_x_points, State.xs_nodup_iff]

theorem point_mem_points {m : Nat} (h : m < s.scnt.toNat) : s.point m ∈ s.points :=
  List.mem_map_of_mem (List.mem_range.2 h)

/-- The share table of a block with SCNT = 1 (R170). -/
theorem points_of_scnt_one (h : s.scnt.toNat = 1) : s.points = [s.point 0] := by
  rw [State.points, h]
  rfl

theorem interpolate_points_of_given (hx : DistinctXs s) {m : Nat} (hm : m < s.scnt.toNat) :
    interpolate s.len.toNat s.points (s.shxAt m) = s.mem.readBytes (shvBase m) s.len.toNat :=
  interpolate_of_mem (p := s.point m) (nodup_x_points hx) (point_mem_points hm) _

theorem interpolate_points_of_scnt_one (h : s.scnt.toNat = 1) (x : Byte) :
    interpolate s.len.toNat s.points x = s.mem.readBytes (shvBase 0) s.len.toNat := by
  have hy := interpolate_singleton (s.point 0) x
  rwa [State.length_point_y, ← points_of_scnt_one h] at hy

theorem completes_interp (hs : LegalInterp s) (hm : s.mem.wf = true) :
    Completes .interp s (fun t => t.secret = interpolate s.len.toNat s.points s.xsel ∧ WritesSecretOnly s t) :=
  completes_of_secretResult (by decide) hm ((firstError_interpChecks_eq_none s).2 hs) rfl

/-- Settles O56: the first failing check decides; where none fails, the two corner cases are values of the interpolation. -/
theorem interpResult : Obligations.InterpResult := by
  refine ⟨decode_encode .interp, fun s => ⟨endsInError_of_count rfl, endsInError_of_length rfl,
    endsInError_of_parity rfl, fun hmin hmax hlen hx => ?_, fun hs hm => ?_⟩⟩
  · refine endsInError_of_later_check rfl hmin hmax hlen ?_
    rw [firstError_cons, if_pos (by simpa using mt s.xs_nodup_iff.1 hx)]
  · refine (completes_interp hs hm).mono fun t ⟨hsecret, hwrites⟩ =>
      ⟨hsecret, hwrites, fun m hmlt hxsel => ?_, fun h => ?_⟩
    · obtain ⟨-, -, hx⟩ := hs
      rw [hsecret, ← hxsel, interpolate_points_of_given hx hmlt]
    · rw [hsecret, interpolate_points_of_scnt_one h]

/-! ### RECOVER (R173) -/

/-- Check 4 of R173. -/
theorem endsInError_recover_of_scnt (hmin : 1 ≤ s.thr.toNat) (hmax : s.thr.toNat ≤ 16) (hlen : LegalLength s)
    (h : s.scnt ≠ s.thr) : EndsInError .inconsistentMnemonicSet .recover s :=
  endsInError_of_later_check rfl hmin hmax hlen ((firstError_cons ..).trans (if_pos (bne_iff_ne.2 h)))

/-- Check 5 of R173. -/
theorem endsInError_recover_of_xs (hmin : 1 ≤ s.thr.toNat) (hmax : s.thr.toNat ≤ 16) (hlen : LegalLength s)
    (hscnt : s.scnt = s.thr) (h : ¬(ShareXs s ∧ DistinctXs s)) : EndsInError .invalidShareSet .recover s := by
  refine endsInError_of_later_check rfl hmin hmax hlen ?_
  rw [firstError_cons, if_neg (by simp [hscnt]), firstError_cons, if_pos]
  rw [Bool.or_eq_true, s.xs_any_iff, Bool.not_eq_true', decide_eq_false_iff_not, s.xs_nodup_iff]
  exact not_and_or.1 h

/-- A command whose checks pass ends with the error it finds while computing. -/
theorem endsInError_of_secretResult {i : Instr} {e : CmdError} (hi : i ∈ secretWriters)
    (hc : firstError (commandChecks i s) = none) (hres : secretResult i s = .error e) : EndsInError e i s := by
  refine endsInError_of_eq ((exec_eq_command_of_result i s).trans (command_of_late_error hc ?_))
  rw [commandResult_of_mem_secretWriters hi, hres]
  rfl

/-- The digest of the interpolated secret, under the block's hash pair, is the one its digest share states (R174). -/
def DigestMatches (s : State) : Prop :=
  digest s.hash ((interpolate s.len.toNat s.points digestX).drop 4) (interpolate s.len.toNat s.points secretX) =
    (interpolate s.len.toNat s.points digestX).take 4

theorem endsInError_recover_of_digest (hs : LegalRecover s) (hthr : 2 ≤ s.thr.toNat) (h : ¬DigestMatches s) :
    EndsInError .invalidDigest .recover s :=
  endsInError_of_secretResult (by decide) ((firstError_recoverChecks_eq_none s).2 hs)
    ((recoverSecret_of_two_le hthr ..).trans (if_neg h))

theorem completes_recover {secret : List Byte} (hs : LegalRecover s) (hm : s.mem.wf = true)
    (h : recoverSecret s.hash s.len.toNat s.thr.toNat s.points = .ok secret) :
    Completes .recover s (fun t => t.secret = secret ∧ WritesSecretOnly s t) :=
  completes_of_secretResult (by decide) hm ((firstError_recoverChecks_eq_none s).2 hs) h

/-- With T = 1 the share table has one entry, and its value is the secret (R172). -/
theorem recoverSecret_points_of_thr_one (hs : LegalRecover s) (hthr : s.thr.toNat = 1) :
    recoverSecret s.hash s.len.toNat s.thr.toNat s.points = .ok (s.mem.readBytes (shvBase 0) s.len.toNat) := by
  obtain ⟨-, -, hscnt, -⟩ := hs
  rw [hthr, points_of_scnt_one (hscnt ▸ hthr)]
  exact recoverSecret_one ..

/-- Settles O55: the first failing check decides, then the threshold, and for T ≥ 2 the digest. -/
theorem recoverResult : Obligations.RecoverResult :=
  ⟨decode_encode .recover, fun _ =>
    ⟨endsInError_of_count rfl, endsInError_of_length rfl, endsInError_of_parity rfl, endsInError_recover_of_scnt,
      endsInError_recover_of_xs, endsInError_recover_of_digest,
      fun hs hm hthr hdigest => completes_recover hs hm ((recoverSecret_of_two_le hthr ..).trans (if_pos hdigest)),
      fun hs hm hthr => completes_recover hs hm (recoverSecret_points_of_thr_one hs hthr)⟩⟩

end Sys2Proof.Machine
end

section
/-! PROOFS of the family 45_hash_primitives, the functions (spec/45_hash_primitives R191 to R193). -/

namespace Sys2Proof.Machine

/-! ### SHA-256 (R191) -/

set_option maxRecDepth 1000 in
/-- Settles O46: the two digests, computed. The recursion limit is for the nesting of the 64 rounds. -/
theorem sha256KnownDigests : Obligations.Sha256KnownDigests := ⟨by decide, by decide⟩

/-- The number a byte string writes, big-endian, after the number `v`. -/
theorem foldl_be32 (v : Nat) (w : Word) :
    (be32 w).foldl (fun v b => 256 * v + b.toNat) v = 2 ^ 32 * v + w.toNat := by
  simp only [be32, List.foldl_cons, List.foldl_nil, BitVec.extractLsb'_toNat, Nat.shiftRight_eq_div_pow]
  omega

/-- Settles O47: the number of zero bytes is below 64 and fills the last block, so no smaller one does; the two words are
the halves of the bit length, which is below 2^64. -/
theorem shaPaddingFillsBlocks : Obligations.ShaPaddingFillsBlocks := by
  intro m hm
  refine ⟨_, _, List.append_assoc .., rfl, ?_, ?_, fun y hy => by omega⟩
  · rw [List.foldl_append, foldl_be32, foldl_be32, BitVec.extractLsb'_toNat, BitVec.extractLsb'_toNat,
      BitVec.toNat_ofNat, Nat.shiftRight_eq_div_pow]
    omega
  · simp only [shaPad, be32, List.length_append, List.length_replicate, List.length_cons, List.length_nil]
    omega

/-! ### HMAC (R192) -/

/-- XOR with a constant byte string is XOR with its byte. -/
theorem xorBytes_replicate (s : List Byte) (c : Byte) :
    xorBytes s (List.replicate s.length c) = s.map (fun b => b ^^^ c) := by
  induction s with
  | nil => rfl
  | cons b s ih => exact congrArg _ ih

/-- K0 is 64 bytes long: the key has been cut to at most 64. -/
@[simp] theorem length_hmacKey (key : List Byte) : (hmacKey key).length = 64 := by
  rw [hmacKey, List.length_append, List.length_replicate]
  split
  · simp
  · omega

/-- Settles O48: the pads are K0 with one byte XORed on. -/
theorem hmacAsWritten : Obligations.HmacAsWritten := by
  intro key msg
  have hpad (c : Byte) : xorBytes (hmacKey key) (List.replicate 64 c) = (hmacKey key).map (fun b => b ^^^ c) := by
    rw [← xorBytes_replicate, length_hmacKey]
  refine ⟨length_hmacKey key, ?_⟩
  change _ = sha256 (xorBytes (hmacKey key) _ ++ (sha256 (xorBytes (hmacKey key) _ ++ msg)).toList)
  rw [hpad, hpad]
  rfl

/-! ### PBKDF2 (R193) -/

section
variable (password salt : List Byte) (c i : Nat)

/-- Byte `b` of U_1 XOR .. XOR U_(k+1) goes on to U_1 XOR .. XOR U_(k+1+n). -/
theorem getD_pbkdf2Loop (n k b : Nat) {t : Vector Byte 32} (hb : b < 32)
    (ht : t.toList.getD b 0 = pbkdf2TByte password salt (k + 1) i b) :
    (pbkdf2Loop password n (pbkdf2U password salt i k) t).toList.getD b 0 =
      pbkdf2TByte password salt (k + 1 + n) i b := by
  induction n generalizing k t with
  | zero => exact ht
  | succ n ih =>
    rw [show k + 1 + (n + 1) = k + 1 + 1 + n by omega]
    refine ih (k + 1) ?_
    rw [pbkdf2TByte, List.range_succ, List.foldl_append, ← pbkdf2TByte, ← ht]
    simp [hb, pbkdf2U]

/-- Byte `b` of T_i. -/
theorem getD_pbkdf2Block {b : Nat} (hc : 1 ≤ c) (hb : b < 32) :
    (pbkdf2Block password salt c i).toList.getD b 0 = pbkdf2TByte password salt c i b := by
  have h := getD_pbkdf2Loop password salt i (c - 1) 0 b hb (t := pbkdf2U password salt i 0) (by simp [pbkdf2TByte])
  rwa [show 0 + 1 + (c - 1) = c by omega] at h

/-- Byte `j` of T_i ++ .. ++ T_(i+n-1). -/
theorem getD_pbkdf2Stream (n : Nat) {j : Nat} (hj : j < n * 32) :
    (pbkdf2Stream password salt c n i).toList.getD j 0 =
      (pbkdf2Block password salt c (i + j / 32)).toList.getD (j % 32) 0 := by
  induction n generalizing i j with
  | zero => omega
  | succ n ih =>
    rw [pbkdf2Stream, Vector.toList_cast, Vector.toList_append]
    by_cases h : j < 32
    · rw [List.getD_append _ _ _ _ (by simpa using h), Nat.div_eq_of_lt h, Nat.mod_eq_of_lt h, Nat.add_zero]
    · rw [List.getD_append_right _ _ _ _ (by simpa using h), Vector.length_toList, ih (i + 1) (by omega)]
      rw [show i + 1 + (j - 32) / 32 = i + j / 32 by omega, show (j - 32) % 32 = j % 32 by omega]

end

/-- Settles O49: the output is the first bytes of T_1 ++ .. ++ T_n, where n, rounded up, is enough for them. -/
theorem pbkdf2AsWritten : Obligations.Pbkdf2AsWritten := by
  intro password salt c dkLen j hc hj
  have hstream := getD_pbkdf2Stream password salt c 1 ((dkLen + 31) / 32) (j := j) (by omega)
  rw [Nat.add_comm 1, getD_pbkdf2Block _ _ _ _ hc (Nat.mod_lt _ (by decide))] at hstream
  rw [← hstream, pbkdf2HmacSha256, Vector.toList_cast, Vector.toList_take, List.getD_eq_getElem?_getD,
    List.getElem?_take_of_lt hj, List.getD_eq_getElem?_getD]

end Sys2Proof.Machine
end

section
/-! PROOFS of the family 45_hash_primitives, the commands that call a hash, under every hash pair (R190): FENC and FDEC
undo one another (spec/42_feistel R139 (a)), and RECOVER undoes SPLIT (spec/44_shamir_recover R177 (a)). Each round trip is
proved for `execWith`; `exec` is that under the block's own pair. -/

namespace Sys2Proof.Machine

/-- Blocks of the same parameters run a command under the same hash pair. -/
theorem exec_eq_execWith_of_cfg_eq {s u : State} (h : u.cfg = s.cfg) (i : Instr) : exec i u = execWith s.hash i u := by
  rw [exec_eq_execWith, hash_eq_of_cfg_hash_eq (congrArg Params.hash h)]

variable {hash : HashConfig} {i j : Instr} {order : List Nat} {bytes : List Byte} {s : State}

/-! ### FENC and FDEC (spec/42_feistel R137 to R139) -/

/-- Storing a byte string and then the bytes that were there first gives the canonical memory back. -/
theorem Memory.writeBytes_writeBytes_readBytes {m : Memory} (a : Nat) (bs : List Byte) (hm : m.wf = true) :
    (m.writeBytes a bs).writeBytes a (m.readBytes a bs.length) = m := by
  have hm' := Memory.wf_writeBytes a bs hm
  refine Sparse.eq_of_read_eq (Memory.wf_writeBytes a _ hm') hm fun b => ?_
  change Memory.read _ b = Memory.read m b
  by_cases hb : a ≤ b ∧ b < a + bs.length
  · obtain ⟨k, rfl⟩ := Nat.exists_eq_add_of_le hb.1
    rw [Memory.read_writeBytes a k _ hm' (by simp; omega)]
    simp [Memory.readBytes]
  · rw [Memory.read_writeBytes_other _ _ _ _ (by simpa using hb), Memory.read_writeBytes_other _ _ _ _ hb]

/-- Two commands that write SECRET, the second one its first contents, restore the block, STATUS apart. -/
theorem onlyStatusDiffers_setSecret_setSecret (hm : s.mem.wf = true) (hlen : bytes.length = s.len.toNat) :
    OnlyStatusDiffers s ((s.beginCommand.setSecret bytes).beginCommand.setSecret s.secret) := by
  have hmem := Memory.writeBytes_writeBytes_readBytes secretBase bytes hm
  rw [hlen] at hmem
  exact congrArg (fun m => { s with mem := m }) hmem

/-- A command that writes SECRET leaves PASS, which begins above the largest SECRET (spec/20_memory R51). -/
theorem LegalLength.passphrase_setSecret (h : LegalLength s) (hlen : bytes.length = s.len.toNat) :
    (s.beginCommand.setSecret bytes).passphrase = s.passphrase := by
  obtain ⟨-, hmax, -⟩ := h
  have hfits := hmax.trans (lmax_le s.cfg)
  refine Memory.readBytes_writeBytes_other _ _ _ _ _ (.inr ?_)
  unfold secretBase passBase
  omega

theorem LegalCipher.setSecret (h : LegalCipher s) (hlen : bytes.length = s.len.toNat) :
    LegalCipher (s.beginCommand.setSecret bytes) := by
  have hlegal := h
  obtain ⟨hlength, -, -⟩ := h
  have hchecks : cipherChecks (s.beginCommand.setSecret bytes) = cipherChecks s :=
    cipherChecks_congr rfl rfl rfl rfl (hlength.passphrase_setSecret hlen)
  rwa [← firstError_cipherChecks_eq_none, hchecks, firstError_cipherChecks_eq_none]

theorem LegalLength.roundFunction_setSecret (h : LegalLength s) (hlen : bytes.length = s.len.toNat) :
    (s.beginCommand.setSecret bytes).roundFunction hash = s.roundFunction hash :=
  congrArg (roundFunction hash · s.itexp s.ident) (h.passphrase_setSecret hlen)

/-- Command `i` under `hash` puts the rounds `order` of SECRET into SECRET. -/
def RunsCipher (hash : HashConfig) (i : Instr) (order : List Nat) : Prop :=
  ∀ s : State, LegalCipher s →
    execWith hash i s = .next (s.beginCommand.setSecret (feistel (s.roundFunction hash) order s.secret))

theorem runsCipher_fenc (hash : HashConfig) : RunsCipher hash .fenc [0, 1, 2, 3] := by
  intro s hs
  unfold execWith fencWith
  exact command_of_completion ((firstError_cipherChecks_eq_none s).2 hs) rfl

theorem runsCipher_fdec (hash : HashConfig) : RunsCipher hash .fdec [3, 2, 1, 0] := by
  intro s hs
  unfold execWith fdecWith
  exact command_of_completion ((firstError_cipherChecks_eq_none s).2 hs) rfl

/-- The second command finds the operands of the first, and undoes its rounds. -/
theorem restores_of_runsCipher (hfirst : RunsCipher hash i order) (hsecond : RunsCipher hash j order.reverse)
    (hs : LegalCipher s) (hm : s.mem.wf = true) : Restores (execWith hash) i j s := by
  have hlegal := hs
  obtain ⟨hlength, -, -⟩ := hs
  have heven : s.secret.length % 2 = 0 := by
    obtain ⟨-, -, heven⟩ := hlength
    rwa [State.length_secret]
  have hf := s.length_roundFunction hash
  have hlen := (length_feistel hf order heven).trans s.length_secret
  have hundo := feistel_reverse_feistel hf order heven
  refine ⟨_, _, hfirst s hlegal, hsecond _ (hlegal.setSecret hlen), State.beginCommand_err _, ?_⟩
  rw [hlength.roundFunction_setSecret hlen, State.secret_setSecret s.beginCommand _ hm hlen, hundo]
  exact ⟨State.secret_setSecret _ _ (Memory.wf_writeBytes _ _ hm) s.length_secret,
    onlyStatusDiffers_setSecret_setSecret hm hlen⟩

/-- The first command leaves the parameters, so the second one runs under the same hash pair. -/
theorem restores_exec_of_execWith (hcfg : ∀ t, WritesOnly i s t → t.cfg = s.cfg)
    (h : Restores (execWith s.hash) i j s) : Restores exec i j s := by
  obtain ⟨t, u, hfirst, hsecond, hu⟩ := h
  rw [← exec_eq_execWith] at hfirst
  obtain ⟨hwrites, -⟩ := exec_writes hfirst
  exact ⟨t, u, hfirst, (exec_eq_execWith_of_cfg_eq (hcfg t hwrites) j).trans hsecond, hu⟩

theorem cfg_of_writesSecretOnly {t : State} (h : WritesSecretOnly s t) : t.cfg = s.cfg := by
  obtain ⟨hframe, -⟩ := h
  rw [← hframe]

/-- Settles O45: the round orders of FENC and FDEC are each other's reverse. -/
theorem fencThenFdecRestores : Obligations.FencThenFdecRestores := by
  intro s hs hm
  have hboth (hash : HashConfig) : Restores (execWith hash) .fenc .fdec s ∧ Restores (execWith hash) .fdec .fenc s :=
    ⟨restores_of_runsCipher (runsCipher_fenc hash) (runsCipher_fdec hash) hs hm,
      restores_of_runsCipher (runsCipher_fdec hash) (runsCipher_fenc hash) hs hm⟩
  obtain ⟨hfenc, hfdec⟩ := hboth s.hash
  exact ⟨⟨restores_exec_of_execWith (fun _ => cfg_of_writesSecretOnly) hfenc,
    restores_exec_of_execWith (fun _ => cfg_of_writesSecretOnly) hfdec⟩, hboth⟩

/-! ### SPLIT under a hash pair (spec/43_shamir_split R156 to R158) -/

/-- Share `k` of SPLIT on `s` under `hash` (R157). -/
def State.share (hash : HashConfig) (s : State) (k : Nat) : Point :=
  { x := BitVec.ofNat 8 k, y := Machine.shareValue hash s.thr.toNat s.secret s.splitDraws.1.1 s.splitDraws.1.2 k }

/-- The points SPLIT under `hash` puts into the share table (R157). -/
def State.splitPointsWith (hash : HashConfig) (s : State) : List Point :=
  splitSecret hash s.thr.toNat s.cnt.toNat s.secret s.splitDraws.1.1 s.splitDraws.1.2

theorem share_mem_splitPointsWith {k : Nat} (hk : k < s.cnt.toNat) : s.share hash k ∈ s.splitPointsWith hash :=
  mem_splitSecret_iff.2 ⟨k, hk, rfl⟩

theorem execWith_split (hash : HashConfig) (hs : LegalSplit s) :
    execWith hash .split s =
      .next { s.beginCommand.setShares 0 (s.splitPointsWith hash) with scnt := s.cnt, random := s.splitDraws.2 } := by
  unfold execWith splitWith
  exact command_of_completion ((firstError_splitChecks_eq_none s).2 hs) rfl

/-- What is drawn with T ≥ 2 meets R157's precondition. -/
theorem splitDraws_lengths (hs : LegalSplit s) (hthr : 2 ≤ s.thr.toNat) :
    s.splitDraws.1.2.length + 4 = s.secret.length ∧ s.splitDraws.1.1.length = s.thr.toNat - 2 ∧
      ∀ r ∈ s.splitDraws.1.1, r.length = s.secret.length := by
  obtain ⟨-, hmin, -⟩ := hs
  rw [State.splitDraws_of_two_le hthr, State.length_secret]
  refine ⟨?_, by simp, fun r hr => ?_⟩
  · rw [randomPadding, List.length_map, List.length_range]
    omega
  · obtain ⟨k, -, rfl⟩ := List.mem_map.1 hr
    rw [randomShare, List.length_map, List.length_range]

/-- Every share of the split is LEN bytes long: it is a value of the polynomial through the base points. -/
theorem length_y_of_mem_splitPointsWith (hs : LegalSplit s) (hthr : 2 ≤ s.thr.toNat) :
    ∀ p ∈ s.splitPointsWith hash, p.y.length = s.len.toNat := by
  obtain ⟨hpad, hcount, hrs⟩ := splitDraws_lengths hs hthr
  obtain ⟨⟨-, hle, hcnt⟩, -⟩ := hs
  have hbase := isPointSet_basePoints hash hthr (hle.trans hcnt) hpad hcount hrs
  intro p hp
  rw [onInterpolation_of_mem_splitSecret hthr hbase (fun _ h => h) p hp, hbase.length_interpolate, State.length_secret]

/-- Entry `k` of the share table after points with values of LEN bytes have been put there. -/
theorem State.point_setShares {ps : List Point} {k : Nat} (hm : s.mem.wf = true) (hlen : s.len.toNat ≤ 0x100)
    (hcount : ps.length ≤ 16) (hy : ∀ p ∈ ps, p.y.length = s.len.toNat) (hk : k < ps.length) :
    (s.setShares 0 ps).point k = ps[k] := by
  have hshx := State.shxAt_setShares ps 0 k s hk (by omega)
  have hshv := State.readBytes_setShares (i := 0) hm hy hlen hk
  rw [Nat.zero_add] at hshx hshv
  rw [State.point, hshx, State.setShares_len, hshv]

/-- Share `k` of the split, in the share table. -/
theorem point_setShares_splitPointsWith (hs : LegalSplit s) (hthr : 2 ≤ s.thr.toNat) (hm : s.mem.wf = true) {k : Nat}
    (hk : k < s.cnt.toNat) :
    (s.beginCommand.setShares 0 (s.splitPointsWith hash)).point k = s.share hash k := by
  have hcount : (s.splitPointsWith hash).length = s.cnt.toNat := length_splitSecret ..
  have hy := length_y_of_mem_splitPointsWith (hash := hash) hs hthr
  obtain ⟨⟨-, -, hcnt⟩, -, hmax, -⟩ := hs
  rw [State.point_setShares (s := s.beginCommand) hm (hmax.trans (lmax_le s.cfg)) (hcount.trans_le hcnt) hy
    (hcount.symm ▸ hk)]
  exact getElem_splitSecret ..

/-! ### RECOVER under a hash pair (spec/44_shamir_recover R173) -/

theorem execWith_recover {secret : List Byte} (hs : LegalRecover s)
    (h : recoverSecret hash s.len.toNat s.thr.toNat s.points = .ok secret) :
    execWith hash .recover s = .next (s.beginCommand.setSecret secret) := by
  unfold execWith recoverWith
  refine command_of_completion ((firstError_recoverChecks_eq_none s).2 hs) ?_
  exact congrArg (Except.map fun bytes => s.beginCommand.setSecret bytes) h

/-! ### SPLIT, then RECOVER (R177 (a)) -/

/-- Different shares have different x-coordinates (R157). -/
theorem nodup_x_shares {chosen : List Nat} (hnodup : chosen.Nodup) (h : ∀ k ∈ chosen, k < 16) :
    ((chosen.map (s.share hash)).map (fun p => p.x)).Nodup := by
  rw [List.map_map]
  refine hnodup.map_on fun k hk l hl heq => ?_
  have hk := h k hk
  have hl := h l hl
  have heq : k % 2 ^ 8 = l % 2 ^ 8 := congrArg BitVec.toNat heq
  omega

theorem recoverSecret_shares {chosen : List Nat} (hs : LegalSplit s) (hthr : 2 ≤ s.thr.toNat) (hnodup : chosen.Nodup)
    (hcount : chosen.length = s.thr.toNat) (hlt : ∀ k ∈ chosen, k < s.cnt.toNat) :
    recoverSecret hash s.len.toNat s.thr.toNat (chosen.map (s.share hash)) = .ok s.secret := by
  obtain ⟨hpad, hdraws, hrs⟩ := splitDraws_lengths hs hthr
  obtain ⟨⟨hmin, hle, hcnt⟩, -⟩ := hs
  rw [← s.length_secret]
  refine recoverSecretUndoesSplitSecretForEveryHash hash _ _ _ _ _ _ hmin hle hcnt hpad hdraws hrs
    (by rw [List.length_map, hcount]) (nodup_x_shares hnodup fun k hk => (hlt k hk).trans_le hcnt) fun p hp => ?_
  obtain ⟨k, hk, rfl⟩ := List.mem_map.1 hp
  exact share_mem_splitPointsWith (hlt k hk)

/-- A share table of THR different shares of `s` is legal for RECOVER. -/
theorem legalRecover_of_shares {chosen : List Nat} {u : State} (hthr : 1 ≤ u.thr.toNat ∧ u.thr.toNat ≤ 16)
    (hlen : LegalLength u) (hnodup : chosen.Nodup) (hcount : chosen.length = u.thr.toNat) (hlt : ∀ k ∈ chosen, k < 16)
    (hpoints : u.points = chosen.map (s.share hash)) : LegalRecover u := by
  have hscnt : u.scnt.toNat = u.thr.toNat := by rw [← State.length_points, hpoints, List.length_map, hcount]
  refine ⟨hthr, hlen, BitVec.eq_of_toNat_eq hscnt, fun k hk => ?_, ?_⟩
  · have hmem := point_mem_points hk
    rw [hpoints] at hmem
    obtain ⟨l, hl, hshare⟩ := List.mem_map.1 hmem
    have hx : l % 2 ^ 8 = (u.shxAt k).toNat := congrArg (fun p => p.x.toNat) hshare
    have hl := hlt l hl
    omega
  · rw [← State.xs_nodup_iff, ← State.map_x_points, hpoints]
    exact nodup_x_shares hnodup hlt

theorem sharesRecover_execWith (hash : HashConfig) (hs : LegalSplit s) (hthr : 2 ≤ s.thr.toNat)
    (hm : s.mem.wf = true) : SharesRecover (execWith hash) s := by
  refine ⟨_, execWith_split hash hs, fun chosen u hnodup hcount hlt hcfg hlen huthr hum hpoints => ?_⟩
  replace hpoints : u.points = chosen.map (s.share hash) :=
    hpoints.trans (List.map_congr_left fun k hk => point_setShares_splitPointsWith hs hthr hm (hlt k hk))
  have hrecovered : recoverSecret hash u.len.toNat u.thr.toNat u.points = .ok s.secret := by
    rw [hlen, huthr, hpoints]
    exact recoverSecret_shares hs hthr hnodup hcount hlt
  obtain ⟨⟨hmin, hle, hcnt⟩, hlegal⟩ := hs
  have hrecover : LegalRecover u :=
    legalRecover_of_shares (huthr ▸ ⟨hmin, hle.trans hcnt⟩) (by rwa [LegalLength, hcfg, hlen]) hnodup (huthr ▸ hcount)
      (fun k hk => (hlt k hk).trans_le hcnt) hpoints
  refine ⟨_, execWith_recover hrecover hrecovered, fields_of_status rfl, ?_⟩
  exact State.secret_setSecret u.beginCommand _ hum (by rw [State.length_secret, State.beginCommand_len, hlen])

/-- Settles O57: by R177 (a) for the functions, the chosen entries being shares of the split. -/
theorem anyThresholdSharesRecoverTheSecret : Obligations.AnyThresholdSharesRecoverTheSecret := by
  intro s hs hthr hm
  have h (hash : HashConfig) := sharesRecover_execWith hash hs hthr hm
  obtain ⟨t, hsplit, hrecover⟩ := h s.hash
  refine ⟨⟨t, (exec_eq_execWith .split s).trans hsplit, fun chosen u hnodup hcount hlt hcfg => ?_⟩, h⟩
  rw [exec_eq_execWith_of_cfg_eq hcfg]
  exact hrecover chosen u hnodup hcount hlt hcfg

end Sys2Proof.Machine
end

section
/-! PROOFS of the family 60_exceptions: error entry (spec/60_exceptions R201), and which errors a command can end with
(R200). Both are read off `exec_result_cases`: where ERR is not 0, the command has taken the error `commandError` names. -/

namespace Sys2Proof.Machine

/-- Settles O19: a completed command leaves ERR = 0, so the command has taken an error. -/
theorem errorsArePrecise : Obligations.ErrorsArePrecise := by
  intro i s t h herr
  obtain ⟨e, -, rfl⟩ | ⟨-, hok⟩ := exec_result_cases h
  · exact ⟨⟨e, s.takeError_err e, endsInError_of_eq h⟩, s.takeError_sticky e, s.takeError_res e, s.takeError_tok e,
      rfl, rfl⟩
  · exact absurd (err_of_commandResult hok) herr

/-! ### The column "Raised by" (R200) -/

/-- The error of the first failing check is the error of one of the checks. -/
theorem mem_errors_of_firstError {checks : List (Bool × CmdError)} {e : CmdError}
    (h : firstError checks = some e) : e ∈ checks.map Prod.snd := by
  induction checks with
  | nil => cases h
  | cons check rest ih =>
    obtain ⟨failed, f⟩ := check
    rw [firstError_cons] at h
    cases failed with
    | true =>
      cases h
      exact List.mem_cons_self
    | false => exact List.mem_cons_of_mem f (ih h)

/-- The checks of a command are for errors of its own. The commands that check LEN do so in another order than R200 lists
the errors in, and RECOVER's list also holds the error it finds while computing. -/
theorem errors_commandChecks_subset (i : Instr) (s : State) : (commandChecks i s).map Prod.snd ⊆ raisedBy i := by
  cases i with
  | fenc | fdec => simp [commandChecks, cipherChecks, lengthChecks, raisedBy]
  | split => simp [commandChecks, splitChecks, lengthChecks, raisedBy]
  | recover => simp [commandChecks, recoverChecks, lengthChecks, raisedBy]
  | interp => simp [commandChecks, interpChecks, lengthChecks, raisedBy]
  | _ => exact List.Subset.refl _

/-- The only error `recoverSecret` finds is a wrong digest (R172). -/
theorem eq_invalidDigest_of_recoverSecret {hash : HashConfig} {len t : Nat} {shares : List Point} {e : CmdError}
    (h : recoverSecret hash len t shares = .error e) : e = .invalidDigest := by
  unfold recoverSecret at h
  split at h
  · cases h
  · dsimp only at h
    split at h <;> cases h
    rfl

/-- RECOVER alone finds an error while computing, and it is one of its own (R173). -/
theorem mem_raisedBy_of_lateError {i : Instr} {s : State} {e : CmdError} (h : lateError (secretResult i s) = some e) :
    e ∈ raisedBy i := by
  cases i with
  | recover =>
    cases hres : secretResult .recover s with
    | ok secret =>
      rw [hres] at h
      cases h
    | error f =>
      rw [hres] at h
      cases h
      rw [eq_invalidDigest_of_recoverSecret hres]
      decide
  | _ => cases h

/-- The error a command ends with is one of its own (R200). -/
theorem mem_raisedBy_of_commandError {i : Instr} {s : State} {e : CmdError} (h : commandError i s = some e) :
    e ∈ raisedBy i := by
  obtain hcheck | ⟨-, hlate⟩ := Option.or_eq_some_iff.1 h
  · exact errors_commandChecks_subset i s (mem_errors_of_firstError hcheck)
  · exact mem_raisedBy_of_lateError hlate

/-- Settles O20: a command takes the error of `commandError`, or completes with ERR = 0. -/
theorem commandsRaiseOnlyTheirErrors : Obligations.CommandsRaiseOnlyTheirErrors := by
  intro i s t h
  obtain ⟨e, he, rfl⟩ | ⟨-, hok⟩ := exec_result_cases h
  · exact .inr ⟨e, mem_raisedBy_of_commandError he, s.takeError_err e⟩
  · exact .inl (err_of_commandResult hok)

end Sys2Proof.Machine
end

section
/-! PROOFS of the family 70_reset_and_hazards: what a reset does (spec/70_reset_and_hazards R220), and that nothing else
clears STICKY or TOK (R221). The one idea for R221: GFTEST alone writes TOK, and its self-test, being over constant tables,
finds them right (spec/40_gf256 R98). -/

namespace Sys2Proof.Machine

/-- Settles O10: the step is `resetBlock`, with the reset taken off the host's list. -/
theorem resetStepGivesResetValues : Obligations.ResetStepGivesResetValues :=
  fun _ _ hp => runPending_of_pending exec hp

/-! ### STICKY and TOK, once set, stay set (R221) -/

/-- Neither STICKY nor TOK is cleared on the way from `s` to `t`. -/
def KeepsStickyAndTok (s t : State) : Prop :=
  (s.sticky = true → t.sticky = true) ∧ (s.tok = true → t.tok = true)

theorem keepsStickyAndTok_of_status_eq {s t : State} (h : t.status = s.status) : KeepsStickyAndTok s t := by
  unfold KeepsStickyAndTok State.sticky State.tok
  rw [h]
  exact ⟨id, id⟩

/-- Error entry sets STICKY and leaves TOK as it was (R201). -/
theorem keepsStickyAndTok_takeError (s : State) (e : CmdError) : KeepsStickyAndTok s (s.takeError e) :=
  ⟨fun _ => s.takeError_sticky e, (s.takeError_tok e).trans⟩

/-- After a completed GFTEST TOK is set: the tables are constants and right (R98). -/
theorem tok_of_completedStatus_gftest {s t : State} (h : t.status = completedStatus .gftest s) : t.tok = true := by
  obtain ⟨-, -, htok, -⟩ := fields_of_status h
  exact htok.trans tablesOk_eq_true

theorem keepsStickyAndTok_of_completedStatus {i : Instr} {s t : State} (h : t.status = completedStatus i s) :
    KeepsStickyAndTok s t := by
  obtain ⟨-, hsticky⟩ := err_sticky_of_completedStatus h
  refine ⟨hsticky.trans, fun hs => ?_⟩
  by_cases hi : i = .gftest
  · subst hi
    exact tok_of_completedStatus_gftest h
  · obtain ⟨htok, -⟩ := tok_res_of_completedStatus h
    exact (htok hi).trans hs

theorem exec_keepsStickyAndTok {i : Instr} {s t : State} (h : exec i s = .next t) : KeepsStickyAndTok s t := by
  obtain ⟨e, rfl⟩ | hstatus := exec_cases h
  · exact keepsStickyAndTok_takeError s e
  · exact keepsStickyAndTok_of_completedStatus hstatus

/-- STATUS is read-only, so no write of an element changes it (R34). -/
@[simp] theorem writeElement_status (v : Word) (s : State) (e : Element) : (writeElement v s e).status = s.status := by
  cases e with
  | _ => rfl

/-- Settles O16: case by case over what one step of the host can be. -/
theorem onlyResetClearsStickyAndTok : Obligations.OnlyResetClearsStickyAndTok := by
  intro s t ht hne
  obtain ⟨-, rfl⟩ | ⟨hd, rest, r, hp, rfl, hcase⟩ := runPending_cases ht
  · exact keepsStickyAndTok_of_status_eq rfl
  -- taking the step off the host's list leaves STATUS as it was
  suffices h : KeepsStickyAndTok { s with host := { s.host with pending := rest } } t from h
  obtain ⟨rfl, -⟩ | ⟨a, w, e, -, -, rfl⟩ | ⟨a, w, v, e, -, -, -, rfl⟩ | ⟨a, w, v, -, -, hrun⟩ := hcase
  · exact absurd (congrArg List.head? hp) hne
  · exact keepsStickyAndTok_of_status_eq rfl
  · exact keepsStickyAndTok_of_status_eq (writeElement_status ..)
  · obtain ⟨-, -, rfl⟩ | ⟨i, -, hexec⟩ := runCommand_cases hrun
    · exact keepsStickyAndTok_takeError ..
    · exact exec_keepsStickyAndTok hexec

end Sys2Proof.Machine
end
